-- ==== Sys2Proof/Word.lean ====
section
/-! DEFINITION. The words of the engine: bytes, the two kinds of encoded word and one-bit masks
(spec/00_scope.md R11, spec/30_encoding.md R63, R75). -/

namespace Sys2Proof

/-- A byte: the width of every port access, mask and value (20_memory.md R51). -/
abbrev Byte := BitVec 8

/-- A count of settle units, `SETTLE_W` = 16 bits (00_scope.md R8, D7). -/
abbrev Units := BitVec 16

/-- The 16-bit command word `CW` (30_encoding.md R63). -/
abbrev CmdWord := BitVec 16

/-- The 32-bit micro-operation word `UW` (30_encoding.md R75). -/
abbrev MicroWord := BitVec 32

/-- `bit(k)`, the 8-bit mask `1 << k` (00_scope.md R11). -/
def bitMask (k : Fin 8) : Byte := 1#8 <<< k.val

/-- An encoded word of either kind: what the host presents, or what identifies a trace event
(30_encoding.md R63, R75). -/
inductive CodeWord where
  | command (w : CmdWord)
  | microOp (w : MicroWord)
  deriving DecidableEq, Repr

end Sys2Proof
end

