-- ==== Sys2Proof/Config.lean ====
section
/-! DEFINITION. What an implementation fixes (the parameter record `P` of spec/00_scope.md R8), the values the
source fixes, the answers of the port-access interface, and the two free values of the model. -/

namespace Sys2Proof

/-- The logical control lines (00_scope.md R13, R15; 10_state.md R22). -/
inductive Line where
  | stb | cs | a0 | aux
  deriving DecidableEq, Repr

/-- The parameter record `P` (00_scope.md R8) that has passed the check of 10_state.md R23: the four line bits are
pairwise distinct, `MAX_LEN` (when there is one) is at least 1, and `UNIT_CYCLES` is positive. `maxLen = none` is
the spec's "unbounded". `unitCycles` is timing only: no rule reads it (92_eei_decisions.md D32).
A record that breaks the check cannot be built; `RawParams.check` refuses it.

The default values below are those of the test configuration `TC`. They serve only to show that a valid record
exists, which `Config.params` needs; nothing in the model is stated of them. -/
structure Params where
  stbBit     : Fin 8 := 0
  csBit      : Fin 8 := 3
  a0Bit      : Fin 8 := 1
  auxBit     : Fin 8 := 2
  busyBit    : Fin 8 := 7
  busyActive : Bool := false
  auxActive  : Bool := false
  maxLen     : Option Nat := none
  unitCycles : Nat := 1
  linesDistinct : [stbBit, csBit, a0Bit, auxBit].Nodup := by decide
  maxLenPos     : maxLen ≠ some 0 := by decide
  unitPos       : 0 < unitCycles := by decide
  deriving DecidableEq, Repr, Inhabited

/-- The control-register bit of a logical line (00_scope.md R8). -/
def Params.lineBit (P : Params) : Line → Fin 8
  | .stb => P.stbBit
  | .cs  => P.csBit
  | .a0  => P.a0Bit
  | .aux => P.auxBit

/-- The test configuration `TC` of 00_scope.md R10: for tests only, no rule of the model rests on it. -/
def Config.tc : Params :=
  { stbBit := 0, a0Bit := 1, auxBit := 2, csBit := 3, busyBit := 7, busyActive := false, auxActive := false,
    maxLen := none, unitCycles := 1 }

/-- `CS_ACTIVE` = 0: chip-select is "active low — value 0" (00_scope.md R8). -/
def Config.csActive : Bool := false
/-- `A0_CMD` = 0 (00_scope.md R8). -/
def Config.a0Cmd : Bool := false
/-- `A0_DATA` = 1 (00_scope.md R8). -/
def Config.a0Data : Bool := true
/-- `STB_ON` = 1, the first value of a strobe pulse (00_scope.md R8). -/
def Config.stbOn : Bool := true
/-- `STB_OFF` = 0, the second value of a strobe pulse (00_scope.md R8). -/
def Config.stbOff : Bool := false
/-- The default of `CFG.settle_units`: 0, the settle wait disabled (00_scope.md R9). -/
def Config.defaultSettle : Units := 0#16

/-- The two errors the port-access interface reports (60_exceptions.md R125, R128). -/
inductive PortError where
  | unavailable
  | ioFailure
  deriving DecidableEq, Repr

/-- The outcome of one port access: `ok` or `err(k)` (10_state.md R35, 60_exceptions.md R128). -/
inductive PortOutcome where
  | ok
  | err (k : PortError)
  deriving DecidableEq, Repr

/-- Everything the environment decides about one port access: its outcome (60_exceptions.md R128), the byte a
successful status read returns (20_memory.md R50), and whether a failed write took its register effect
(60_exceptions.md R129). An access uses the parts it needs. -/
structure Draw where
  outcome : PortOutcome
  status  : Byte
  applied : Bool
  deriving DecidableEq, Repr

/-- The environment's answers to the next port accesses, as plain data (00_scope.md R7 (c)): `queue` holds those
already lined up, oldest first; when it is empty, `always = some d` answers `d` for ever, and `always = none`
answers a free draw, number `drawn`. The representation is a DESIGN CHOICE, log 2. -/
structure Env where
  queue  : List Draw
  always : Option Draw
  drawn  : Nat
  deriving DecidableEq, Repr

/-- The n-th free draw of the environment. No body: nothing can be proved of its parts
(60_exceptions.md R128: "The draw is free"). Log 2. -/
opaque Config.freeOutcome : Nat → Option PortError
/-- The n-th free status byte (20_memory.md R50). No body. Log 2. -/
opaque Config.freeStatus : Nat → Byte
/-- Whether the n-th free draw, if it fails a write, applied it (60_exceptions.md R129). No body. Log 2. -/
opaque Config.freeApplied : Nat → Bool

/-- The parameters of the part at hand, OPEN in the spec (00_scope.md R8): some valid record. No body. Log 1. -/
opaque Config.params : Params

/-- The free draw number `n`, put together from its free parts. -/
def Config.freeDraw (n : Nat) : Draw :=
  { outcome := match Config.freeOutcome n with
      | none => .ok
      | some k => .err k
    status := Config.freeStatus n
    applied := Config.freeApplied n }

end Sys2Proof
end

