-- ==== Sys2Proof/Machine/State.lean ====
section
/-! DEFINITION. The state of the engine (spec/10_state.md), the reasons a step can stop, and the state after reset
(spec/10_state.md R40, spec/70_reset_and_hazards.md R146). -/

namespace Sys2Proof.Machine

/-- The phases of the sequencer (10_state.md R32). -/
inductive Phase where
  /-- `IDLE`: no command; the only phase in which a command is accepted. -/
  | idle
  /-- `SEL_CS`: Protocol B mode setup, chip-select. -/
  | selCs
  /-- `SEL_A0`: Protocol B mode setup, address-select. -/
  | selA0
  /-- `SEL_AUX`: Protocol C mode setup. -/
  | selAux
  /-- `PLACE`: write the current byte to `DATA`. -/
  | place
  /-- `POLL`: Protocol A busy poll. -/
  | poll
  /-- `STB_HI`: first half of a strobe pulse. -/
  | stbHi
  /-- `STB_LO`: second half of a strobe pulse. -/
  | stbLo
  /-- `SETTLE`: settle wait. -/
  | settle
  /-- `END`: the command has finished; the result is set. -/
  | finished
  deriving DecidableEq, Repr

/-- The accepted command `op`, with the sampled `IMM8` of a `CMD_B` (10_state.md R30, R31). -/
inductive Command where
  | writeA
  | cmdB (b : Byte)
  | dataB
  | writeC
  deriving DecidableEq, Repr

/-- What follows a phase in a transition table (41_protocol_a.md R101, 42_protocol_b.md R108, R113,
43_protocol_c.md R120): a phase, the `byte_done` step of 40_port_ops.md R91, or "`END` with `RESULT <- OK`".
`ret` holds one of these while a settle wait runs. DEDUCED, log 8. -/
inductive Next where
  | phase (p : Phase)
  | byteDone
  | finish
  deriving DecidableEq, Repr

/-- The result register `RESULT` (10_state.md R34, 60_exceptions.md R125). Its four values are its four codes. -/
inductive Result where
  | ok
  | portUnavailable
  | portIoFailure
  | illegal
  deriving DecidableEq, Repr

/-- One event of the trace (10_state.md R35). The byte of a status read is absent when it failed. -/
inductive Event where
  | wd (v : Byte) (o : PortOutcome)
  | rs (s : Option Byte) (o : PortOutcome)
  | sc (m v : Byte) (o : PortOutcome)
  | settle (d : Units)
  deriving DecidableEq, Repr

/-- A port register whose bits are each a value or unknown (10_state.md R39): bit `i` is known when `known` has bit
`i`, and then its value is bit `i` of `val`. In the canonical form `val` has no bit outside `known`, so that equal
registers are equal data; the 0 there stands for no value (`PortReg.bit` answers `none`). Log 3. -/
structure PortReg where
  val   : Byte
  known : Byte
  deriving DecidableEq, Repr

/-- A register no bit of which is known (10_state.md R39, R40). -/
def PortReg.unknown : PortReg := { val := 0#8, known := 0#8 }

/-- The per-command configuration `CFG` (00_scope.md R9). -/
structure Cfg where
  settleUnits : Units := Config.defaultSettle
  deriving DecidableEq, Repr

/-- What the host sends to issue a command: the command word, the transfer buffer and `CFG`
(60_exceptions.md R140). -/
structure Request where
  word : CmdWord
  buf  : List Byte := []
  cfg  : Cfg := {}
  deriving DecidableEq, Repr

/-- The moves of the host and the platform (60_exceptions.md R140, R141; 70_reset_and_hazards.md R148). The host's
moves are lined up in `State.host` and taken one at a time. Log 4, log 14. -/
inductive HostMove where
  /-- Present a command now. -/
  | issue (r : Request)
  /-- Touch nothing for one step of the engine. -/
  | tick
  /-- Touch nothing until the engine is in `IDLE` (a blocking call waits so for its end). -/
  | await
  /-- Reset the engine. -/
  | reset
  /-- Change the host's buffer. -/
  | changeBuffer (buf : List Byte)
  /-- Change the host's configuration. -/
  | changeConfig (cfg : Cfg)
  /-- An agent other than the engine writes the data lines of the port. -/
  | otherWritesData (v : Byte)
  /-- An agent other than the engine writes the control lines of the port. -/
  | otherWritesControl (m v : Byte)
  deriving DecidableEq, Repr

/-- The state of the machine: the port registers, the sequencer, the inputs sampled for the running command, and the
model's own `params`, `env` and `host` (the parameter record, the environment and the host's moves: plain data that
the spec takes as arguments or oracles). -/
structure State where
  /-- The parameter record `P` (00_scope.md R8). No step changes it. -/
  params  : Params
  /-- `DATA` (10_state.md R21). -/
  data    : PortReg
  /-- `CONTROL` (10_state.md R22). -/
  control : PortReg
  /-- `ph` (10_state.md R31, R32). -/
  ph      : Phase
  /-- `op` (10_state.md R31). -/
  op      : Option Command
  /-- `idx` (10_state.md R31). -/
  idx     : Nat
  /-- `ret` (10_state.md R31, 40_port_ops.md R87). -/
  ret     : Option Next
  /-- `cnt` (10_state.md R33). -/
  cnt     : Units
  /-- `RESULT` (10_state.md R34). -/
  result  : Result
  /-- The trace, oldest event first (10_state.md R35). -/
  trace   : List Event
  /-- The sampled transfer buffer (10_state.md R30). -/
  buf     : List Byte
  /-- The sampled `CFG` (10_state.md R30). -/
  cfg     : Cfg
  /-- The environment (00_scope.md R7 (c)). -/
  env     : Env
  /-- The host's moves, the next one first (00_scope.md R7 (b)). -/
  host    : List HostMove
  deriving DecidableEq, Repr

/-- The faults: each is raised only in a state that no run reaches (`Machine.State.Inv` of Safety.lean rules them
out). They are safe: the model stops where the engine never stands. Log 12. -/
inductive Fault where
  /-- Raised by the sequencer (Machine/Sequencer.lean) when the phase performs an access and the transition table of
  the accepted command has no row for it, or no command is accepted. Safe. -/
  | noTransition
  /-- Raised by the sequencer in `PLACE` when `idx` is no position of the buffer: "never reads a position `i >= N`"
  (20_memory.md R53). Safe. -/
  | bufferReadPastEnd
  deriving DecidableEq, Repr

/-- The refusals: "the model has no move for it" (93_implementation_defined.md section 3). -/
inductive Refusal where
  /-- An instruction without a meaning. Raised by no arm: every instruction has its meaning. Safe. -/
  | notModelled (mnemonic : String)
  /-- A command presented while one runs (60_exceptions.md R141 (a), D20). Raised by the host interface and by the
  acceptance of a command. Safe unless a real host could do it; the spec makes it a host duty. -/
  | commandWhileBusy
  /-- A buffer longer than `MAX_LEN` on an implementation that bounds it (30_encoding.md R66). Raised by the acceptance
  of a sequence command. Safe. -/
  | bufferTooLong
  /-- The buffer changed during a command (60_exceptions.md R141 (b)). Raised by the host interface. Safe. -/
  | bufferChanged
  /-- `CFG` changed during a command (60_exceptions.md R141 (c)). Raised by the host interface. Safe. -/
  | configChanged
  /-- Another agent accessed the port during a command (60_exceptions.md R141 (d), R142). Raised by the host
  interface. Safe. -/
  | portShared
  deriving DecidableEq, Repr

/-- The environment with nothing lined up: every answer is a free draw. DESIGN CHOICE, log 2. -/
def freeEnv : Env := { queue := [], always := none, drawn := 0 }

/-- The machine after reset (10_state.md R40, 70_reset_and_hazards.md R146): the engine's own state as the table of R40
gives it, every bit of `DATA` and `CONTROL` unknown; no input is sampled (log 7); the parameters are some valid record
(log 1), the environment is free (log 2) and the host has no move lined up (log 4). -/
def State.reset : State :=
  { params := Config.params
    data := PortReg.unknown
    control := PortReg.unknown
    ph := .idle
    op := none
    idx := 0
    ret := none
    cnt := 0#16
    result := .ok
    trace := []
    buf := []
    cfg := {}
    env := freeEnv
    host := [] }

end Sys2Proof.Machine
end

