-- ==== Sys2Proof/Machine/Flags.lean ====
section
/-! DEFINITION. The only flag the engine tests: the busy flag (spec/10_state.md R26, R37). No command writes a flag, and
the engine keeps no copy of this one. -/

namespace Sys2Proof.Machine

/-- `busy(s) = (s[BUSY_BIT] = BUSY_ACTIVE)` (10_state.md R26). The other bits are ignored (R27). -/
def busy (P : Params) (status : Byte) : Bool := status.getLsbD P.busyBit.val == P.busyActive

end Sys2Proof.Machine
end

