-- ==== Sys2Proof/Syntax.lean ====
section
/-! DEFINITION. The instructions: one constructor per row of spec/opcode_table.json. The four commands are what the
host presents (spec/30_encoding.md R67); the four micro-operations are what the sequencer issues (R77). -/

namespace Sys2Proof

/-- The instructions of spec/opcode_table.json. The transfer buffer and `CFG` of a command stand beside its word
(30_encoding.md R66, 00_scope.md R9), so they are no part of it. -/
inductive Instr where
  /-- `WRITE_A`, Protocol A byte writer (41_protocol_a.md R100). -/
  | writeA
  /-- `CMD_B b`, Protocol B send command (42_protocol_b.md R107). -/
  | cmdB (b : Byte)
  /-- `DATA_B`, Protocol B send data (42_protocol_b.md R112). -/
  | dataB
  /-- `WRITE_C`, Protocol C persistent-select writer (43_protocol_c.md R119). -/
  | writeC
  /-- `WD v`, write data (40_port_ops.md R83). -/
  | wd (v : Byte)
  /-- `RS`, read status (40_port_ops.md R84). -/
  | rs
  /-- `SC m,v`, masked control write (40_port_ops.md R85). -/
  | sc (m v : Byte)
  /-- `SETTLE d`, settle wait (40_port_ops.md R86). -/
  | settle (d : Units)
  deriving DecidableEq, Repr

end Sys2Proof
end

