-- ==== Sys2Proof/Machine/Operands.lean ====
section
/-! DEFINITION. The operand forms of the engine: line masks and the line writes of the control-line multiplexer
(spec/00_scope.md R13, spec/30_encoding.md R74), the bytes of the transfer buffer (spec/20_memory.md R53), and the
numbering of the port registers (spec/20_memory.md R46). -/

namespace Sys2Proof.Machine

/-- `mask(L) = bit(L_BIT)` (00_scope.md R13). -/
def lineMask (P : Params) (L : Line) : Byte := bitMask (P.lineBit L)

/-- The value of a write of line `L` to `b`: `b ? mask(L) : 0` (00_scope.md R13, 30_encoding.md R74). -/
def lineValue (P : Params) (L : Line) (b : Bool) : Byte := if b then lineMask P L else 0#8

/-- "Write line `L` to `b`": the micro-operation the control-line multiplexer issues (30_encoding.md R74). -/
def lineWrite (P : Params) (L : Line) (b : Bool) : Instr := .sc (lineMask P L) (lineValue P L b)

/-- `LINES`, the union of the four line masks (10_state.md R24). -/
def allLines (P : Params) : Byte :=
  lineMask P .stb ||| lineMask P .cs ||| lineMask P .a0 ||| lineMask P .aux

/-- `MemRead(buf + i, 1)`: the byte at position `i < N`; no position `i >= N` exists (20_memory.md R53). -/
def memRead (buf : List Byte) (i : Nat) : Option Byte := buf[i]?

/-- `N`: the number of bytes of the running command, 1 for `CMD_B` (`N <- 1`, 42_protocol_b.md R108) and the length of
the sampled buffer for the sequence commands (10_state.md R30). -/
def State.total (s : State) : Nat :=
  match s.op with
  | some (.cmdB _) => 1
  | some .writeA => s.buf.length
  | some .dataB => s.buf.length
  | some .writeC => s.buf.length
  | none => 0

/-- The byte `PLACE` writes: `IMM8` for `CMD_B`, `buf[idx]` for the sequence commands (40_port_ops.md R90). `CMD_B`
never reads the buffer (30_encoding.md R66). -/
def State.currentByte (s : State) : Option Byte :=
  match s.op with
  | some (.cmdB b) => some b
  | some .writeA => memRead s.buf s.idx
  | some .dataB => memRead s.buf s.idx
  | some .writeC => memRead s.buf s.idx
  | none => none

/-- The settle units that follow a successful write: `CFG.settle_units` in Protocols B and C, none in Protocol A
(40_port_ops.md R87: "Protocol A has no settle wait"). -/
def State.settleUnits (s : State) : Units :=
  match s.op with
  | some .writeA => 0#16
  | some (.cmdB _) => s.cfg.settleUnits
  | some .dataB => s.cfg.settleUnits
  | some .writeC => s.cfg.settleUnits
  | none => 0#16

/-- A transfer length the implementation accepts (00_scope.md R8 `MAX_LEN`, 30_encoding.md R66). The length 0 is legal
on every implementation, since `MAX_LEN` is at least 1. Log 11. -/
def fitsMaxLen (P : Params) (n : Nat) : Bool :=
  n == 0 || match P.maxLen with
    | none => true
    | some k => decide (n ≤ k)

/-- The port register with the number of 20_memory.md R46: `DATA` 0, `STATUS` 1, `CONTROL` 2; there is no other. No
rule of the engine computes with the number. -/
def registerName (n : Nat) : Option String :=
  match n with
  | 0 => some "DATA"
  | 1 => some "STATUS"
  | 2 => some "CONTROL"
  | _ => none

/-- The parameters with the strobe line moved to bit `k` and the line that stood there moved to the strobe's bit: a
line map under which a control write with mask `bit(k)` is a strobe write. Used by `fetchSetup` alone. Log 5. -/
def moveStrobe (P : Params) (k : Fin 8) : Params :=
  { P with
    stbBit := k
    csBit := if P.csBit = k then P.stbBit else P.csBit
    a0Bit := if P.a0Bit = k then P.stbBit else P.a0Bit
    auxBit := if P.auxBit = k then P.stbBit else P.auxBit
    linesDistinct := by
      have h := P.linesDistinct
      simp only [List.nodup_cons, List.mem_cons, List.not_mem_nil, or_false, not_or] at h ⊢
      obtain ⟨⟨h1, h2, h3⟩, ⟨h4, h5⟩, h6, -⟩ := h
      refine ⟨⟨?_, ?_, ?_⟩, ⟨?_, ?_⟩, ?_, ?_, List.nodup_nil⟩ <;> (try split_ifs) <;> simp_all [eq_comm]
    maxLenPos := P.maxLenPos
    unitPos := P.unitPos }

/-- The position of the one bit of a one-bit mask (bit 7 when it is none of the masks of bits 0 to 6). -/
def bitIndex (m : Byte) : Fin 8 :=
  if m = bitMask 0 then 0
  else if m = bitMask 1 then 1
  else if m = bitMask 2 then 2
  else if m = bitMask 3 then 3
  else if m = bitMask 4 then 4
  else if m = bitMask 5 then 5
  else if m = bitMask 6 then 6
  else 7

end Sys2Proof.Machine
end

