-- ==== Sys2Proof/Machine/Ops.lean ====
section
/-! DEFINITION. The named operations over the port registers, the trace and the result: the three port accesses
(spec/20_memory.md R48 to R50), the error that ends a command and the abort of a failed access
(spec/60_exceptions.md R126, R129) with the return to the host beside them (R92, R135), and command acceptance (R139). -/

namespace Sys2Proof.Machine

/-! ## Port registers -/

/-- Bit `i` of a port register: its value, or none when it is unknown (10_state.md R39). -/
def PortReg.bit (r : PortReg) (i : Fin 8) : Option Bool :=
  if r.known.getLsbD i.val then some (r.val.getLsbD i.val) else none

/-- The canonical form: no value bit outside the known bits. Log 3. -/
def PortReg.wf (r : PortReg) : Bool := decide (r.val &&& ~~~r.known = 0#8)

/-- A write of the whole register (20_memory.md R48). -/
def PortReg.write (v : Byte) : PortReg := { val := v, known := 0xFF#8 }

/-- The masked write `(c & ~m) | (v & m)`; a masked bit becomes known (20_memory.md R49). -/
def PortReg.writeMasked (r : PortReg) (m v : Byte) : PortReg :=
  { val := (r.val &&& ~~~m) ||| (v &&& m), known := r.known ||| m }

/-- `DATA <- v` (20_memory.md R48). -/
def State.writeData (s : State) (v : Byte) : State := { s with data := PortReg.write v }

/-- `CONTROL <- (CONTROL & ~m) | (v & m)` (20_memory.md R49). -/
def State.writeControl (s : State) (m v : Byte) : State := { s with control := s.control.writeMasked m v }

/-! ## Trace and environment -/

/-- `emit ev` (00_scope.md R12). -/
def State.emit (s : State) (ev : Event) : State := { s with trace := s.trace ++ [ev] }

/-- The environment's next answer and the environment after it (00_scope.md R7 (c)). Log 2. -/
def envNext (e : Env) : Draw × Env :=
  match e.queue with
  | d :: rest => (d, { e with queue := rest })
  | [] =>
    match e.always with
    | some d => (d, e)
    | none => (Config.freeDraw e.drawn, { e with drawn := e.drawn + 1 })

/-- The draw the next port access gets. -/
def State.answer (s : State) : Draw := (envNext s.env).1

/-- The state after one draw. -/
def State.drawn (s : State) : State := { s with env := (envNext s.env).2 }

/-! ## Errors: the one way a command ends early, and the return to the host -/

/-- The result code of a port error (60_exceptions.md R125). -/
def portErrorResult : PortError → Result
  | .unavailable => .portUnavailable
  | .ioFailure => .portIoFailure

/-- The 2-bit code of `RESULT` (10_state.md R34, 60_exceptions.md R125). -/
def Result.code : Result → BitVec 2
  | .ok => 0#2
  | .portUnavailable => 1#2
  | .portIoFailure => 2#2
  | .illegal => 3#2

/-- `raise E`: `RESULT <- E; ph <- END` and nothing else (60_exceptions.md R126, R134). -/
def State.raise (s : State) (e : Result) : State := { s with result := e, ph := .finished }

/-- The abort of a failed access: its register effect if the draw applied it, its event with the error, then the
error (60_exceptions.md R129). `effect` is the state with the register effect performed. -/
def State.abort (s : State) (k : PortError) (applied : Bool) (effect : State) (ev : Event) : State :=
  ((if applied then effect else s).emit ev).raise (portErrorResult k)

/-- `END`: the command returns to the host (40_port_ops.md R92; 60_exceptions.md R135, R140). `RESULT`, the trace and
the port registers stay for the host to read; the command and its sampled inputs do not survive (10_state.md R30).
Log 6, log 7. -/
def State.returnToHost (s : State) : State := { s with ph := .idle, op := none, buf := [], cfg := {} }

/-! ## The three port accesses -/

/-- `PortWriteData(v)` (20_memory.md R48, 40_port_ops.md R83). -/
def portWriteData (v : Byte) (s : State) : State :=
  match s.answer.outcome with
  | .ok => (s.drawn.writeData v).emit (.wd v .ok)
  | .err k => s.drawn.abort k s.answer.applied (s.drawn.writeData v) (.wd v (.err k))

/-- `PortReadStatus()`: the byte returned stands in the trace event (20_memory.md R50, 40_port_ops.md R84). -/
def portReadStatus (s : State) : State :=
  match s.answer.outcome with
  | .ok => s.drawn.emit (.rs (some s.answer.status) .ok)
  | .err k => s.drawn.abort k false s.drawn (.rs none (.err k))

/-- `PortSetControl(m, v)` (20_memory.md R49, 40_port_ops.md R85). The event holds `v & m`. -/
def portSetControl (m v : Byte) (s : State) : State :=
  match s.answer.outcome with
  | .ok => (s.drawn.writeControl m v).emit (.sc m (v &&& m) .ok)
  | .err k => s.drawn.abort k s.answer.applied (s.drawn.writeControl m v) (.sc m (v &&& m) (.err k))

/-- The byte the last status read returned, read off the trace ("every test of the flag reads `STATUS` afresh",
10_state.md R37: it is kept nowhere else). -/
def State.lastStatus (s : State) : Option Byte :=
  match s.trace.getLast? with
  | some (.rs b _) => b
  | some (.wd _ _) | some (.sc _ _ _) | some (.settle _) | none => none

/-! ## Entering a phase -/

/-- `RESULT <- OK; ph <- END` (40_port_ops.md R91). -/
def State.finish (s : State) : State := { s with result := .ok, ph := .finished }

/-- `byte_done` (40_port_ops.md R91). -/
def State.byteDone (s : State) : State :=
  if s.idx + 1 < s.total then { s with idx := s.idx + 1, ph := .place }
  else { s with idx := s.idx + 1 }.finish

/-- Goes on to what a transition table names as next. -/
def State.enter (s : State) (n : Next) : State :=
  match n with
  | .phase p => { s with ph := p }
  | .byteDone => s.byteDone
  | .finish => s.finish

/-! ## Command acceptance -/

/-- The sequencer at acceptance: `idx <- 0`, `cnt <- 0`, `ret <- none`, the trace cleared (60_exceptions.md R139). -/
def State.clearSequencer (s : State) (op : Option Command) : State :=
  { s with op := op, idx := 0, cnt := 0#16, ret := none, trace := [] }

/-- The sampling of a command's inputs as the host presents it (10_state.md R30, 60_exceptions.md R139); `rest` are the
host's later moves. Log 10. -/
def State.present (s : State) (r : Request) (rest : List HostMove) : State :=
  { s with buf := r.buf, cfg := r.cfg, host := rest }

/-- Acceptance of a command whose inputs are sampled, going to the first phase `first` of its transition table
(60_exceptions.md R139). A command presented while one runs is refused (R141). -/
def accept (c : Command) (first : Next) (s : State) : Host.Outcome State Fault Refusal :=
  if s.ph = .idle then .next ((s.clearSequencer (some c)).enter first)
  else .refused .commandWhileBusy

/-- Acceptance of a sequence command: an implementation that bounds the transfer length refuses a longer buffer
(30_encoding.md R66). -/
def acceptSequence (c : Command) (first : Next) (s : State) : Host.Outcome State Fault Refusal :=
  if s.ph = .idle ∧ fitsMaxLen s.params s.buf.length = false then .refused .bufferTooLong
  else accept c first s

/-- An illegal command word: accepted, no access, empty trace, `ILLEGAL` (60_exceptions.md R127). Log 9. -/
def State.acceptIllegal (s : State) : State := (s.clearSequencer none).raise .illegal

end Sys2Proof.Machine
end

