-- ==== Sys2Proof/Machine/Sequencer.lean ====
section
/-! DEFINITION. The phase sequencer: the transition tables of the four commands (spec/41_protocol_a.md R101,
spec/42_protocol_b.md R108, R113, spec/43_protocol_c.md R120), the settle wait (spec/40_port_ops.md R87), the busy poll
(R88), and what the engine does in a step of each phase (R92). -/

namespace Sys2Proof.Machine

/-- The action column of a transition table. -/
inductive Action where
  /-- `WD buf[idx]`, or `WD IMM8` for `CMD_B` (40_port_ops.md R90). -/
  | placeByte
  /-- `s <- RS` (40_port_ops.md R88). -/
  | readStatus
  /-- A write of line `L` to `b` (30_encoding.md R74). -/
  | writeLine (L : Line) (b : Bool)
  deriving DecidableEq, Repr

/-- A row of a transition table: the action and what comes next. For `POLL` the next phase given is the one of a
status that is not busy. -/
structure Row where
  action : Action
  next   : Next
  deriving DecidableEq, Repr

/-- The two rows of a strobe pulse: high, then low, then `byte_done` (40_port_ops.md R89, R91). -/
def strobeHiRow : Row := { action := .writeLine .stb Config.stbOn, next := .phase .stbLo }
/-- The low half of the pulse. -/
def strobeLoRow : Row := { action := .writeLine .stb Config.stbOff, next := .byteDone }

/-- The transition table of `WRITE_A` (41_protocol_a.md R101). -/
def rowWriteA : Phase → Option Row
  | .place => some { action := .placeByte, next := .phase .poll }
  | .poll => some { action := .readStatus, next := .phase .stbHi }
  | .stbHi => some strobeHiRow
  | .stbLo => some strobeLoRow
  | .idle | .selCs | .selA0 | .selAux | .settle | .finished => none

/-- The transition table of `CMD_B` (42_protocol_b.md R108). -/
def rowCmdB : Phase → Option Row
  | .selCs => some { action := .writeLine .cs Config.csActive, next := .phase .selA0 }
  | .selA0 => some { action := .writeLine .a0 Config.a0Cmd, next := .phase .place }
  | .place => some { action := .placeByte, next := .phase .stbHi }
  | .stbHi => some strobeHiRow
  | .stbLo => some strobeLoRow
  | .idle | .selAux | .poll | .settle | .finished => none

/-- Where mode setup leads: "`PLACE` if `N > 0`, else `END` with `RESULT <- OK`" (42_protocol_b.md R113,
43_protocol_c.md R120). -/
def afterSetup (n : Nat) : Next := if 0 < n then .phase .place else .finish

/-- The transition table of `DATA_B` with `n` bytes (42_protocol_b.md R113). -/
def rowDataB (n : Nat) : Phase → Option Row
  | .selCs => some { action := .writeLine .cs Config.csActive, next := .phase .selA0 }
  | .selA0 => some { action := .writeLine .a0 Config.a0Data, next := afterSetup n }
  | .place => some { action := .placeByte, next := .phase .stbHi }
  | .stbHi => some strobeHiRow
  | .stbLo => some strobeLoRow
  | .idle | .selAux | .poll | .settle | .finished => none

/-- The transition table of `WRITE_C` with `n` bytes under the parameters `P` (43_protocol_c.md R120). -/
def rowWriteC (P : Params) (n : Nat) : Phase → Option Row
  | .selAux => some { action := .writeLine .aux P.auxActive, next := afterSetup n }
  | .place => some { action := .placeByte, next := .phase .stbHi }
  | .stbHi => some strobeHiRow
  | .stbLo => some strobeLoRow
  | .idle | .selCs | .selA0 | .poll | .settle | .finished => none

/-- The row of the accepted command for a phase; none when there is no command or its table has no such row. -/
def State.row (s : State) (p : Phase) : Option Row :=
  match s.op with
  | some .writeA => rowWriteA p
  | some (.cmdB _) => rowCmdB p
  | some .dataB => rowDataB s.total p
  | some .writeC => rowWriteC s.params s.total p
  | none => none

/-- What follows the current phase: `ret` in a settle wait, the table's next in a phase with a row, and otherwise the
phase itself. Log 12. -/
def State.following (s : State) : Next :=
  match s.ph with
  | .settle => s.ret.getD (.phase .idle)
  | .idle => .phase .idle
  | .finished => .phase .finished
  | p => match s.row p with
    | some r => r.next
    | none => .phase p

/-- `after_write(next)` of 40_port_ops.md R87 with `next` what follows the current phase: the `SETTLE d` of a write.
`d = 0` emits nothing and takes no step (R86). -/
def settleWait (d : Units) (s : State) : State :=
  if d = 0#16 then s.enter s.following
  else { s.emit (.settle d) with cnt := d, ret := some s.following, ph := .settle }

/-- One settle unit, phase `SETTLE` (40_port_ops.md R87). The counter is 0 in this phase in no run (R93 (b)); there the
step starts the wait of `settle_units`. Log 12. -/
def State.settleUnit (s : State) : State :=
  if s.cnt = 0#16 then settleWait s.settleUnits s
  else if s.cnt - 1#16 = 0#16 then { s with cnt := s.cnt - 1#16 }.enter s.following
  else { s with cnt := s.cnt - 1#16 }

/-- What the sequencer does in a step (40_port_ops.md R92): issue one access, change its own state without an access,
or stand where no run leads. -/
inductive Issue where
  | access (i : Instr)
  | internal (t : State)
  | stuck (f : Fault)
  deriving DecidableEq, Repr

/-- The micro-operation of a row's action. -/
def State.issueAction (s : State) : Action → Issue
  | .placeByte => match s.currentByte with
    | some v => .access (.wd v)
    | none => .stuck .bufferReadPastEnd
  | .readStatus => .access .rs
  | .writeLine L b => .access (lineWrite s.params L b)

/-- The action of the current phase (40_port_ops.md R92). In `IDLE` with no command presented the engine waits. -/
def State.issue (s : State) : Issue :=
  match s.ph with
  | .idle => .internal s
  | .settle => .internal s.settleUnit
  | .finished => .internal s.returnToHost
  | p => match s.row p with
    | some r => s.issueAction r.action
    | none => .stuck .noTransition

/-- The busy poll's decision on the status just read (40_port_ops.md R88). -/
def State.pollDecision (s : State) : State :=
  match s.lastStatus with
  | some b => if busy s.params b then { s with ph := .poll } else s.enter s.following
  | none => s

/-- What the sequencer does in the same step after an access: nothing when it aborted (60_exceptions.md R129), the
busy decision after a status read, and after a write its settle wait (40_port_ops.md R87). -/
def State.proceed (s : State) : State :=
  match s.ph with
  | .finished => s
  | .poll => s.pollDecision
  | .idle | .selCs | .selA0 | .selAux | .place | .stbHi | .stbLo | .settle => settleWait s.settleUnits s

end Sys2Proof.Machine
end

