-- ==== Sys2Proof/Machine/PortOps.lean ====
section
/-! DEFINITION. The meanings of the four micro-operations (spec/40_port_ops.md R83 to R86). -/

namespace Sys2Proof.Machine

/-- `WD v` (40_port_ops.md R83): `PortWriteData(v)`. -/
def execWd (v : Byte) (s : State) : Host.Outcome State Fault Refusal := .next (portWriteData v s)

/-- `RS` (40_port_ops.md R84): `PortReadStatus()`; the byte it returns stands in the event it emits. -/
def execRs (s : State) : Host.Outcome State Fault Refusal := .next (portReadStatus s)

/-- `SC m,v` (40_port_ops.md R85): `PortSetControl(m, v)`. -/
def execSc (m v : Byte) (s : State) : Host.Outcome State Fault Refusal := .next (portSetControl m v s)

/-- `SETTLE d` (40_port_ops.md R86, R87): the wait starts here and its units pass in phase `SETTLE`. -/
def execSettle (d : Units) (s : State) : Host.Outcome State Fault Refusal := .next (settleWait d s)

end Sys2Proof.Machine
end

