-- ==== Sys2Proof/Machine/ProtocolA.lean ====
section
/-! DEFINITION. The meaning of `WRITE_A` (spec/41_protocol_a.md R100 to R106): its acceptance. The sequencer then runs
the transition table `rowWriteA`, one phase a step. -/

namespace Sys2Proof.Machine

/-- `WRITE_A`: accepted into `PLACE` if `N > 0`, else into `END` with `RESULT <- OK` (41_protocol_a.md R101, R103). -/
def execWriteA (s : State) : Host.Outcome State Fault Refusal :=
  acceptSequence .writeA (afterSetup s.buf.length) s

end Sys2Proof.Machine
end

