-- ==== Sys2Proof/Machine/ProtocolB.lean ====
section
/-! DEFINITION. The meanings of `CMD_B` and `DATA_B` (spec/42_protocol_b.md): their acceptance. The sequencer then runs
the transition tables `rowCmdB` and `rowDataB`, one phase a step. -/

namespace Sys2Proof.Machine

/-- `CMD_B b`: accepted into `SEL_CS` (42_protocol_b.md R108). The buffer operand is ignored, whatever its length
(30_encoding.md R66). -/
def execCmdB (b : Byte) (s : State) : Host.Outcome State Fault Refusal := accept (.cmdB b) (.phase .selCs) s

/-- `DATA_B`: accepted into `SEL_CS` (42_protocol_b.md R113). -/
def execDataB (s : State) : Host.Outcome State Fault Refusal := acceptSequence .dataB (.phase .selCs) s

end Sys2Proof.Machine
end

