-- ==== Sys2Proof/Machine/ProtocolC.lean ====
section
/-! DEFINITION. The meaning of `WRITE_C` (spec/43_protocol_c.md R119 to R124): its acceptance. The sequencer then runs
the transition table `rowWriteC`, one phase a step. -/

namespace Sys2Proof.Machine

/-- `WRITE_C`: accepted into `SEL_AUX` (43_protocol_c.md R120). -/
def execWriteC (s : State) : Host.Outcome State Fault Refusal := acceptSequence .writeC (.phase .selAux) s

end Sys2Proof.Machine
end

