-- ==== Sys2Proof/Machine/Dispatch.lean ====
section
/-! DEFINITION. One arm per instruction: which meaning runs it. -/

namespace Sys2Proof.Machine

def exec (i : Instr) (s : State) : Host.Outcome State Fault Refusal :=
  match i with
  | .writeA => Sys2Proof.Machine.execWriteA s
  | .cmdB b => Sys2Proof.Machine.execCmdB b s
  | .dataB => Sys2Proof.Machine.execDataB s
  | .writeC => Sys2Proof.Machine.execWriteC s
  | .wd v => Sys2Proof.Machine.execWd v s
  | .rs => Sys2Proof.Machine.execRs s
  | .sc m v => Sys2Proof.Machine.execSc m v s
  | .settle d => Sys2Proof.Machine.execSettle d s

end Sys2Proof.Machine
end

