-- ==== Sys2Proof/WellFormed.lean ====
section
/-! DEFINITION. Well-formedness: of a raw parameter record (spec/10_state.md R23, spec/00_scope.md R8) and of an
instruction (spec/30_encoding.md R74, R76, R79). -/

namespace Sys2Proof

/-- A parameter record before its check: plain numbers, any of which may be illegal (00_scope.md R8). -/
structure RawParams where
  stbBit     : Nat
  csBit      : Nat
  a0Bit      : Nat
  auxBit     : Nat
  busyBit    : Nat
  busyActive : Nat
  auxActive  : Nat
  maxLen     : Option Nat
  unitCycles : Nat
  deriving DecidableEq, Repr

/-- The line map check of 10_state.md R23: pairwise distinct values in 0..7. -/
def RawParams.lineMapOk (r : RawParams) : Bool :=
  decide ([r.stbBit, r.csBit, r.a0Bit, r.auxBit].Nodup) &&
    [r.stbBit, r.csBit, r.a0Bit, r.auxBit].all (fun k => decide (k < 8))

/-- The legal values of the other parameters (00_scope.md R8). -/
def RawParams.restOk (r : RawParams) : Bool :=
  decide (r.busyBit < 8) && decide (r.busyActive < 2) && decide (r.auxActive < 2) &&
    decide (r.maxLen ≠ some 0) && decide (0 < r.unitCycles)

/-- The check of a parameter record: a valid record, or none ("A model refuses a parameter record that breaks this
check", 10_state.md R23). -/
def RawParams.check (r : RawParams) : Option Params :=
  if h : r.stbBit < 8 ∧ r.csBit < 8 ∧ r.a0Bit < 8 ∧ r.auxBit < 8 ∧ r.busyBit < 8 ∧ r.busyActive < 2 ∧ r.auxActive < 2 then
    if hd : [Fin.mk r.stbBit h.1, Fin.mk r.csBit h.2.1, Fin.mk r.a0Bit h.2.2.1, Fin.mk r.auxBit h.2.2.2.1].Nodup then
      if hm : r.maxLen ≠ some 0 then
        if hu : 0 < r.unitCycles then
          some
            { stbBit := ⟨r.stbBit, h.1⟩
              csBit := ⟨r.csBit, h.2.1⟩
              a0Bit := ⟨r.a0Bit, h.2.2.1⟩
              auxBit := ⟨r.auxBit, h.2.2.2.1⟩
              busyBit := ⟨r.busyBit, h.2.2.2.2.1⟩
              busyActive := r.busyActive == 1
              auxActive := r.auxActive == 1
              maxLen := r.maxLen
              unitCycles := r.unitCycles
              linesDistinct := hd
              maxLenPos := hm
              unitPos := hu }
        else none
      else none
    else none
  else none

/-- Exactly one bit of the mask is set. -/
def isOneBit (m : Byte) : Bool :=
  decide (m ∈ [bitMask 0, bitMask 1, bitMask 2, bitMask 3, bitMask 4, bitMask 5, bitMask 6, bitMask 7])

/-- The mask is exactly one of the line masks of 30_encoding.md R74. -/
def Params.isLineMask (P : Params) (m : Byte) : Bool :=
  decide (m ∈ [bitMask P.stbBit, bitMask P.csBit, bitMask P.a0Bit, bitMask P.auxBit])

/-- The operands can stand in an encoded word under some parameter record (30_encoding.md R76, R79): an `SC` has a
one-bit mask and no value bit outside it. -/
def Instr.encodable : Instr → Bool
  | .sc m v => isOneBit m && decide (v &&& ~~~m = 0#8)
  | .writeA | .cmdB _ | .dataB | .writeC | .wd _ | .rs | .settle _ => true

/-- Well-formed under the parameters `P` (30_encoding.md R79): the mask of an `SC` is one of `P`'s line masks, its
value lies within the mask. Every operand of the other instructions is legal (40_port_ops.md R83, R86;
42_protocol_b.md R107). -/
def Instr.wf (P : Params) : Instr → Bool
  | .sc m v => P.isLineMask m && decide (v &&& ~~~m = 0#8)
  | .writeA | .cmdB _ | .dataB | .writeC | .wd _ | .rs | .settle _ => true

end Sys2Proof
end

