-- ==== Sys2Proof/Decode.lean ====
section
/-! DEFINITION. Decoding of command words and micro-operation words, total and rejecting by name, and after it the
encoder (spec/30_encoding.md R63 to R69, R75 to R79). -/

namespace Sys2Proof

/-- Why a word is no instruction. The first three are the illegal command words of 30_encoding.md R68, the others the
reserved micro-operation words of R79. -/
inductive Reject where
  /-- `RSV != 0` in a command word. -/
  | reservedField
  /-- `OP` is 0x0 or 0x5..0xF. -/
  | reservedOpcode
  /-- `IMM8 != 0` outside `CMD_B`. -/
  | strayImmediate
  /-- `K` is 0x0 or 0x5..0xF. -/
  | reservedKind
  /-- `Z != 0`. -/
  | nonzeroZ
  /-- `M != 0` in a `WD` or `RS` word. -/
  | strayMask
  /-- `V != 0` in an `RS` word. -/
  | strayValue
  /-- `V & ~M != 0` in an `SC` word. -/
  | valueOutsideMask
  /-- `M` of an `SC` word has not exactly one bit, so it is a line mask under no parameter record. -/
  | maskNotOneBit
  /-- `M` of an `SC` word has one bit but is no line mask under the parameters at hand. -/
  | maskNotALine
  deriving DecidableEq, Repr

/-- What a decoder answers. -/
inductive Decoded where
  | instr (i : Instr)
  | rejected (why : Reject)
  deriving DecidableEq, Repr

/-- The instruction of a decoding, if there is one. -/
def Decoded.instr? : Decoded → Option Instr
  | .instr i => some i
  | .rejected _ => none

/-- `OP`, bits 15:12 of a command word (30_encoding.md R63). -/
def CmdWord.op (w : CmdWord) : BitVec 4 := w.extractLsb' 12 4
/-- `RSV`, bits 11:8 of a command word (30_encoding.md R63). -/
def CmdWord.rsv (w : CmdWord) : BitVec 4 := w.extractLsb' 8 4
/-- `IMM8`, bits 7:0 of a command word (30_encoding.md R63, R65). -/
def CmdWord.imm8 (w : CmdWord) : Byte := w.extractLsb' 0 8

/-- `decode(cw)` of 30_encoding.md R69, its tests in the order given there; the rejections give the cause R68 names. -/
def decodeCommand (w : CmdWord) : Decoded :=
  if CmdWord.rsv w ≠ 0#4 then .rejected .reservedField
  else if CmdWord.op w = 0x1#4 then
    if CmdWord.imm8 w = 0#8 then .instr .writeA else .rejected .strayImmediate
  else if CmdWord.op w = 0x2#4 then .instr (.cmdB (CmdWord.imm8 w))
  else if CmdWord.op w = 0x3#4 then
    if CmdWord.imm8 w = 0#8 then .instr .dataB else .rejected .strayImmediate
  else if CmdWord.op w = 0x4#4 then
    if CmdWord.imm8 w = 0#8 then .instr .writeC else .rejected .strayImmediate
  else .rejected .reservedOpcode

/-- `K`, bits 31:28 of a micro-operation word (30_encoding.md R75). -/
def MicroWord.kind (w : MicroWord) : BitVec 4 := w.extractLsb' 28 4
/-- `Z`, bits 27:16 (30_encoding.md R75). -/
def MicroWord.z (w : MicroWord) : BitVec 12 := w.extractLsb' 16 12
/-- `M`, bits 15:8 (30_encoding.md R75). -/
def MicroWord.m (w : MicroWord) : Byte := w.extractLsb' 8 8
/-- `V`, bits 7:0 (30_encoding.md R75). -/
def MicroWord.v (w : MicroWord) : Byte := w.extractLsb' 0 8
/-- The unit count of a `SETTLE` word, bits 15:0 (30_encoding.md R75). -/
def MicroWord.d (w : MicroWord) : Units := w.extractLsb' 0 16

/-- The micro-operation of a word (30_encoding.md R75 to R77), rejecting the words R79 reserves under EVERY parameter
record. Whether a one-bit mask is a line mask depends on the parameters: `readTraceWord` decides that. Log 13. -/
def decodeMicroOp (w : MicroWord) : Decoded :=
  if MicroWord.z w ≠ 0#12 then .rejected .nonzeroZ
  else if MicroWord.kind w = 0x1#4 then
    if MicroWord.m w = 0#8 then .instr (.wd (MicroWord.v w)) else .rejected .strayMask
  else if MicroWord.kind w = 0x2#4 then
    if MicroWord.m w ≠ 0#8 then .rejected .strayMask
    else if MicroWord.v w ≠ 0#8 then .rejected .strayValue
    else .instr .rs
  else if MicroWord.kind w = 0x3#4 then
    if MicroWord.v w &&& ~~~(MicroWord.m w) ≠ 0#8 then .rejected .valueOutsideMask
    else if isOneBit (MicroWord.m w) then .instr (.sc (MicroWord.m w) (MicroWord.v w))
    else .rejected .maskNotOneBit
  else if MicroWord.kind w = 0x4#4 then .instr (.settle (MicroWord.d w))
  else .rejected .reservedKind

/-- The trace reader of 30_encoding.md R79 for an engine with parameters `P`: it rejects every reserved word. -/
def readTraceWord (P : Params) (w : MicroWord) : Decoded :=
  match decodeMicroOp w with
  | .instr i => if i.wf P then .instr i else .rejected .maskNotALine
  | .rejected why => .rejected why

/-- Decoding of a word of either kind. -/
def decode : CodeWord → Decoded
  | .command w => decodeCommand w
  | .microOp w => decodeMicroOp w

/-- The word of a command: `OP`, `RSV` = 0, `IMM8` (30_encoding.md R63, R67). -/
def encodeCommand (op : BitVec 4) (imm : Byte) : CmdWord := op ++ 0#4 ++ imm

/-- The word of a micro-operation: `K`, `Z` = 0 and the low half (30_encoding.md R75, R76). -/
def encodeMicroOp (k : BitVec 4) (low : BitVec 16) : MicroWord := k ++ 0#12 ++ low

/-- The encoder: the word of an instruction, from the tables of 30_encoding.md R67 and R76
(`SC` encodes `V = v & m`). -/
def encode : Instr → CodeWord
  | .writeA   => .command (encodeCommand 0x1#4 0#8)
  | .cmdB b   => .command (encodeCommand 0x2#4 b)
  | .dataB    => .command (encodeCommand 0x3#4 0#8)
  | .writeC   => .command (encodeCommand 0x4#4 0#8)
  | .wd v     => .microOp (encodeMicroOp 0x1#4 (0#8 ++ v))
  | .rs       => .microOp (encodeMicroOp 0x2#4 0#16)
  | .sc m v   => .microOp (encodeMicroOp 0x3#4 (m ++ (v &&& m)))
  | .settle d => .microOp (encodeMicroOp 0x4#4 d)

/-- The word with `nbits` bits of value `w`: a command word has 16 bits, a micro-operation word 32, and there is no
other length (30_encoding.md R64, R75). -/
def codeWord? (nbits w : Nat) : Option CodeWord :=
  if nbits = 16 ∧ w < 2 ^ 16 then some (.command (BitVec.ofNat 16 w))
  else if nbits = 32 ∧ w < 2 ^ 32 then some (.microOp (BitVec.ofNat 32 w))
  else none

/-- The instruction the decoder reads from an instruction of `nbits` bits whose bits are `w`, numbered as
spec/opcode_table.json numbers them; none where it is refused. -/
def decodeTableWord (nbits w : Nat) : Option Instr :=
  match codeWord? nbits w with
  | some c => (decode c).instr?
  | none => none

end Sys2Proof
end

