-- ==== Sys2Proof/Machine/HostPort.lean ====
section
/-! DEFINITION. The host command interface (spec/60_exceptions.md R139 to R142), the host's reset
(spec/70_reset_and_hazards.md R146), the platform's writes between commands (R148), and the state in which a given
word is what the next step runs. -/

namespace Sys2Proof.Machine

/-- Reset as an event: the engine's own state takes the values of 10_state.md R40; the port registers, the parameters
and the environment are untouched (70_reset_and_hazards.md R146). -/
def State.hostReset (s : State) : State :=
  { s with ph := .idle, op := none, idx := 0, ret := none, cnt := 0#16, result := .ok, trace := [], buf := [], cfg := {} }

/-- Whose turn the step is. -/
inductive Turn where
  /-- The engine does the action of its phase. -/
  | engine (s : State)
  /-- The engine accepts a command whose inputs are sampled. -/
  | command (i : Instr) (s : State)
  /-- Something outside the running of a command happened: reset, an illegal word answered, a change between commands. -/
  | outside (t : State)
  /-- The host or another agent broke a duty: the model has no move. -/
  | misuse (r : Refusal)
  deriving DecidableEq, Repr

/-- A change from outside, legal in `IDLE` only (60_exceptions.md R141). -/
def State.betweenCommands (s : State) (t : State) (r : Refusal) : Turn :=
  if s.ph = .idle then .outside t else .misuse r

/-- A command word presented in `IDLE` is decoded and accepted, or answered `ILLEGAL` (60_exceptions.md R127, R139); one
presented at another time is refused (R141). -/
def State.issueTurn (s : State) (r : Request) (rest : List HostMove) : Turn :=
  if s.ph = .idle then
    match decodeCommand r.word with
    | .instr i => .command i (s.present r rest)
    | .rejected _ => .outside (s.present r rest).acceptIllegal
  else .misuse .commandWhileBusy

/-- The host's next move (60_exceptions.md R140, R141). A host with no move lined up waits. Log 4, log 14. -/
def State.turn (s : State) : Turn :=
  match s.host with
  | [] => .engine s
  | .issue r :: rest => s.issueTurn r rest
  | .tick :: rest => .engine { s with host := rest }
  | .await :: rest => if s.ph = .idle then .outside { s with host := rest } else .engine s
  | .reset :: rest => .outside { s.hostReset with host := rest }
  | .changeBuffer _ :: rest => s.betweenCommands { s with host := rest } .bufferChanged
  | .changeConfig _ :: rest => s.betweenCommands { s with host := rest } .configChanged
  | .otherWritesData v :: rest => s.betweenCommands ({ s with host := rest }.writeData v) .portShared
  | .otherWritesControl m v :: rest => s.betweenCommands ({ s with host := rest }.writeControl m v) .portShared

/-- The sequencer in phase `p` of a one-byte `WRITE_A`, about to step: Protocol A puts no settle wait after its
accesses, so the step is the access alone. -/
def State.inWriteA (s : State) (p : Phase) (b : Byte) : State :=
  { s with op := some .writeA, buf := [b], idx := 0, ph := p, host := .tick :: s.host }

/-- The state in which the next step runs the given word: a command word is presented by the host with an empty buffer
and the default `CFG`; for a micro-operation word, which the host cannot issue (30_encoding.md R80), the sequencer
stands in a phase that issues it. A reserved word is issued in no phase. Log 5. -/
def State.fetchSetup (s : State) : CodeWord → State
  | .command w => { s with ph := .idle, host := .issue { word := w } :: s.host }
  | .microOp w =>
    match decodeMicroOp w with
    | .instr (.wd v) => s.inWriteA .place v
    | .instr .rs => s.inWriteA .poll 0#8
    | .instr (.sc m v) =>
      { s with params := moveStrobe s.params (bitIndex m) }.inWriteA (if v = 0#8 then .stbLo else .stbHi) 0#8
    | .instr (.settle d) =>
      { s with op := some .writeC, cfg := { settleUnits := d }, ret := some .finish, cnt := 0#16, ph := .settle,
               host := .tick :: s.host }
    | .instr .writeA | .instr (.cmdB _) | .instr .dataB | .instr .writeC | .rejected _ => s

end Sys2Proof.Machine
end

