-- ==== Sys2Proof/Machine/Step.lean ====
section
/-! DEFINITION. One step of the machine (spec/40_port_ops.md R92, spec/60_exceptions.md R139): the host's move, or the
action of the engine's phase. -/

namespace Sys2Proof.Machine

/-- One step of the engine: the access its phase issues, then what the sequencer does in the same step; or a change of
its own state with no access (40_port_ops.md R92). -/
def engineStep (s : State) : Host.Outcome State Fault Refusal :=
  match s.issue with
  | .access i =>
    match exec i s with
    | .next t => .next t.proceed
    | .fault f => .fault f
    | .refused r => .refused r
  | .internal t => .next t
  | .stuck f => .fault f

/-- One step of the machine. -/
def step (s : State) : Host.Outcome State Fault Refusal :=
  match s.turn with
  | .engine t => engineStep t
  | .command i t => exec i t
  | .outside t => .next t
  | .misuse r => .refused r

/-- The state whose next step runs the instruction word of `nbits` bits with the bits `w`. Log 5. -/
def State.withFetchWord (s : State) (nbits w : Nat) : State :=
  match codeWord? nbits w with
  | some c => s.fetchSetup c
  | none => s

end Sys2Proof.Machine
end

