-- ==== Sys2Proof/Machine/Asm.lean ====
section
/-! DEFINITION. The assembler's command syntax and pseudo-command, and the text of a trace (spec/30_encoding.md R71, R72,
R73, R78). What the spec does not say of the text (spaces, letter case of hexadecimal digits) is log 15. -/

namespace Sys2Proof.Machine

/-- The word that identifies an event (30_encoding.md R75, R76); its outcome and the byte of a status read are recorded
beside it. -/
def Event.instr : Event → Instr
  | .wd v _ => .wd v
  | .rs _ _ => .rs
  | .sc m v _ => .sc m v
  | .settle d => .settle d

/-- The micro-operation word of an event (30_encoding.md R76). -/
def Event.word : Event → MicroWord
  | .wd v _ => encodeMicroOp 0x1#4 (0#8 ++ v)
  | .rs _ _ => encodeMicroOp 0x2#4 0#16
  | .sc m v _ => encodeMicroOp 0x3#4 (m ++ (v &&& m))
  | .settle d => encodeMicroOp 0x4#4 d

/-! ## Trace text (30_encoding.md R78) -/

/-- A hexadecimal digit, capital. -/
def hexDigit (n : Nat) : Char := (("0123456789ABCDEF".toList)[n]?).getD '0'

/-- A byte as `0x` and two digits. -/
def renderByte (b : Byte) : String :=
  String.ofList ['0', 'x', hexDigit (b.toNat / 16), hexDigit (b.toNat % 16)]

/-- The suffix of a failed access. -/
def renderError : PortError → String
  | .unavailable => "!PORT_UNAVAILABLE"
  | .ioFailure => "!PORT_IO_FAILURE"

/-- The suffix of an outcome: none when it is ok. -/
def renderOutcome : PortOutcome → String
  | .ok => ""
  | .err k => " " ++ renderError k

/-- An event as R78 writes it. The count of a settle wait is written in decimal: R78 shows `SETTLE 3` only, and
95_test_vectors.md 2.2 writes a count in hexadecimal too. DESIGN CHOICE, log 15. -/
def renderEvent : Event → String
  | .wd v o => "WD " ++ renderByte v ++ renderOutcome o
  | .rs (some b) _ => "RS -> " ++ renderByte b
  | .rs none .ok => "RS ->"
  | .rs none (.err k) => "RS -> " ++ renderError k
  | .sc m v o => "SC " ++ renderByte m ++ "," ++ renderByte v ++ renderOutcome o
  | .settle d => "SETTLE " ++ Nat.repr d.toNat

/-- A trace, its events separated by `;` as spec/95_test_vectors.md writes them. -/
def renderTrace : List Event → String
  | [] => ""
  | [e] => renderEvent e
  | e :: es => renderEvent e ++ "; " ++ renderTrace es

/-! ## Commands (30_encoding.md R71 to R73) -/

/-- What the pseudo-command `WRITE` names (30_encoding.md R73). -/
inductive Proto where
  | a | b | c
  deriving DecidableEq, Repr

/-- The request of a sequence command or of `CMD_B`: the command word of R63 and the operands of R66. -/
def requestOf (op : BitVec 4) (imm : Byte) (buf : List Byte) (d : Units) : Request :=
  { word := encodeCommand op imm, buf := buf, cfg := { settleUnits := d } }

/-- The opcode a `WRITE` expands to: `WRITE_A`, `DATA_B` or `WRITE_C` (30_encoding.md R73). -/
def Proto.opcode : Proto → BitVec 4
  | .a => 0x1#4
  | .b => 0x3#4
  | .c => 0x4#4

/-- The one command a `WRITE proto, bytes` expands to (30_encoding.md R73). -/
def expandWrite (p : Proto) (buf : List Byte) (d : Units) : Request := requestOf p.opcode 0#8 buf d

/-- The lexical elements of a command line. -/
inductive Token where
  | word (w : String)
  | lbracket
  | rbracket
  | comma
  | equals
  deriving DecidableEq, Repr

/-- The token of the letters gathered so far (kept in reverse), if there are any. -/
def flushWord (acc : List Char) : List Token :=
  if acc.isEmpty then [] else [.word (String.ofList acc.reverse)]

/-- Tokens of a line; `;` starts a comment; none on a character no command has. -/
def lexLine : List Char → List Char → Option (List Token)
  | [], acc => some (flushWord acc)
  | c :: cs, acc =>
    if c = ';' then some (flushWord acc)
    else if c = ' ' ∨ c = '\t' then (lexLine cs []).map (flushWord acc ++ ·)
    else if c = '[' then (lexLine cs []).map (flushWord acc ++ Token.lbracket :: ·)
    else if c = ']' then (lexLine cs []).map (flushWord acc ++ Token.rbracket :: ·)
    else if c = ',' then (lexLine cs []).map (flushWord acc ++ Token.comma :: ·)
    else if c = '=' then (lexLine cs []).map (flushWord acc ++ Token.equals :: ·)
    else if c.isAlphanum ∨ c = '_' then lexLine cs (c :: acc)
    else none

/-- The value of a digit in base 16; none where it is no digit. -/
def digitValue (c : Char) : Option Nat :=
  if '0' ≤ c ∧ c ≤ '9' then some (c.toNat - '0'.toNat)
  else if 'a' ≤ c ∧ c ≤ 'f' then some (c.toNat - 'a'.toNat + 10)
  else if 'A' ≤ c ∧ c ≤ 'F' then some (c.toNat - 'A'.toNat + 10)
  else none

/-- Digits in a base, onto the value read so far. -/
def readDigits (base : Nat) : List Char → Nat → Option Nat
  | [], v => some v
  | c :: cs, v =>
    match digitValue c with
    | some k => if k < base then readDigits base cs (v * base + k) else none
    | none => none

/-- A literal: `0x` and hexadecimal digits, or decimal digits, one or more of either, leading zeros included: R72 gives the
ranges and not how many digits a literal has. DESIGN CHOICE, log 15. -/
def readNumber (w : String) : Option Nat :=
  match w.toList with
  | '0' :: 'x' :: c :: cs => readDigits 16 (c :: cs) 0
  | c :: cs => readDigits 10 (c :: cs) 0
  | [] => none

/-- A byte literal; "a literal outside 0..255 is refused by the assembler" (30_encoding.md R72). -/
def readByte (w : String) : Option Byte :=
  match readNumber w with
  | some n => if n < 256 then some (BitVec.ofNat 8 n) else none
  | none => none

/-- A settle literal: a value of `CFG.settle_units`, which has 16 bits (00_scope.md R9). -/
def readUnits (w : String) : Option Units :=
  match readNumber w with
  | some n => if n < 65536 then some (BitVec.ofNat 16 n) else none
  | none => none

/-- The bytes of a buffer after its first bracket, with the tokens after the last one. -/
def readBytes : List Token → Option (List Byte × List Token)
  | .word w :: .comma :: rest =>
    match readByte w, readBytes rest with
    | some b, some (bs, tail) => some (b :: bs, tail)
    | _, _ => none
  | .word w :: .rbracket :: tail => (readByte w).map (fun b => ([b], tail))
  | _ => none

/-- A buffer operand `[b0, ..., bN-1]`, `N` may be 0 (30_encoding.md R72). -/
def readBuffer : List Token → Option (List Byte × List Token)
  | .lbracket :: .rbracket :: tail => some ([], tail)
  | .lbracket :: rest => readBytes rest
  | _ => none

/-- The rest of a line: nothing (the default settle units), or `settle=d` (30_encoding.md R72). -/
def readSettle : List Token → Option Units
  | [] => some Config.defaultSettle
  | [.word k, .equals, .word d] => if k = "settle" then readUnits d else none
  | _ => none

/-- A sequence command's operands. -/
def readSequence (op : BitVec 4) (ts : List Token) : Option Request :=
  match readBuffer ts with
  | some (bs, tail) => (readSettle tail).map (requestOf op 0#8 bs)
  | none => none

/-- `CMD_B`'s operand. -/
def readCmdB : List Token → Option Request
  | .word w :: tail =>
    match readByte w, readSettle tail with
    | some b, some d => some (requestOf 0x2#4 b [] d)
    | _, _ => none
  | _ => none

/-- The operands of `WRITE`: a protocol letter, a comma and a buffer (30_encoding.md R73). -/
def readWrite : List Token → Option Request
  | .word p :: .comma :: rest =>
    if p = "A" then readSequence Proto.a.opcode rest
    else if p = "B" then readSequence Proto.b.opcode rest
    else if p = "C" then readSequence Proto.c.opcode rest
    else none
  | _ => none

/-- What the assembler makes of a line. -/
inductive Assembled where
  | command (r : Request)
  | blank
  | refused
  deriving DecidableEq, Repr

/-- The command of a line by its mnemonic or the source's name for it (30_encoding.md R71). -/
def readCommand (name : String) (ts : List Token) : Option Request :=
  if name = "WRITE_A" ∨ name = "write_protocol_a" then readSequence 0x1#4 ts
  else if name = "CMD_B" ∨ name = "send_protocol_b_command" then readCmdB ts
  else if name = "DATA_B" ∨ name = "send_protocol_b_data" then readSequence 0x3#4 ts
  else if name = "WRITE_C" ∨ name = "write_protocol_c" then readSequence 0x4#4 ts
  else if name = "WRITE" then readWrite ts
  else none

/-- One line of assembler text (30_encoding.md R72). -/
def assembleLine (line : String) : Assembled :=
  match lexLine line.toList [] with
  | some [] => .blank
  | some (.word name :: ts) =>
    match readCommand name ts with
    | some r => .command r
    | none => .refused
  | some _ => .refused
  | none => .refused

end Sys2Proof.Machine
end

