-- ==== Sys2Proof/Safety.lean ====
section
/-! DEFINITION. What counts as a safe run, in the terms the claims use: the invariant of the machine, runs of several
steps, the traces of whole commands, and what a host observes. -/

namespace Sys2Proof.Machine

/-! ## The invariant -/

/-- The mask and value are one of the six control writes of 30_encoding.md R74. -/
def isLineWrite (P : Params) (m v : Byte) : Bool :=
  decide ((m, v) ∈
    [(lineMask P .stb, lineMask P .stb), (lineMask P .stb, 0#8), (lineMask P .cs, 0#8), (lineMask P .a0, 0#8),
     (lineMask P .a0, lineMask P .a0), (lineMask P .aux, if P.auxActive then lineMask P .aux else 0#8)])

/-- An event the engine may emit: a control write is one of the six, a settle wait has at least one unit
(40_port_ops.md R86), and a status read has a byte exactly when it succeeded (10_state.md R35). -/
def Event.legal (P : Params) : Event → Bool
  | .wd _ _ => true
  | .rs (some _) .ok => true
  | .rs none (.err _) => true
  | .rs (some _) (.err _) => false
  | .rs none .ok => false
  | .sc m v _ => isLineWrite P m v
  | .settle d => d != 0#16

/-- The byte index fits the phase: 0 during mode setup, below `N` while a byte is placed and strobed
(10_state.md R31). -/
def State.indexFits (s : State) : Phase → Bool
  | .selCs | .selA0 | .selAux => s.idx == 0
  | .place | .poll | .stbHi | .stbLo => decide (s.idx < s.total)
  | .idle | .settle | .finished => false

/-- The accepted command's table has a row for the phase, and the index fits it. -/
def State.phaseFits (s : State) (p : Phase) : Bool := (s.row p).isSome && s.indexFits p

/-- What a settle wait may lead to. -/
def State.retFits (s : State) : Next → Bool
  | .phase p => s.phaseFits p
  | .byteDone => decide (s.idx < s.total)
  | .finish => s.total == 0 && s.idx == 0 && s.op.isSome

/-- The sequencer stands where a command can bring it (10_state.md R31 to R33, R38; 40_port_ops.md R87, R93). -/
def State.sequencerFits (s : State) : Bool :=
  match s.ph with
  | .idle => s.op == none && s.buf == [] && s.cfg == {}
  | .finished => s.op == none || decide (s.idx ≤ s.total)
  | .settle => s.cnt != 0#16 && decide (s.cnt ≤ s.settleUnits) &&
      (match s.ret with
       | some n => s.retFits n
       | none => false)
  | .selCs => s.phaseFits .selCs
  | .selA0 => s.phaseFits .selA0
  | .selAux => s.phaseFits .selAux
  | .place => s.phaseFits .place
  | .poll => s.phaseFits .poll
  | .stbHi => s.phaseFits .stbHi
  | .stbLo => s.phaseFits .stbLo

/-- The invariant of the machine: the port registers are in canonical form, every event of the trace is one the engine
may emit, and the sequencer stands where a command can bring it. -/
structure State.Inv (s : State) : Prop where
  data_wf : s.data.wf = true
  control_wf : s.control.wf = true
  trace_legal : s.trace.all (Event.legal s.params) = true
  sequencer : s.sequencerFits = true

/-! ## Runs -/

/-- The state after `n` steps, if every one of them has a next state. -/
def steps : Nat → State → Option State
  | 0, s => some s
  | n + 1, s =>
    match step s with
    | .next t => steps n t
    | .fault _ => none
    | .refused _ => none

/-- The `n`-th answer the environment will give. -/
def nthDraw : Nat → Env → Draw
  | 0, e => (envNext e).1
  | n + 1, e => nthDraw n (envNext e).2

/-- The environment after `n` answers. -/
def envAfter : Nat → Env → Env
  | 0, e => e
  | n + 1, e => envAfter n (envNext e).2

/-- The host's next move leaves the step to the engine, or presents a command, or resets: no agent other than the
engine writes the port in it (20_memory.md R62). -/
def State.portIsEngines (s : State) : Bool :=
  match s.host with
  | .otherWritesData _ :: _ => false
  | .otherWritesControl _ _ :: _ => false
  | _ => true

/-! ## What is observed -/

/-- The observation of a command: the trace, `RESULT`, and the final values of `DATA` and `CONTROL`
(10_state.md R36). -/
def State.observation (s : State) : List Event × Result × PortReg × PortReg := (s.trace, s.result, s.data, s.control)

/-- The outcome of the access of an event; a settle wait cannot fail (60_exceptions.md R128). -/
def Event.outcome : Event → PortOutcome
  | .wd _ o => o
  | .rs _ o => o
  | .sc _ _ o => o
  | .settle _ => .ok

/-- The event is a port access, not a settle wait. -/
def Event.isAccess : Event → Bool
  | .wd _ _ | .rs _ _ | .sc _ _ _ => true
  | .settle _ => false

/-- A successful data write. -/
def Event.isDataWrite : Event → Bool
  | .wd _ .ok => true
  | .wd _ (.err _) | .rs _ _ | .sc _ _ _ | .settle _ => false

/-- A successful status read. -/
def Event.isStatusRead : Event → Bool
  | .rs _ .ok => true
  | .rs _ (.err _) | .wd _ _ | .sc _ _ _ | .settle _ => false

/-- A successful control write of line `L` to `b`. -/
def Event.isLineWrite (P : Params) (L : Line) (b : Bool) (e : Event) : Bool :=
  e == .sc (lineMask P L) (lineValue P L b) .ok

/-- A settle wait. -/
def Event.isSettle : Event → Bool
  | .settle _ => true
  | .wd _ _ | .rs _ _ | .sc _ _ _ => false

/-- The bytes fully strobed: the successful writes of the strobe line to 0 in a trace (60_exceptions.md R131). -/
def strobedBytes (P : Params) (tr : List Event) : Nat := tr.countP (Event.isLineWrite P .stb false)

/-- The bytes the sequencer has finished: `idx`, and one more in the settle wait after a strobe's low write, where
`byte_done` has not yet run (40_port_ops.md R91). -/
def State.bytesDone (s : State) : Nat :=
  match s.ph, s.ret with
  | .settle, some .byteDone => s.idx + 1
  | _, _ => s.idx

/-- The lines a command writes (10_state.md R28). -/
def protocolLines : Command → List Line
  | .writeA => [.stb]
  | .cmdB _ => [.cs, .a0, .stb]
  | .dataB => [.cs, .a0, .stb]
  | .writeC => [.aux, .stb]

/-- A successful data or control write. -/
def Event.isWrite : Event → Bool
  | .wd _ .ok | .sc _ _ .ok => true
  | .wd _ (.err _) | .sc _ _ (.err _) | .rs _ _ | .settle _ => false

/-- The next event is the settle wait of `d` units. -/
def startsWithSettle (d : Units) : List Event → Bool
  | .settle k :: _ => k == d
  | _ => false

/-- Every successful write of a trace is followed at once by its settle wait of `d` units (40_port_ops.md R87). -/
def writesSettled (d : Units) : List Event → Bool
  | [] => true
  | e :: es => (!e.isWrite || startsWithSettle d es) && writesSettled d es

/-- Errors are precise (60_exceptions.md R134): every event before the last has the outcome ok, a failed last event means
that the command has ended with that error, and where the running command has a settle wait (Protocols B and C with
`settle_units` not 0) every successful write of the trace has its settle wait after it. -/
structure State.Precise (s : State) : Prop where
  earlier_ok : ∀ e ∈ s.trace.dropLast, e.outcome = .ok
  last_error : ∀ e k, s.trace.getLast? = some e → e.outcome = .err k →
    (s.ph = .finished ∨ s.ph = .idle) ∧ s.result = portErrorResult k
  writes_settled : s.settleUnits ≠ 0#16 → writesSettled s.settleUnits s.trace = true

/-- While a command runs, the bytes strobed in the trace are the bytes the sequencer has finished
(60_exceptions.md R131). -/
def State.StrobesCounted (s : State) : Prop :=
  s.op.isSome = true → strobedBytes s.params s.trace = s.bytesDone

/-- The sequencer stands between the placing of a byte and the end of its strobe pulse. -/
def State.strobing (s : State) : Bool :=
  match s.ph, s.ret with
  | .poll, _ | .stbHi, _ | .stbLo, _ => true
  | .settle, some (.phase .poll) | .settle, some (.phase .stbHi) | .settle, some (.phase .stbLo)
  | .settle, some .byteDone => true
  | _, _ => false

/-- `DATA` holds the current byte from its placing to the end of its strobe pulse (70_reset_and_hazards.md R152). -/
def State.HoldsByte (s : State) : Prop :=
  s.strobing = true → ∀ b, s.currentByte = some b → s.data = PortReg.write b

/-! ## The traces of whole commands -/

/-- `T`: `SETTLE d` when `d > 0`, nothing when `d = 0` (42_protocol_b.md R109). -/
def settled (d : Units) : List Event := if d = 0#16 then [] else [.settle d]

/-- A successful write of a line and its settle wait. -/
def lineThenSettle (P : Params) (d : Units) (L : Line) (b : Bool) : List Event :=
  .sc (lineMask P L) (lineValue P L b) .ok :: settled d

/-- `H(b)`: the byte placed and strobed, each write with its settle wait (42_protocol_b.md R114). -/
def strobedByte (P : Params) (d : Units) (b : Byte) : List Event :=
  .wd b .ok :: settled d ++ lineThenSettle P d .stb true ++ lineThenSettle P d .stb false

/-- The trace of a `CMD_B b` that ends `OK` (42_protocol_b.md R109). -/
def cmdBTrace (P : Params) (d : Units) (b : Byte) : List Event :=
  lineThenSettle P d .cs false ++ lineThenSettle P d .a0 false ++ strobedByte P d b

/-- The trace of a `DATA_B` that ends `OK` (42_protocol_b.md R114). -/
def dataBTrace (P : Params) (d : Units) (bs : List Byte) : List Event :=
  lineThenSettle P d .cs false ++ lineThenSettle P d .a0 true ++ bs.flatMap (strobedByte P d)

/-- The trace of a `WRITE_C` that ends `OK` (43_protocol_c.md R121). -/
def writeCTrace (P : Params) (d : Units) (bs : List Byte) : List Event :=
  lineThenSettle P d .aux P.auxActive ++ bs.flatMap (strobedByte P d)

/-- `G(b)` of 41_protocol_a.md R102: the byte placed, the busy reads, the read that is not busy, the pulse. -/
def polledByte (P : Params) (b : Byte) (busyReads : List Byte) (last : Byte) : List Event :=
  .wd b .ok :: busyReads.map (fun x => .rs (some x) .ok) ++
    [.rs (some last) .ok, .sc (lineMask P .stb) (lineMask P .stb) .ok, .sc (lineMask P .stb) 0#8 .ok]

/-- The environment serves a `WRITE_A` that polls as often as `polls` says: for each byte its accesses succeed, its first
`c` status reads show busy, each with a byte of its own, and the next one does not (41_protocol_a.md R101). -/
def servesPolls (P : Params) : List Nat → Env → Prop
  | [], _ => True
  | c :: cs, e =>
    (∀ j, j < c + 4 → (nthDraw j e).outcome = .ok) ∧ (∀ j, j < c → busy P (nthDraw (j + 1) e).status = true) ∧
      busy P (nthDraw (c + 1) e).status = false ∧ servesPolls P cs (envAfter (c + 4) e)

/-- The trace of a `WRITE_A` in an environment that serves it with `polls`: the bytes placed, and the status bytes the
environment answered. -/
def servedTrace (P : Params) : List Byte → List Nat → Env → List Event
  | b :: bs, c :: cs, e =>
    polledByte P b ((List.range c).map (fun j => (nthDraw (j + 1) e).status)) (nthDraw (c + 1) e).status ++
      servedTrace P bs cs (envAfter (c + 4) e)
  | [], _, _ => []
  | _ :: _, [], _ => []

/-- The language `G(b0) ... G(bN-1)` of the traces of a `WRITE_A` that ends `OK` (41_protocol_a.md R102). -/
inductive WriteATrace (P : Params) : List Byte → List Event → Prop where
  | nil : WriteATrace P [] []
  | cons (b : Byte) (bs : List Byte) (busyReads : List Byte) (last : Byte) (rest : List Event) :
      (∀ x ∈ busyReads, busy P x = true) → busy P last = false → WriteATrace P bs rest →
      WriteATrace P (b :: bs) (polledByte P b busyReads last ++ rest)

end Sys2Proof.Machine
end

