-- ==== Sys2Proof/Certificates/Slice0/Obligations.lean ====
section
/-! DEFINITION. The statements for the provers. Each docstring names the rules of spec/ it comes from; a statement that
rests on a choice of the model names its log entry. -/

open Sys2Proof Sys2Proof.Machine

/-! ## Encoding -/

/-- The words of 30_encoding.md R82 (whose encodings are "all of it the spec's choice", R81) decode to their
instructions, and the encoder gives them. -/
def Obligations.ExampleWordsDecode : Prop :=
  decode (.command 0x1000#16) = .instr .writeA ∧ decode (.command 0x201F#16) = .instr (.cmdB 0x1F#8) ∧
  decode (.command 0x3000#16) = .instr .dataB ∧ decode (.command 0x4000#16) = .instr .writeC ∧
  decode (.microOp 0x10000041#32) = .instr (.wd 0x41#8) ∧ decode (.microOp 0x20000000#32) = .instr .rs ∧
  decode (.microOp 0x30000101#32) = .instr (.sc 0x01#8 0x01#8) ∧
  decode (.microOp 0x30000100#32) = .instr (.sc 0x01#8 0x00#8) ∧
  decode (.microOp 0x30000800#32) = .instr (.sc 0x08#8 0x00#8) ∧
  decode (.microOp 0x30000202#32) = .instr (.sc 0x02#8 0x02#8) ∧
  decode (.microOp 0x40000003#32) = .instr (.settle 3#16) ∧
  encode (.cmdB 0x1F#8) = .command 0x201F#16 ∧ encode (.sc 0x02#8 0x02#8) = .microOp 0x30000202#32

/-- Decode and encode agree for every instruction whose operands the encoding admits, and every instruction that is
well formed under some parameters is among them. -/
def Obligations.DecodeOfEncode : Prop :=
  (∀ i : Instr, i.encodable = true → decode (encode i) = .instr i) ∧
  (∀ (P : Params) (i : Instr), i.wf P = true → i.encodable = true)

/-- Each word has at most one meaning: a word that decodes is the word of its instruction, so no bit of it is ignored
(reserved bits are 0). -/
def Obligations.EncodeOfDecode : Prop :=
  ∀ (c : CodeWord) (i : Instr), decode c = .instr i → encode i = c ∧ i.encodable = true

/-- 30_encoding.md R69: the decoding of every 16-bit word, test by test (the spec's own choice D12). -/
def Obligations.CommandDecoding : Prop :=
  ∀ (w : BitVec 16),
    (w.extractLsb' 8 4 ≠ 0#4 → ∃ why, decodeCommand w = .rejected why) ∧
    (w.extractLsb' 8 4 = 0#4 →
      (w.extractLsb' 12 4 = 0x1#4 → w.extractLsb' 0 8 = 0#8 → decodeCommand w = .instr .writeA) ∧
      (w.extractLsb' 12 4 = 0x2#4 → decodeCommand w = .instr (.cmdB (w.extractLsb' 0 8))) ∧
      (w.extractLsb' 12 4 = 0x3#4 → w.extractLsb' 0 8 = 0#8 → decodeCommand w = .instr .dataB) ∧
      (w.extractLsb' 12 4 = 0x4#4 → w.extractLsb' 0 8 = 0#8 → decodeCommand w = .instr .writeC) ∧
      (¬(w.extractLsb' 12 4 = 0x1#4 ∧ w.extractLsb' 0 8 = 0#8) → w.extractLsb' 12 4 ≠ 0x2#4 →
        ¬(w.extractLsb' 12 4 = 0x3#4 ∧ w.extractLsb' 0 8 = 0#8) →
        ¬(w.extractLsb' 12 4 = 0x4#4 ∧ w.extractLsb' 0 8 = 0#8) → ∃ why, decodeCommand w = .rejected why))

/-- 30_encoding.md R68: exactly the words with a reserved opcode, a nonzero `RSV`, or an immediate outside `CMD_B` are
illegal. -/
def Obligations.IllegalCommandWords : Prop :=
  ∀ (w : BitVec 16),
    (∃ why, decodeCommand w = .rejected why) ↔
      (w.extractLsb' 12 4 = 0#4 ∨ 5 ≤ (w.extractLsb' 12 4).toNat ∨ w.extractLsb' 8 4 ≠ 0#4 ∨
        (w.extractLsb' 12 4 ≠ 2#4 ∧ w.extractLsb' 0 8 ≠ 0#8))

/-- The rows of opcode_table.json: a word that meets a row's mask and match decodes to that row's instruction with the
operand bits the row names; an `SC` word does exactly when its mask has one bit and its value lies in it
(30_encoding.md R79). -/
def Obligations.OpcodeTableRows : Prop :=
  (∀ w : BitVec 16, w &&& 0xFFFF#16 = 0x1000#16 → decodeTableWord 16 w.toNat = some .writeA) ∧
  (∀ w : BitVec 16, w &&& 0xFF00#16 = 0x2000#16 →
    decodeTableWord 16 w.toNat = some (.cmdB (w.extractLsb' 0 8))) ∧
  (∀ w : BitVec 16, w &&& 0xFFFF#16 = 0x3000#16 → decodeTableWord 16 w.toNat = some .dataB) ∧
  (∀ w : BitVec 16, w &&& 0xFFFF#16 = 0x4000#16 → decodeTableWord 16 w.toNat = some .writeC) ∧
  (∀ w : BitVec 32, w &&& 0xFFFFFF00#32 = 0x10000000#32 →
    decodeTableWord 32 w.toNat = some (.wd (w.extractLsb' 0 8))) ∧
  (∀ w : BitVec 32, w &&& 0xFFFFFFFF#32 = 0x20000000#32 → decodeTableWord 32 w.toNat = some .rs) ∧
  (∀ w : BitVec 32, w &&& 0xFFFF0000#32 = 0x30000000#32 →
    ((∃ k : Fin 8, w.extractLsb' 8 8 = bitMask k) → w.extractLsb' 0 8 &&& ~~~(w.extractLsb' 8 8) = 0#8 →
      decodeTableWord 32 w.toNat = some (.sc (w.extractLsb' 8 8) (w.extractLsb' 0 8))) ∧
    (¬(∃ k : Fin 8, w.extractLsb' 8 8 = bitMask k) ∨ w.extractLsb' 0 8 &&& ~~~(w.extractLsb' 8 8) ≠ 0#8 →
      decodeTableWord 32 w.toNat = none)) ∧
  (∀ w : BitVec 32, w &&& 0xFFFF0000#32 = 0x40000000#32 →
    decodeTableWord 32 w.toNat = some (.settle (w.extractLsb' 0 16)))

/-- 30_encoding.md R79: the trace reader rejects exactly the reserved micro-operation words, and the engine never emits
one (the spec's own choice D16). -/
def Obligations.ReservedMicroOpWords : Prop :=
  (∀ (P : Params) (w : BitVec 32),
    (∃ why, readTraceWord P w = .rejected why) ↔
      (w.extractLsb' 28 4 = 0#4 ∨ 5 ≤ (w.extractLsb' 28 4).toNat ∨ w.extractLsb' 16 12 ≠ 0#12 ∨
        ((w.extractLsb' 28 4 = 1#4 ∨ w.extractLsb' 28 4 = 2#4) ∧ w.extractLsb' 8 8 ≠ 0#8) ∨
        (w.extractLsb' 28 4 = 2#4 ∧ w.extractLsb' 0 8 ≠ 0#8) ∨
        (w.extractLsb' 28 4 = 3#4 ∧
          (w.extractLsb' 0 8 &&& ~~~(w.extractLsb' 8 8) ≠ 0#8 ∨
            ¬∃ L : Line, w.extractLsb' 8 8 = lineMask P L)))) ∧
  (∀ s t : State, s.Inv → step s = .next t →
    ∀ e ∈ t.trace, ∃ i, readTraceWord t.params e.word = .instr i ∧ i = e.instr)

/-- 10_state.md R23, with the legal values of 00_scope.md R8: the check refuses exactly the records whose line map is
not four distinct bits in 0..7 or that hold another illegal value, and a record it accepts keeps its values. -/
def Obligations.ParameterCheck : Prop :=
  ∀ r : RawParams,
    ((r.check).isSome = true ↔
      (r.stbBit < 8 ∧ r.csBit < 8 ∧ r.a0Bit < 8 ∧ r.auxBit < 8) ∧
      (r.stbBit ≠ r.csBit ∧ r.stbBit ≠ r.a0Bit ∧ r.stbBit ≠ r.auxBit ∧ r.csBit ≠ r.a0Bit ∧ r.csBit ≠ r.auxBit ∧
        r.a0Bit ≠ r.auxBit) ∧
      r.busyBit < 8 ∧ r.busyActive < 2 ∧ r.auxActive < 2 ∧ r.maxLen ≠ some 0 ∧ 0 < r.unitCycles) ∧
    (∀ P, r.check = some P →
      P.stbBit.val = r.stbBit ∧ P.csBit.val = r.csBit ∧ P.a0Bit.val = r.a0Bit ∧ P.auxBit.val = r.auxBit ∧
      P.busyBit.val = r.busyBit ∧ P.busyActive = (r.busyActive == 1) ∧ P.auxActive = (r.auxActive == 1) ∧
      P.maxLen = r.maxLen ∧ P.unitCycles = r.unitCycles)

/-! ## Reset and the host interface -/

/-- 70_reset_and_hazards.md R146 and the table of 10_state.md R40: the engine's own state after reset; no bit of `DATA`
or `CONTROL` is known. -/
def Obligations.ResetValues : Prop :=
  State.reset.ph = .idle ∧ State.reset.op = none ∧ State.reset.idx = 0 ∧ State.reset.ret = none ∧
  State.reset.cnt = 0#16 ∧ State.reset.result = .ok ∧ State.reset.trace = [] ∧
  ∀ k : Fin 8, State.reset.data.bit k = none ∧ State.reset.control.bit k = none

/-- 70_reset_and_hazards.md R146: a reset in any phase puts the engine's own state in the reset values, performs no port
access and leaves `DATA` and `CONTROL`; and in `IDLE` the engine starts a command by acceptance only. -/
def Obligations.ResetEvent : Prop :=
  (∀ (s : State) (rest : List HostMove), s.host = .reset :: rest →
    ∃ t, step s = .next t ∧ t.ph = .idle ∧ t.op = none ∧ t.idx = 0 ∧ t.ret = none ∧ t.cnt = 0#16 ∧ t.result = .ok ∧
      t.trace = [] ∧ t.data = s.data ∧ t.control = s.control ∧ t.env = s.env ∧ t.params = s.params ∧ t.host = rest) ∧
  (∀ s t : State, s.ph = .idle → (∀ r rest, s.host ≠ .issue r :: rest) → step s = .next t → t.ph = .idle)

/-- The reset state meets the invariant (10_state.md R39, R40 for the engine's own state and the port registers, in the
form of log 3). That the sampled buffer and `CFG`, which the invariant has empty and default in `IDLE`, are so at reset is
the model's choice, log 7. -/
def Obligations.InvariantAtReset : Prop := State.reset.Inv

/-- Every step keeps the invariant: canonical port registers, only legal events in the trace, and a sequencer that
stands where a command can bring it (`idx` within `N`, a settle counter between 1 and the settle units in `SETTLE`,
no command in `IDLE`). -/
def Obligations.EveryStepKeepsInvariant : Prop := ∀ s t : State, s.Inv → step s = .next t → t.Inv

/-- From a state of the invariant a step never faults, and it is refused only where the spec refuses: host misuse while
a command runs (60_exceptions.md R141, R142), or a buffer longer than `MAX_LEN` (30_encoding.md R66). -/
def Obligations.OnlyMisuseIsRefused : Prop :=
  ∀ s : State, s.Inv →
    (∃ t, step s = .next t) ∨
    (s.ph ≠ .idle ∧
      ((∃ r rest, s.host = .issue r :: rest ∧ step s = .refused .commandWhileBusy) ∨
       (∃ b rest, s.host = .changeBuffer b :: rest ∧ step s = .refused .bufferChanged) ∨
       (∃ c rest, s.host = .changeConfig c :: rest ∧ step s = .refused .configChanged) ∨
       (∃ v rest, s.host = .otherWritesData v :: rest ∧ step s = .refused .portShared) ∨
       (∃ m v rest, s.host = .otherWritesControl m v :: rest ∧ step s = .refused .portShared))) ∨
    (s.ph = .idle ∧ ∃ r rest k, s.host = .issue r :: rest ∧ s.params.maxLen = some k ∧ k < r.buf.length ∧
      step s = .refused .bufferTooLong)

/-- A step runs the decoded instruction: a legal command word presented in `IDLE` is run by its meaning, with the
buffer and `CFG` sampled (60_exceptions.md R139; where the sampling stands is log 10). -/
def Obligations.PresentedCommandRuns : Prop :=
  ∀ (s : State) (r : Request) (rest : List HostMove) (i : Instr),
    s.ph = .idle → s.host = .issue r :: rest → decodeCommand r.word = .instr i →
    step s = exec i { s with buf := r.buf, cfg := r.cfg, host := rest }

/-- A step runs the decoded instruction: the word placed by `withFetchWord` is what the next step runs, and the port,
the trace, `RESULT` and the environment are untouched by the placing (log 5). After a micro-operation the sequencer
proceeds in the same step. -/
def Obligations.FetchedWordRuns : Prop :=
  (∀ (s : State) (w : Nat) (i : Instr), decodeTableWord 16 w = some i →
    step (s.withFetchWord 16 w) = exec i { s with ph := .idle, buf := [], cfg := {} }) ∧
  (∀ (s : State) (w : Nat) (i : Instr), decodeTableWord 32 w = some i →
    ∃ u t : State, u = { s.withFetchWord 32 w with host := s.host } ∧ exec i u = .next t ∧
      step (s.withFetchWord 32 w) = .next (match i with | .settle _ => t | _ => t.proceed) ∧
      u.data = s.data ∧ u.control = s.control ∧ u.trace = s.trace ∧ u.result = s.result ∧ u.env = s.env)

/-- A step of the sequencer runs the micro-operation its phase issues, and then, in the same step, nothing after an
abort, the busy decision after a status read, the settle wait after a write (40_port_ops.md R87, R88, R92). -/
def Obligations.SequencerRunsIssuedAccess : Prop :=
  ∀ (s : State) (i : Instr), s.host = [] → s.issue = .access i →
    ∃ t, exec i s = .next t ∧
      step s = .next
        (if t.ph = .finished then t else if t.ph = .poll then t.pollDecision else settleWait t.settleUnits t)

/-- 60_exceptions.md R127: an illegal command word is accepted, performs no port access, emits an empty trace, sets
`RESULT` to `ILLEGAL` and returns to `IDLE`: a run of some number of steps does so, with the trace empty and `DATA` and
`CONTROL` unchanged after each of its steps, so that no access happened in it (every access is in the trace). -/
def Obligations.IllegalWordAnswered : Prop :=
  ∀ (s : State) (r : Request) (why : Reject),
    s.ph = .idle → s.host = [.issue r] → decodeCommand r.word = .rejected why →
    ∃ (n : Nat) (u : State), 0 < n ∧ steps n s = some u ∧ u.ph = .idle ∧ u.result = .illegal ∧
      ∀ (m : Nat) (v : State), 0 < m → m ≤ n → steps m s = some v →
        v.trace = [] ∧ v.data = s.data ∧ v.control = s.control ∧ v.env = s.env ∧ v.params = s.params

/-- 60_exceptions.md R141: while a command runs, a command presented, a change of the buffer or of `CFG`, and a write of
the port by an agent other than the engine are refused. That the last has no move either is the model's reading of R141
(d) and R142 (log 14); the names of the refusals are log 4. -/
def Obligations.MisuseWhileRunningIsRefused : Prop :=
  ∀ (s : State) (rest : List HostMove), s.ph ≠ .idle →
    (∀ r, s.host = .issue r :: rest → step s = .refused .commandWhileBusy) ∧
    (∀ b, s.host = .changeBuffer b :: rest → step s = .refused .bufferChanged) ∧
    (∀ c, s.host = .changeConfig c :: rest → step s = .refused .configChanged) ∧
    (∀ v, s.host = .otherWritesData v :: rest → step s = .refused .portShared) ∧
    (∀ m v, s.host = .otherWritesControl m v :: rest → step s = .refused .portShared)

/-- `END` returns to `IDLE` in one step; `RESULT`, the trace and the port registers stay for the host, and neither the
command nor its sampled inputs survive (40_port_ops.md R92, 60_exceptions.md R135, 10_state.md R30). That the step writes
no `RESULT`, so that an error stays, is the model's reading of the `END` rows, log 6; what else stays in the sequencer is
log 7. -/
def Obligations.EndReturnsToIdle : Prop :=
  ∀ s : State, s.host = [] → s.ph = .finished →
    step s = .next { s with ph := .idle, op := none, buf := [], cfg := { settleUnits := 0#16 } }

/-! ## The commands -/

/-- Acceptance of the four commands (60_exceptions.md R139; 41_protocol_a.md R101, 42_protocol_b.md R108, R113,
43_protocol_c.md R120): in `IDLE`, with a buffer the implementation accepts, each enters the first phase of its table
with the sequencer cleared and nothing else changed. `CMD_B` has no premise on the buffer (30_encoding.md R66). -/
def Obligations.CommandsAreAccepted : Prop :=
  ∀ s : State, s.ph = .idle →
    (∀ b, exec (.cmdB b) s = .next
      { s with op := some (.cmdB b), idx := 0, cnt := 0#16, ret := none, trace := [], ph := .selCs }) ∧
    ((∀ k, s.params.maxLen = some k → s.buf.length ≤ k) →
      exec .dataB s = .next { s with op := some .dataB, idx := 0, cnt := 0#16, ret := none, trace := [], ph := .selCs } ∧
      exec .writeC s = .next
        { s with op := some .writeC, idx := 0, cnt := 0#16, ret := none, trace := [], ph := .selAux } ∧
      (0 < s.buf.length → exec .writeA s = .next
        { s with op := some .writeA, idx := 0, cnt := 0#16, ret := none, trace := [], ph := .place }) ∧
      (s.buf.length = 0 → exec .writeA s = .next
        { s with op := some .writeA, idx := 0, cnt := 0#16, ret := none, trace := [], ph := .finished, result := .ok }))

/-- Where a command is refused: any command while another runs (60_exceptions.md R141), and in `IDLE` a sequence command
whose buffer is longer than `MAX_LEN` (30_encoding.md R66; that `CMD_B` is not among them is log 11). -/
def Obligations.CommandsAreRefused : Prop :=
  (∀ (s : State), s.ph ≠ .idle →
    exec .writeA s = .refused .commandWhileBusy ∧ (∀ b, exec (.cmdB b) s = .refused .commandWhileBusy) ∧
    exec .dataB s = .refused .commandWhileBusy ∧ exec .writeC s = .refused .commandWhileBusy) ∧
  (∀ (s : State) (k : Nat), s.ph = .idle → s.params.maxLen = some k → k < s.buf.length →
    exec .writeA s = .refused .bufferTooLong ∧ exec .dataB s = .refused .bufferTooLong ∧
    exec .writeC s = .refused .bufferTooLong)

/-- 41_protocol_a.md R103: `WRITE_A` with `N = 0` performs no port access, emits an empty trace, sets `RESULT` to `OK`,
leaves `DATA` and `CONTROL`, and returns. -/
def Obligations.EmptyWriteA : Prop :=
  ∀ s : State, s.ph = .idle → s.host = [] → s.buf = [] →
    ∃ t u, exec .writeA s = .next t ∧ step t = .next u ∧ u.ph = .idle ∧ u.result = .ok ∧ u.trace = [] ∧
      u.data = s.data ∧ u.control = s.control ∧ u.env = s.env

/-! ## The micro-operations -/

/-- 40_port_ops.md R83 with 20_memory.md R48: the word of `WD v`, and for every answer of the environment
(`(envNext s.env).1`) its effect: on outcome ok the write, on outcome err the error with the effect all or nothing
(60_exceptions.md R129). Nothing else of the state changes. -/
def Obligations.WriteDataResult : Prop :=
  ∀ (s : State) (v : Byte),
    encode (.wd v) = .microOp (0x1#4 ++ 0x000#12 ++ 0x00#8 ++ v) ∧
    ((envNext s.env).1.outcome = .ok →
      exec (.wd v) s = .next
        { s with data := { val := v, known := 0xFF#8 }, trace := s.trace ++ [.wd v .ok], env := (envNext s.env).2 }) ∧
    (∀ k, (envNext s.env).1.outcome = .err k →
      exec (.wd v) s = .next
        { s with
          data := if (envNext s.env).1.applied then { val := v, known := 0xFF#8 } else s.data
          trace := s.trace ++ [.wd v (.err k)]
          env := (envNext s.env).2
          result := match k with | .unavailable => .portUnavailable | .ioFailure => .portIoFailure
          ph := .finished })

/-- 40_port_ops.md R84 with 20_memory.md R50: the word of `RS`, the byte it returns standing in its event, and on
outcome err no byte and the error. No register of the port changes. -/
def Obligations.ReadStatusResult : Prop :=
  ∀ (s : State),
    encode .rs = .microOp 0x20000000#32 ∧
    ((envNext s.env).1.outcome = .ok →
      exec .rs s = .next
        { s with trace := s.trace ++ [.rs (some (envNext s.env).1.status) .ok], env := (envNext s.env).2 }) ∧
    (∀ k, (envNext s.env).1.outcome = .err k →
      exec .rs s = .next
        { s with
          trace := s.trace ++ [.rs none (.err k)]
          env := (envNext s.env).2
          result := match k with | .unavailable => .portUnavailable | .ioFailure => .portIoFailure
          ph := .finished })

/-- 40_port_ops.md R85 with 20_memory.md R49: the word of `SC m,v`; the masked bits take the value's bits and become
known, the others stay, known or unknown; the event holds `v & m`; on outcome err the error with the effect all or
nothing. Nothing else of the state changes. -/
def Obligations.SetControlResult : Prop :=
  ∀ (s : State) (m v : Byte),
    encode (.sc m v) = .microOp (0x3#4 ++ 0x000#12 ++ m ++ (v &&& m)) ∧
    ∃ c : PortReg,
      (∀ i : Fin 8, c.bit i = if m.getLsbD i.val then some (v.getLsbD i.val) else s.control.bit i) ∧
      (s.control.wf = true → c.wf = true) ∧
      ((envNext s.env).1.outcome = .ok →
        exec (.sc m v) s = .next
          { s with control := c, trace := s.trace ++ [.sc m (v &&& m) .ok], env := (envNext s.env).2 }) ∧
      (∀ k, (envNext s.env).1.outcome = .err k →
        exec (.sc m v) s = .next
          { s with
            control := if (envNext s.env).1.applied then c else s.control
            trace := s.trace ++ [.sc m (v &&& m) (.err k)]
            env := (envNext s.env).2
            result := match k with | .unavailable => .portUnavailable | .ioFailure => .portIoFailure
            ph := .finished })

/-- 40_port_ops.md R86 with R87: `SETTLE d` with `d = 0` emits nothing and goes on; with `d > 0` it emits its event,
loads `cnt` and waits, `ret` holding what follows the phase it stands in. It draws nothing and touches no port register.
(What follows outside a write phase is log 12.) -/
def Obligations.SettleResult : Prop :=
  ∀ (s : State) (d : Units),
    (d = 0#16 → exec (.settle d) s = .next (s.enter s.following)) ∧
    (d ≠ 0#16 → exec (.settle d) s = .next
      { s with trace := s.trace ++ [.settle d], cnt := d, ret := some s.following, ph := .settle }) ∧
    (∀ t, exec (.settle d) s = .next t →
      t.data = s.data ∧ t.control = s.control ∧ t.env = s.env ∧ t.params = s.params ∧ t.op = s.op ∧ t.buf = s.buf ∧
      t.cfg = s.cfg ∧ t.host = s.host)

/-- The laws of the masked control write (40_port_ops.md R94, derived there from 20_memory.md R49), on the register with
its known bits. -/
def Obligations.MaskedWriteLaws : Prop :=
  ∀ (c : PortReg) (m v m1 v1 m2 v2 : Byte),
    c.writeMasked 0#8 v = c ∧
    (c.writeMasked m v1).writeMasked m v2 = c.writeMasked m v2 ∧
    (m1 &&& m2 = 0#8 → (c.writeMasked m1 v1).writeMasked m2 v2 = (c.writeMasked m2 v2).writeMasked m1 v1) ∧
    (∀ i : Fin 8, (c.writeMasked m v).bit i = if m.getLsbD i.val then some (v.getLsbD i.val) else c.bit i) ∧
    c.writeMasked m (v &&& m) = c.writeMasked m v

/-- 10_state.md R26: the busy predicate is the busy bit against its active value; so no other bit matters to it (what
R27 says of the predicate). -/
def Obligations.BusyIsOneBit : Prop :=
  ∀ (P : Params) (a b : Byte),
    (busy P a = true ↔ a.getLsbD P.busyBit.val = P.busyActive) ∧
    (a.getLsbD P.busyBit.val = b.getLsbD P.busyBit.val → busy P a = busy P b)

/-! ## Steps of a command -/

/-- 60_exceptions.md R129: an access of any phase whose outcome is err ends the command in that step: the register
effect all or nothing, the event with its error, `RESULT` and `END`; no settle wait, no further access and no line
restored. -/
def Obligations.FailedAccessAborts : Prop :=
  ∀ (s : State) (i : Instr) (k : PortError),
    s.host = [] → s.issue = .access i → (envNext s.env).1.outcome = .err k →
    ∃ t, step s = .next t ∧ t.ph = .finished ∧ t.env = (envNext s.env).2 ∧
      t.result = (match k with | .unavailable => .portUnavailable | .ioFailure => .portIoFailure) ∧
      t.params = s.params ∧ t.op = s.op ∧ t.idx = s.idx ∧ t.ret = s.ret ∧ t.cnt = s.cnt ∧ t.buf = s.buf ∧
      t.cfg = s.cfg ∧ t.host = s.host ∧
      (∀ v, i = .wd v → t.trace = s.trace ++ [.wd v (.err k)] ∧ t.control = s.control ∧
        t.data = if (envNext s.env).1.applied then PortReg.write v else s.data) ∧
      (i = .rs → t.trace = s.trace ++ [.rs none (.err k)] ∧ t.control = s.control ∧ t.data = s.data) ∧
      (∀ m v, i = .sc m v → t.trace = s.trace ++ [.sc m (v &&& m) (.err k)] ∧ t.data = s.data ∧
        t.control = if (envNext s.env).1.applied then s.control.writeMasked m v else s.control)

/-- 40_port_ops.md R87: in Protocols B and C every successful write is followed by the settle wait of `settle_units`
before the next access, none when it is 0; Protocol A has none; a unit of the wait is one step, and the wait ends in
what follows the write (that `ret` holds `byte_done` after a strobe's low write is log 8). -/
def Obligations.SettleFollowsEveryWrite : Prop :=
  (∀ (s : State) (r : Row) (i : Instr), s.host = [] → s.row s.ph = some r → s.issue = .access i →
    r.action ≠ .readStatus → (envNext s.env).1.outcome = .ok →
    ∃ u, exec i s = .next u ∧
      (s.op = some .writeA ∨ s.cfg.settleUnits = 0#16 → step s = .next (u.enter r.next)) ∧
      (s.op ≠ some .writeA → s.cfg.settleUnits ≠ 0#16 → step s = .next
        { u with trace := u.trace ++ [.settle s.cfg.settleUnits], cnt := s.cfg.settleUnits, ret := some r.next,
                 ph := .settle })) ∧
  (∀ s : State, s.host = [] → s.issue = .access .rs → (envNext s.env).1.outcome = .ok →
    ∃ t, step s = .next t ∧ t.trace = s.trace ++ [.rs (some (envNext s.env).1.status) .ok] ∧ t.ph ≠ .settle) ∧
  (∀ (s : State) (n : Next), s.host = [] → s.ph = .settle → s.cnt ≠ 0#16 → s.ret = some n →
    step s = .next (if s.cnt - 1#16 = 0#16 then { s with cnt := 0#16 }.enter n else { s with cnt := s.cnt - 1#16 }))

/-- A settle wait ends after its `cnt` units (60_exceptions.md R133: "a settle wait ends after `d` units"), and nothing
but `cnt` has changed when it enters what follows (40_port_ops.md R86). -/
def Obligations.SettleWaitEnds : Prop :=
  ∀ (s : State) (n : Next), s.host = [] → s.ph = .settle → s.cnt ≠ 0#16 → s.ret = some n →
    (∀ j, j < s.cnt.toNat → steps j s = some { s with cnt := s.cnt - BitVec.ofNat 16 j }) ∧
    steps s.cnt.toNat s = some ({ s with cnt := 0#16 }.enter n)

/-- 40_port_ops.md R88: the poll follows the placing of the byte; it stays in `POLL` while the status read is busy and
goes to `STB_HI` on the first that is not; there is no bound, and a run that polls for ever is in the model. -/
def Obligations.BusyPoll : Prop :=
  (∀ s : State, s.host = [] → s.op = some .writeA → s.ph = .place → s.idx < s.buf.length →
    (envNext s.env).1.outcome = .ok → ∃ t, step s = .next t ∧ t.ph = .poll) ∧
  (∀ s : State, s.host = [] → s.op = some .writeA → s.ph = .poll → (envNext s.env).1.outcome = .ok →
    step s = .next
      { s with
        trace := s.trace ++ [.rs (some (envNext s.env).1.status) .ok]
        env := (envNext s.env).2
        ph := if (envNext s.env).1.status.getLsbD s.params.busyBit.val = s.params.busyActive then .poll else .stbHi }) ∧
  (∀ (s : State) (k : PortError), s.host = [] → s.op = some .writeA → s.ph = .poll →
    (envNext s.env).1.outcome = .err k →
    ∃ t, step s = .next t ∧ t.ph = .finished ∧ t.trace = s.trace ++ [.rs none (.err k)] ∧
      t.result = portErrorResult k) ∧
  (∃ s : State, s.Inv ∧ s.ph = .poll ∧ ∀ n, ∃ t, steps n s = some t ∧ t.ph = .poll)

/-- 41_protocol_a.md R105: a `WRITE_A` whose status reads all show busy stays in `POLL`, one `RS` after another, for as
long as they do; `RESULT` is not written. -/
def Obligations.BusyForeverHangs : Prop :=
  ∀ (n : Nat) (s : State), s.host = [] → s.op = some .writeA → s.ph = .poll →
    (∀ j, j < n → (nthDraw j s.env).outcome = .ok ∧ busy s.params (nthDraw j s.env).status = true) →
    ∃ t, steps n s = some t ∧ t.ph = .poll ∧ t.op = some .writeA ∧ t.idx = s.idx ∧ t.result = s.result ∧
      t.data = s.data ∧ t.control = s.control ∧
      t.trace = s.trace ++ (List.range n).map (fun j => .rs (some (nthDraw j s.env).status) .ok)

/-- `byte_done` (40_port_ops.md R91): after a byte's strobe pulse, and its settle wait, `idx` counts up and the
sequencer places the next byte or ends with `OK` (that the count happens after the wait is log 8). -/
def Obligations.ByteDone : Prop :=
  (∀ (s : State) (c : Command), s.host = [] → s.op = some c → s.ph = .stbLo → s.settleUnits = 0#16 →
    (envNext s.env).1.outcome = .ok →
    ∃ t, step s = .next t ∧ t.idx = s.idx + 1 ∧
      (s.idx + 1 < s.total → t.ph = .place ∧ t.result = s.result) ∧
      (s.total ≤ s.idx + 1 → t.ph = .finished ∧ t.result = .ok)) ∧
  (∀ s : State, s.host = [] → s.ph = .settle → s.ret = some .byteDone → s.cnt = 1#16 →
    ∃ t, step s = .next t ∧ t.idx = s.idx + 1 ∧ t.trace = s.trace ∧
      (s.idx + 1 < s.total → t.ph = .place ∧ t.result = s.result) ∧
      (s.total ≤ s.idx + 1 → t.ph = .finished ∧ t.result = .ok))

/-! ## Rules over every step -/

/-- 10_state.md R24 (derived there from R28, R29 and 20_memory.md R49): no step in which the port is the engine's changes
a bit of `CONTROL` outside the four lines. -/
def Obligations.OnlyLineBitsChange : Prop :=
  ∀ (s t : State) (k : Fin 8), s.portIsEngines = true → step s = .next t →
    k ≠ s.params.stbBit → k ≠ s.params.csBit → k ≠ s.params.a0Bit → k ≠ s.params.auxBit →
    t.control.bit k = s.control.bit k

/-- 41_protocol_a.md R104, 42_protocol_b.md R111, with the table of 10_state.md R28 for all four commands: in a run of a
command no line changes but those of its protocol, known or unknown, and only `WRITE_A` reads `STATUS`. -/
def Obligations.EachProtocolKeepsToItsLines : Prop :=
  ∀ (n : Nat) (s t : State) (c : Command), s.host = [] → s.op = some c → s.ph ≠ .idle → steps n s = some t →
    (∀ k : Fin 8, (∀ L ∈ protocolLines c, k ≠ s.params.lineBit L) → t.control.bit k = s.control.bit k) ∧
    (∃ evs, t.trace = s.trace ++ evs ∧ (c ≠ .writeA → ∀ b o, Event.rs b o ∉ evs) ∧
      ∀ m v o, Event.sc m v o ∈ evs → ∃ L ∈ protocolLines c, m = lineMask s.params L)

/-- 30_encoding.md R74 (derived there): every control write a step emits is one of the six (line, value) pairs; so CS is
never written to 1 and AUX never to its inactive value. -/
def Obligations.OnlySixControlWrites : Prop :=
  ∀ (s t : State), step s = .next t → ∀ m v o, Event.sc m v o ∈ t.trace →
    Event.sc m v o ∈ s.trace ∨
      (m, v) ∈ [(lineMask s.params .stb, lineMask s.params .stb), (lineMask s.params .stb, 0#8),
        (lineMask s.params .cs, 0#8), (lineMask s.params .a0, 0#8),
        (lineMask s.params .a0, lineMask s.params .a0),
        (lineMask s.params .aux, if s.params.auxActive then lineMask s.params .aux else 0#8)]

/-- One step performs at most one access, every access draws one answer and appears in the trace once, and nothing else
draws (40_port_ops.md R92, 20_memory.md R55). -/
def Obligations.OneAccessPerStep : Prop :=
  ∀ (s t : State), engineStep s = .next t →
    ∃ evs, t.trace = s.trace ++ evs ∧ evs.countP Event.isAccess ≤ 1 ∧
      t.env = envAfter (evs.countP Event.isAccess) s.env ∧ evs.length ≤ 2

/-- No step changes the parameters, and the host's moves are taken one at a time, in order. -/
def Obligations.ParametersNeverChange : Prop :=
  ∀ (s t : State), step s = .next t → t.params = s.params ∧ (t.host = s.host ∨ t.host = s.host.tail)

/-- Select lines stay asserted (42_protocol_b.md R117, 43_protocol_c.md R122): once CS reads 0, or AUX reads
`AUX_ACTIVE`, no step in which the port is the engine's changes it. -/
def Obligations.SelectsStayAsserted : Prop :=
  ∀ (s t : State), s.portIsEngines = true → step s = .next t →
    (s.control.bit s.params.csBit = some false → t.control.bit s.params.csBit = some false) ∧
    (s.control.bit s.params.auxBit = some s.params.auxActive →
      t.control.bit s.params.auxBit = some s.params.auxActive)

/-- Errors are precise (60_exceptions.md R134), as an invariant that every step keeps: every access before a failed one
has completed with outcome ok and, where the command has one, its settle wait; and nothing follows it in the command. -/
def Obligations.ErrorsArePrecise : Prop :=
  State.reset.Precise ∧ ∀ s t : State, s.Precise → step s = .next t → t.Precise

/-- The bytes fully strobed are the successful writes of the strobe line to 0 in the trace (60_exceptions.md R131,
derived there), as an invariant that every step keeps, aborts included. -/
def Obligations.StrobesAreCounted : Prop :=
  State.reset.StrobesCounted ∧ ∀ s t : State, s.StrobesCounted → step s = .next t → t.StrobesCounted

/-- Data hold (70_reset_and_hazards.md R152, derived there from R151), as an invariant that every step keeps: from the
placing of a byte to the end of its strobe pulse `DATA` holds it. -/
def Obligations.DataIsHeld : Prop :=
  State.reset.HoldsByte ∧ ∀ s t : State, s.HoldsByte → step s = .next t → t.HoldsByte

/-! ## Whole commands -/

/-- The traces and the end state of a `WRITE_A` that ends `OK` (41_protocol_a.md R102, R106, derived there from
R101). -/
def Obligations.WriteAWholeRun : Prop :=
  ∀ (n : Nat) (s u t : State), s.ph = .idle → s.host = [] → exec .writeA s = .next u → steps n u = some t →
    t.ph = .finished → t.result = .ok →
    WriteATrace s.params s.buf t.trace ∧
    (s.buf = [] → t.data = s.data ∧ t.control = s.control) ∧
    (∀ b, s.buf.getLast? = some b → t.data = PortReg.write b ∧ t.control.bit s.params.stbBit = some false) ∧
    (∀ k : Fin 8, k ≠ s.params.stbBit → t.control.bit k = s.control.bit k)

/-- The trace and the end state of a `CMD_B b` that ends `OK` (42_protocol_b.md R109, R110, derived there from
R108). -/
def Obligations.CmdBWholeRun : Prop :=
  ∀ (n : Nat) (s u t : State) (b : Byte), s.ph = .idle → s.host = [] → exec (.cmdB b) s = .next u →
    steps n u = some t → t.ph = .finished → t.result = .ok →
    t.trace = cmdBTrace s.params s.cfg.settleUnits b ∧ t.data = PortReg.write b ∧
    t.control.bit s.params.csBit = some false ∧ t.control.bit s.params.a0Bit = some false ∧
    t.control.bit s.params.stbBit = some false ∧
    (∀ k : Fin 8, k ≠ s.params.csBit → k ≠ s.params.a0Bit → k ≠ s.params.stbBit → t.control.bit k = s.control.bit k)

/-- The trace and the end state of a `DATA_B` that ends `OK` (42_protocol_b.md R114, derived there from R113, and R115,
R116, R117); with an empty buffer exactly the two select writes. -/
def Obligations.DataBWholeRun : Prop :=
  ∀ (n : Nat) (s u t : State), s.ph = .idle → s.host = [] → exec .dataB s = .next u → steps n u = some t →
    t.ph = .finished → t.result = .ok →
    t.trace = dataBTrace s.params s.cfg.settleUnits s.buf ∧
    t.control.bit s.params.csBit = some false ∧ t.control.bit s.params.a0Bit = some true ∧
    (s.buf = [] → t.data = s.data ∧ t.control.bit s.params.stbBit = s.control.bit s.params.stbBit) ∧
    (∀ b, s.buf.getLast? = some b → t.data = PortReg.write b ∧ t.control.bit s.params.stbBit = some false) ∧
    (∀ k : Fin 8, k ≠ s.params.csBit → k ≠ s.params.a0Bit → k ≠ s.params.stbBit → t.control.bit k = s.control.bit k)

/-- The trace and the end state of a `WRITE_C` that ends `OK` (43_protocol_c.md R121, R124, derived there from R120, and
R122, R123): AUX is asserted once, first, and left asserted; with an empty buffer that is all. -/
def Obligations.WriteCWholeRun : Prop :=
  ∀ (n : Nat) (s u t : State), s.ph = .idle → s.host = [] → exec .writeC s = .next u → steps n u = some t →
    t.ph = .finished → t.result = .ok →
    t.trace = writeCTrace s.params s.cfg.settleUnits s.buf ∧
    t.control.bit s.params.auxBit = some s.params.auxActive ∧
    (s.buf = [] → t.data = s.data ∧ t.control.bit s.params.stbBit = s.control.bit s.params.stbBit) ∧
    (∀ b, s.buf.getLast? = some b → t.data = PortReg.write b ∧ t.control.bit s.params.stbBit = some false) ∧
    (∀ k : Fin 8, k ≠ s.params.auxBit → k ≠ s.params.stbBit → t.control.bit k = s.control.bit k)

/-- The commands of Protocols B and C end `OK` when their accesses succeed, after one step for each write and one for
each settle unit (42_protocol_b.md R109, R114, 43_protocol_c.md R121; 60_exceptions.md R133: no other phase can run for
ever). -/
def Obligations.ProtocolsBAndCComplete : Prop :=
  ∀ (s u : State), s.host = [] → s.ph = .idle →
    (∀ b, exec (.cmdB b) s = .next u → (∀ j, j < 5 → (nthDraw j s.env).outcome = .ok) →
      ∃ t, steps (5 * (s.cfg.settleUnits.toNat + 1)) u = some t ∧ t.ph = .finished ∧ t.result = .ok ∧
        t.env = envAfter 5 s.env) ∧
    (exec .dataB s = .next u → (∀ j, j < 2 + 3 * s.buf.length → (nthDraw j s.env).outcome = .ok) →
      ∃ t, steps ((2 + 3 * s.buf.length) * (s.cfg.settleUnits.toNat + 1)) u = some t ∧ t.ph = .finished ∧
        t.result = .ok ∧ t.env = envAfter (2 + 3 * s.buf.length) s.env) ∧
    (exec .writeC s = .next u → (∀ j, j < 1 + 3 * s.buf.length → (nthDraw j s.env).outcome = .ok) →
      ∃ t, steps ((1 + 3 * s.buf.length) * (s.cfg.settleUnits.toNat + 1)) u = some t ∧ t.ph = .finished ∧
        t.result = .ok ∧ t.env = envAfter (1 + 3 * s.buf.length) s.env)

/-- A `WRITE_A` ends `OK` when its accesses succeed and after each byte's data write the environment shows busy a finite
number of times (`polls` says how often for each byte) and then not busy, whatever status bytes it shows and however its
answers are held; its trace is then the one of the answers (41_protocol_a.md R101, R102, R105). -/
def Obligations.WriteACompletes : Prop :=
  ∀ (s u : State) (polls : List Nat),
    s.host = [] → s.ph = .idle → exec .writeA s = .next u → polls.length = s.buf.length →
    servesPolls s.params polls s.env →
    ∃ t, steps (polls.sum + 4 * s.buf.length) u = some t ∧ t.ph = .finished ∧ t.result = .ok ∧
      t.env = envAfter (polls.sum + 4 * s.buf.length) s.env ∧ t.trace = servedTrace s.params s.buf polls s.env

/-- Every word of the language of 41_protocol_a.md R102 is the trace of some `WRITE_A` that ends `OK`: with WriteAWholeRun,
which says that no other trace is, the traces are exactly the words of the language. -/
def Obligations.EveryWriteATraceOccurs : Prop :=
  ∀ (s : State) (tr : List Event), s.host = [] → s.ph = .idle → (∀ k, s.params.maxLen = some k → s.buf.length ≤ k) →
    WriteATrace s.params s.buf tr →
    ∃ (e : Env) (n : Nat) (u t : State), exec .writeA { s with env := e } = .next u ∧ steps n u = some t ∧
      t.ph = .finished ∧ t.result = .ok ∧ t.trace = tr

/-- The count laws of a command that ends `OK` (40_port_ops.md R95, derived there). The counts of settle waits are of
`SETTLE` events, not of time: 92_eei_decisions.md D6 warns of claims that rest on them. -/
def Obligations.CountLaws : Prop :=
  ∀ (n : Nat) (s u t : State), s.ph = .idle → s.host = [] → steps n u = some t → t.ph = .finished → t.result = .ok →
    (exec .writeA s = .next u →
      t.trace.countP Event.isDataWrite = s.buf.length ∧
      t.trace.countP (Event.isLineWrite s.params .stb true) = s.buf.length ∧
      t.trace.countP (Event.isLineWrite s.params .stb false) = s.buf.length ∧
      s.buf.length ≤ t.trace.countP Event.isStatusRead ∧
      t.trace.countP Event.isAccess = 3 * s.buf.length + t.trace.countP Event.isStatusRead ∧
      t.trace.countP Event.isSettle = 0) ∧
    (∀ b, exec (.cmdB b) s = .next u →
      t.trace.countP Event.isDataWrite = 1 ∧
      t.trace.countP (Event.isLineWrite s.params .stb true) = 1 ∧
      t.trace.countP (Event.isLineWrite s.params .stb false) = 1 ∧
      t.trace.countP (Event.isLineWrite s.params .cs false) = 1 ∧
      t.trace.countP (Event.isLineWrite s.params .a0 false) = 1 ∧
      t.trace.countP Event.isAccess = 5 ∧
      t.trace.countP Event.isSettle = if s.cfg.settleUnits = 0#16 then 0 else 5) ∧
    (exec .dataB s = .next u →
      t.trace.countP Event.isDataWrite = s.buf.length ∧
      t.trace.countP (Event.isLineWrite s.params .stb true) = s.buf.length ∧
      t.trace.countP (Event.isLineWrite s.params .stb false) = s.buf.length ∧
      t.trace.countP (Event.isLineWrite s.params .cs false) = 1 ∧
      t.trace.countP (Event.isLineWrite s.params .a0 true) = 1 ∧
      t.trace.countP Event.isAccess = 2 + 3 * s.buf.length ∧
      t.trace.countP Event.isSettle = if s.cfg.settleUnits = 0#16 then 0 else 2 + 3 * s.buf.length) ∧
    (exec .writeC s = .next u →
      t.trace.countP Event.isDataWrite = s.buf.length ∧
      t.trace.countP (Event.isLineWrite s.params .stb true) = s.buf.length ∧
      t.trace.countP (Event.isLineWrite s.params .stb false) = s.buf.length ∧
      t.trace.countP (Event.isLineWrite s.params .aux s.params.auxActive) = 1 ∧
      t.trace.countP Event.isAccess = 1 + 3 * s.buf.length ∧
      t.trace.countP Event.isSettle = if s.cfg.settleUnits = 0#16 then 0 else 1 + 3 * s.buf.length)

/-- Repeatability (70_reset_and_hazards.md R159, derived there from 10_state.md R36, R38): two commands with the same
word, buffer and `CFG` under environments that answer the same emit the same trace, whatever `DATA`, `CONTROL`,
`RESULT`, the old trace and the rest of the sequencer held before. -/
def Obligations.CommandsRepeat : Prop :=
  ∀ (n : Nat) (i : Instr) (s1 s2 u1 u2 t1 : State),
    s1.ph = .idle → s2.ph = .idle → s1.host = [] → s2.host = [] → s1.params = s2.params → s1.env = s2.env →
    s1.buf = s2.buf → s1.cfg = s2.cfg →
    (i = .writeA ∨ i = .dataB ∨ i = .writeC ∨ ∃ b, i = .cmdB b) →
    exec i s1 = .next u1 → exec i s2 = .next u2 → steps n u1 = some t1 →
    ∃ t2, steps n u2 = some t2 ∧ t2.trace = t1.trace ∧ t2.ph = t1.ph ∧ t2.env = t1.env ∧
      (t1.ph = .finished ∨ t1.ph = .idle → t2.result = t1.result)

/-! ## The assembler -/

/-- 30_encoding.md R73: `WRITE A`, `WRITE B` and `WRITE C` expand to exactly one command: `WRITE_A`, `DATA_B` and
`WRITE_C` with the same bytes. -/
def Obligations.PseudoCommandExpands : Prop :=
  ∀ (bs : List Byte) (d : Units),
    (decodeCommand (expandWrite .a bs d).word = .instr .writeA ∧ (expandWrite .a bs d).buf = bs ∧
      (expandWrite .a bs d).cfg.settleUnits = d) ∧
    (decodeCommand (expandWrite .b bs d).word = .instr .dataB ∧ (expandWrite .b bs d).buf = bs ∧
      (expandWrite .b bs d).cfg.settleUnits = d) ∧
    (decodeCommand (expandWrite .c bs d).word = .instr .writeC ∧ (expandWrite .c bs d).buf = bs ∧
      (expandWrite .c bs d).cfg.settleUnits = d)

/-- The assembler emits legal command words only (30_encoding.md R72: "The assembler emits the command word of rule R63
and the buffer operand of rule R66"; the details of the text are log 15). -/
def Obligations.AssemblerEmitsLegalWords : Prop :=
  ∀ (line : String) (r : Request), assembleLine line = .command r →
    ∃ i, decodeCommand r.word = .instr i ∧ encode i = .command r.word
end

