-- ==== Sys2Proof/Laws/Decode.lean ====
section
/-! SUPPORT. The fields of an encoded word, the word of given fields (spec/30_encoding.md R63, R75), and the masks of an
`SC` (R74). -/

namespace Sys2Proof

theorem op_encodeCommand (k : BitVec 4) (b : Byte) : CmdWord.op (encodeCommand k b) = k := by
  simp only [CmdWord.op, encodeCommand]
  ext i hi
  simp only [BitVec.getElem_extractLsb', BitVec.getLsbD_append]
  grind
theorem rsv_encodeCommand (k : BitVec 4) (b : Byte) : CmdWord.rsv (encodeCommand k b) = 0#4 := by
  simp only [CmdWord.rsv, encodeCommand]
  ext i hi
  simp only [BitVec.getElem_extractLsb', BitVec.getLsbD_append]
  grind
theorem imm8_encodeCommand (k : BitVec 4) (b : Byte) : CmdWord.imm8 (encodeCommand k b) = b := by
  simp only [CmdWord.imm8, encodeCommand]
  ext i hi
  simp only [BitVec.getElem_extractLsb', BitVec.getLsbD_append]
  grind
theorem kind_encodeMicroOp (k : BitVec 4) (b : BitVec 16) : MicroWord.kind (encodeMicroOp k b) = k := by
  simp only [MicroWord.kind, encodeMicroOp]
  ext i hi
  simp only [BitVec.getElem_extractLsb', BitVec.getLsbD_append]
  grind
theorem z_encodeMicroOp (k : BitVec 4) (b : BitVec 16) : MicroWord.z (encodeMicroOp k b) = 0#12 := by
  simp only [MicroWord.z, encodeMicroOp]
  ext i hi
  simp only [BitVec.getElem_extractLsb', BitVec.getLsbD_append]
  grind
theorem d_encodeMicroOp (k : BitVec 4) (b : BitVec 16) : MicroWord.d (encodeMicroOp k b) = b := by
  simp only [MicroWord.d, encodeMicroOp]
  ext i hi
  simp only [BitVec.getElem_extractLsb', BitVec.getLsbD_append]
  grind
theorem m_encodeMicroOp (k : BitVec 4) (m v : Byte) : MicroWord.m (encodeMicroOp k (m ++ v)) = m := by
  simp only [MicroWord.m, encodeMicroOp]
  ext i hi
  simp only [BitVec.getElem_extractLsb', BitVec.getLsbD_append]
  grind
theorem v_encodeMicroOp (k : BitVec 4) (m v : Byte) : MicroWord.v (encodeMicroOp k (m ++ v)) = v := by
  simp only [MicroWord.v, encodeMicroOp]
  ext i hi
  simp only [BitVec.getElem_extractLsb', BitVec.getLsbD_append]
  grind
/-- A command word with `RSV` = 0 is the word of its opcode and immediate. -/
theorem encodeCommand_fields {w : CmdWord} (h : CmdWord.rsv w = 0#4) :
    encodeCommand (CmdWord.op w) (CmdWord.imm8 w) = w := by
  simp only [encodeCommand, ← h, CmdWord.op, CmdWord.imm8, CmdWord.rsv]
  apply BitVec.eq_of_getLsbD_eq
  intro i hi
  simp only [BitVec.getLsbD_append, BitVec.getLsbD_extractLsb']
  grind
/-- A micro-operation word with `Z` = 0 is the word of its kind and low half. -/
theorem encodeMicroOp_fields {w : MicroWord} (h : MicroWord.z w = 0#12) :
    encodeMicroOp (MicroWord.kind w) (MicroWord.m w ++ MicroWord.v w) = w := by
  simp only [encodeMicroOp, ← h, MicroWord.kind, MicroWord.m, MicroWord.v, MicroWord.z]
  apply BitVec.eq_of_getLsbD_eq
  intro i hi
  simp only [BitVec.getLsbD_append, BitVec.getLsbD_extractLsb']
  grind
theorem d_eq (w : MicroWord) : MicroWord.d w = MicroWord.m w ++ MicroWord.v w := by
  simp only [MicroWord.d, MicroWord.m, MicroWord.v]
  apply BitVec.eq_of_getLsbD_eq
  intro i hi
  simp only [BitVec.getLsbD_append, BitVec.getLsbD_extractLsb']
  grind

theorem and_mask_of_disjoint {m v : Byte} (h : v &&& ~~~m = 0#8) : v &&& m = v := by
  apply BitVec.eq_of_getLsbD_eq
  intro i hi
  have h' := congrArg (fun x => x.getLsbD i) h
  simp only [BitVec.getLsbD_and, BitVec.getLsbD_not, hi, decide_true, Bool.true_and, BitVec.getLsbD_zero] at h' ⊢
  revert h'
  cases m.getLsbD i <;> cases v.getLsbD i <;> simp

theorem isOneBit_iff (m : Byte) : isOneBit m = true ↔ ∃ k : Fin 8, m = bitMask k := by
  constructor
  · intro h
    simp only [isOneBit, decide_eq_true_eq, List.mem_cons, List.not_mem_nil, or_false] at h
    rcases h with h|h|h|h|h|h|h|h <;> exact ⟨_, h⟩
  · rintro ⟨k, rfl⟩; revert k; decide

theorem isLineMask_iff (P : Params) (m : Byte) : P.isLineMask m = true ↔ ∃ L : Line, m = Machine.lineMask P L := by
  simp only [Params.isLineMask, decide_eq_true_eq, List.mem_cons, List.not_mem_nil, or_false]
  constructor
  · rintro (h|h|h|h)
    exacts [⟨.stb, h⟩, ⟨.cs, h⟩, ⟨.a0, h⟩, ⟨.aux, h⟩]
  · rintro ⟨L, rfl⟩; cases L <;> simp [Machine.lineMask, Params.lineBit]

end Sys2Proof
end

