-- ==== Sys2Proof/Laws/State.lean ====
section
/-! SUPPORT. What each field of the state reads after each named update: true by rfl, so that no proof unfolds a record
update. -/

namespace Sys2Proof.Machine

variable (s : State)

/-! ## emit -/

@[simp] theorem State.emit_params (ev : Event) : (s.emit ev).params = s.params := rfl
@[simp] theorem State.emit_data (ev : Event) : (s.emit ev).data = s.data := rfl
@[simp] theorem State.emit_control (ev : Event) : (s.emit ev).control = s.control := rfl
@[simp] theorem State.emit_ph (ev : Event) : (s.emit ev).ph = s.ph := rfl
@[simp] theorem State.emit_op (ev : Event) : (s.emit ev).op = s.op := rfl
@[simp] theorem State.emit_idx (ev : Event) : (s.emit ev).idx = s.idx := rfl
@[simp] theorem State.emit_ret (ev : Event) : (s.emit ev).ret = s.ret := rfl
@[simp] theorem State.emit_cnt (ev : Event) : (s.emit ev).cnt = s.cnt := rfl
@[simp] theorem State.emit_result (ev : Event) : (s.emit ev).result = s.result := rfl
@[simp] theorem State.emit_trace (ev : Event) : (s.emit ev).trace = s.trace ++ [ev] := rfl
@[simp] theorem State.emit_buf (ev : Event) : (s.emit ev).buf = s.buf := rfl
@[simp] theorem State.emit_cfg (ev : Event) : (s.emit ev).cfg = s.cfg := rfl
@[simp] theorem State.emit_env (ev : Event) : (s.emit ev).env = s.env := rfl
@[simp] theorem State.emit_host (ev : Event) : (s.emit ev).host = s.host := rfl

/-! ## writeData -/

@[simp] theorem State.writeData_params (v : Byte) : (s.writeData v).params = s.params := rfl
@[simp] theorem State.writeData_data (v : Byte) : (s.writeData v).data = PortReg.write v := rfl
@[simp] theorem State.writeData_control (v : Byte) : (s.writeData v).control = s.control := rfl
@[simp] theorem State.writeData_ph (v : Byte) : (s.writeData v).ph = s.ph := rfl
@[simp] theorem State.writeData_op (v : Byte) : (s.writeData v).op = s.op := rfl
@[simp] theorem State.writeData_idx (v : Byte) : (s.writeData v).idx = s.idx := rfl
@[simp] theorem State.writeData_ret (v : Byte) : (s.writeData v).ret = s.ret := rfl
@[simp] theorem State.writeData_cnt (v : Byte) : (s.writeData v).cnt = s.cnt := rfl
@[simp] theorem State.writeData_result (v : Byte) : (s.writeData v).result = s.result := rfl
@[simp] theorem State.writeData_trace (v : Byte) : (s.writeData v).trace = s.trace := rfl
@[simp] theorem State.writeData_buf (v : Byte) : (s.writeData v).buf = s.buf := rfl
@[simp] theorem State.writeData_cfg (v : Byte) : (s.writeData v).cfg = s.cfg := rfl
@[simp] theorem State.writeData_env (v : Byte) : (s.writeData v).env = s.env := rfl
@[simp] theorem State.writeData_host (v : Byte) : (s.writeData v).host = s.host := rfl

/-! ## writeControl -/

@[simp] theorem State.writeControl_params (m v : Byte) : (s.writeControl m v).params = s.params := rfl
@[simp] theorem State.writeControl_data (m v : Byte) : (s.writeControl m v).data = s.data := rfl
@[simp] theorem State.writeControl_control (m v : Byte) : (s.writeControl m v).control = s.control.writeMasked m v := rfl
@[simp] theorem State.writeControl_ph (m v : Byte) : (s.writeControl m v).ph = s.ph := rfl
@[simp] theorem State.writeControl_op (m v : Byte) : (s.writeControl m v).op = s.op := rfl
@[simp] theorem State.writeControl_idx (m v : Byte) : (s.writeControl m v).idx = s.idx := rfl
@[simp] theorem State.writeControl_ret (m v : Byte) : (s.writeControl m v).ret = s.ret := rfl
@[simp] theorem State.writeControl_cnt (m v : Byte) : (s.writeControl m v).cnt = s.cnt := rfl
@[simp] theorem State.writeControl_result (m v : Byte) : (s.writeControl m v).result = s.result := rfl
@[simp] theorem State.writeControl_trace (m v : Byte) : (s.writeControl m v).trace = s.trace := rfl
@[simp] theorem State.writeControl_buf (m v : Byte) : (s.writeControl m v).buf = s.buf := rfl
@[simp] theorem State.writeControl_cfg (m v : Byte) : (s.writeControl m v).cfg = s.cfg := rfl
@[simp] theorem State.writeControl_env (m v : Byte) : (s.writeControl m v).env = s.env := rfl
@[simp] theorem State.writeControl_host (m v : Byte) : (s.writeControl m v).host = s.host := rfl

/-! ## drawn -/

@[simp] theorem State.drawn_params : (s.drawn).params = s.params := rfl
@[simp] theorem State.drawn_data : (s.drawn).data = s.data := rfl
@[simp] theorem State.drawn_control : (s.drawn).control = s.control := rfl
@[simp] theorem State.drawn_ph : (s.drawn).ph = s.ph := rfl
@[simp] theorem State.drawn_op : (s.drawn).op = s.op := rfl
@[simp] theorem State.drawn_idx : (s.drawn).idx = s.idx := rfl
@[simp] theorem State.drawn_ret : (s.drawn).ret = s.ret := rfl
@[simp] theorem State.drawn_cnt : (s.drawn).cnt = s.cnt := rfl
@[simp] theorem State.drawn_result : (s.drawn).result = s.result := rfl
@[simp] theorem State.drawn_trace : (s.drawn).trace = s.trace := rfl
@[simp] theorem State.drawn_buf : (s.drawn).buf = s.buf := rfl
@[simp] theorem State.drawn_cfg : (s.drawn).cfg = s.cfg := rfl
@[simp] theorem State.drawn_env : (s.drawn).env = (envNext s.env).2 := rfl
@[simp] theorem State.drawn_host : (s.drawn).host = s.host := rfl

/-! ## raise -/

@[simp] theorem State.raise_params (e : Result) : (s.raise e).params = s.params := rfl
@[simp] theorem State.raise_data (e : Result) : (s.raise e).data = s.data := rfl
@[simp] theorem State.raise_control (e : Result) : (s.raise e).control = s.control := rfl
@[simp] theorem State.raise_ph (e : Result) : (s.raise e).ph = .finished := rfl
@[simp] theorem State.raise_op (e : Result) : (s.raise e).op = s.op := rfl
@[simp] theorem State.raise_idx (e : Result) : (s.raise e).idx = s.idx := rfl
@[simp] theorem State.raise_ret (e : Result) : (s.raise e).ret = s.ret := rfl
@[simp] theorem State.raise_cnt (e : Result) : (s.raise e).cnt = s.cnt := rfl
@[simp] theorem State.raise_result (e : Result) : (s.raise e).result = e := rfl
@[simp] theorem State.raise_trace (e : Result) : (s.raise e).trace = s.trace := rfl
@[simp] theorem State.raise_buf (e : Result) : (s.raise e).buf = s.buf := rfl
@[simp] theorem State.raise_cfg (e : Result) : (s.raise e).cfg = s.cfg := rfl
@[simp] theorem State.raise_env (e : Result) : (s.raise e).env = s.env := rfl
@[simp] theorem State.raise_host (e : Result) : (s.raise e).host = s.host := rfl

/-! ## finish -/

@[simp] theorem State.finish_params : (s.finish).params = s.params := rfl
@[simp] theorem State.finish_data : (s.finish).data = s.data := rfl
@[simp] theorem State.finish_control : (s.finish).control = s.control := rfl
@[simp] theorem State.finish_ph : (s.finish).ph = .finished := rfl
@[simp] theorem State.finish_op : (s.finish).op = s.op := rfl
@[simp] theorem State.finish_idx : (s.finish).idx = s.idx := rfl
@[simp] theorem State.finish_ret : (s.finish).ret = s.ret := rfl
@[simp] theorem State.finish_cnt : (s.finish).cnt = s.cnt := rfl
@[simp] theorem State.finish_result : (s.finish).result = .ok := rfl
@[simp] theorem State.finish_trace : (s.finish).trace = s.trace := rfl
@[simp] theorem State.finish_buf : (s.finish).buf = s.buf := rfl
@[simp] theorem State.finish_cfg : (s.finish).cfg = s.cfg := rfl
@[simp] theorem State.finish_env : (s.finish).env = s.env := rfl
@[simp] theorem State.finish_host : (s.finish).host = s.host := rfl

/-! ## returnToHost -/

@[simp] theorem State.returnToHost_params : (s.returnToHost).params = s.params := rfl
@[simp] theorem State.returnToHost_data : (s.returnToHost).data = s.data := rfl
@[simp] theorem State.returnToHost_control : (s.returnToHost).control = s.control := rfl
@[simp] theorem State.returnToHost_ph : (s.returnToHost).ph = .idle := rfl
@[simp] theorem State.returnToHost_op : (s.returnToHost).op = none := rfl
@[simp] theorem State.returnToHost_idx : (s.returnToHost).idx = s.idx := rfl
@[simp] theorem State.returnToHost_ret : (s.returnToHost).ret = s.ret := rfl
@[simp] theorem State.returnToHost_cnt : (s.returnToHost).cnt = s.cnt := rfl
@[simp] theorem State.returnToHost_result : (s.returnToHost).result = s.result := rfl
@[simp] theorem State.returnToHost_trace : (s.returnToHost).trace = s.trace := rfl
@[simp] theorem State.returnToHost_buf : (s.returnToHost).buf = [] := rfl
@[simp] theorem State.returnToHost_cfg : (s.returnToHost).cfg = {} := rfl
@[simp] theorem State.returnToHost_env : (s.returnToHost).env = s.env := rfl
@[simp] theorem State.returnToHost_host : (s.returnToHost).host = s.host := rfl

/-! ## clearSequencer -/

@[simp] theorem State.clearSequencer_params (c : Option Command) : (s.clearSequencer c).params = s.params := rfl
@[simp] theorem State.clearSequencer_data (c : Option Command) : (s.clearSequencer c).data = s.data := rfl
@[simp] theorem State.clearSequencer_control (c : Option Command) : (s.clearSequencer c).control = s.control := rfl
@[simp] theorem State.clearSequencer_ph (c : Option Command) : (s.clearSequencer c).ph = s.ph := rfl
@[simp] theorem State.clearSequencer_op (c : Option Command) : (s.clearSequencer c).op = c := rfl
@[simp] theorem State.clearSequencer_idx (c : Option Command) : (s.clearSequencer c).idx = 0 := rfl
@[simp] theorem State.clearSequencer_ret (c : Option Command) : (s.clearSequencer c).ret = none := rfl
@[simp] theorem State.clearSequencer_cnt (c : Option Command) : (s.clearSequencer c).cnt = 0#16 := rfl
@[simp] theorem State.clearSequencer_result (c : Option Command) : (s.clearSequencer c).result = s.result := rfl
@[simp] theorem State.clearSequencer_trace (c : Option Command) : (s.clearSequencer c).trace = [] := rfl
@[simp] theorem State.clearSequencer_buf (c : Option Command) : (s.clearSequencer c).buf = s.buf := rfl
@[simp] theorem State.clearSequencer_cfg (c : Option Command) : (s.clearSequencer c).cfg = s.cfg := rfl
@[simp] theorem State.clearSequencer_env (c : Option Command) : (s.clearSequencer c).env = s.env := rfl
@[simp] theorem State.clearSequencer_host (c : Option Command) : (s.clearSequencer c).host = s.host := rfl

/-! ## present -/

@[simp] theorem State.present_params (r : Request) (rest : List HostMove) : (s.present r rest).params = s.params := rfl
@[simp] theorem State.present_data (r : Request) (rest : List HostMove) : (s.present r rest).data = s.data := rfl
@[simp] theorem State.present_control (r : Request) (rest : List HostMove) : (s.present r rest).control = s.control := rfl
@[simp] theorem State.present_ph (r : Request) (rest : List HostMove) : (s.present r rest).ph = s.ph := rfl
@[simp] theorem State.present_op (r : Request) (rest : List HostMove) : (s.present r rest).op = s.op := rfl
@[simp] theorem State.present_idx (r : Request) (rest : List HostMove) : (s.present r rest).idx = s.idx := rfl
@[simp] theorem State.present_ret (r : Request) (rest : List HostMove) : (s.present r rest).ret = s.ret := rfl
@[simp] theorem State.present_cnt (r : Request) (rest : List HostMove) : (s.present r rest).cnt = s.cnt := rfl
@[simp] theorem State.present_result (r : Request) (rest : List HostMove) : (s.present r rest).result = s.result := rfl
@[simp] theorem State.present_trace (r : Request) (rest : List HostMove) : (s.present r rest).trace = s.trace := rfl
@[simp] theorem State.present_buf (r : Request) (rest : List HostMove) : (s.present r rest).buf = r.buf := rfl
@[simp] theorem State.present_cfg (r : Request) (rest : List HostMove) : (s.present r rest).cfg = r.cfg := rfl
@[simp] theorem State.present_env (r : Request) (rest : List HostMove) : (s.present r rest).env = s.env := rfl
@[simp] theorem State.present_host (r : Request) (rest : List HostMove) : (s.present r rest).host = rest := rfl

/-! ## hostReset -/

@[simp] theorem State.hostReset_params : (s.hostReset).params = s.params := rfl
@[simp] theorem State.hostReset_data : (s.hostReset).data = s.data := rfl
@[simp] theorem State.hostReset_control : (s.hostReset).control = s.control := rfl
@[simp] theorem State.hostReset_ph : (s.hostReset).ph = .idle := rfl
@[simp] theorem State.hostReset_op : (s.hostReset).op = none := rfl
@[simp] theorem State.hostReset_idx : (s.hostReset).idx = 0 := rfl
@[simp] theorem State.hostReset_ret : (s.hostReset).ret = none := rfl
@[simp] theorem State.hostReset_cnt : (s.hostReset).cnt = 0#16 := rfl
@[simp] theorem State.hostReset_result : (s.hostReset).result = .ok := rfl
@[simp] theorem State.hostReset_trace : (s.hostReset).trace = [] := rfl
@[simp] theorem State.hostReset_buf : (s.hostReset).buf = [] := rfl
@[simp] theorem State.hostReset_cfg : (s.hostReset).cfg = {} := rfl
@[simp] theorem State.hostReset_env : (s.hostReset).env = s.env := rfl
@[simp] theorem State.hostReset_host : (s.hostReset).host = s.host := rfl

end Sys2Proof.Machine
end

