-- ==== Sys2Proof/Laws/PortReg.lean ====
section
/-! SUPPORT. The laws of the port registers (spec/20_memory.md R48, R49, spec/40_port_ops.md R94): what a bit reads after
a write, the canonical form that every operation keeps, and the line masks (spec/10_state.md R23, R24). -/

namespace Sys2Proof.Machine

theorem getLsbD_bitMask (k i : Fin 8) : (bitMask k).getLsbD i.val = decide (i = k) := by
  revert k i; decide

theorem bitMask_injective {j k : Fin 8} (h : bitMask j = bitMask k) : j = k := by
  revert h; revert j k; decide

theorem bitMask_ne_zero (k : Fin 8) : bitMask k ≠ 0#8 := by revert k; decide

@[simp] theorem PortReg.bit_write (v : Byte) (i : Fin 8) : (PortReg.write v).bit i = some (v.getLsbD i.val) := by
  have : (0xFF#8).getLsbD i.val = true := by revert i; decide
  simp [PortReg.bit, PortReg.write, this]

theorem PortReg.bit_writeMasked (r : PortReg) (m v : Byte) (i : Fin 8) :
    (r.writeMasked m v).bit i = if m.getLsbD i.val then some (v.getLsbD i.val) else r.bit i := by
  have hi := i.isLt
  simp only [PortReg.bit, PortReg.writeMasked, BitVec.getLsbD_or, BitVec.getLsbD_and, BitVec.getLsbD_not, hi,
    decide_true, Bool.true_and]
  cases m.getLsbD i.val <;> cases r.known.getLsbD i.val <;> simp

@[simp] theorem PortReg.bit_unknown (i : Fin 8) : PortReg.unknown.bit i = none := by
  simp [PortReg.bit, PortReg.unknown]

@[simp] theorem PortReg.wf_write (v : Byte) : (PortReg.write v).wf = true := by
  simp [PortReg.wf, PortReg.write]

theorem PortReg.wf_iff (r : PortReg) : r.wf = true ↔ r.val &&& ~~~r.known = 0#8 := by simp [PortReg.wf]

theorem PortReg.wf_writeMasked {r : PortReg} (h : r.wf = true) (m v : Byte) : (r.writeMasked m v).wf = true := by
  rw [PortReg.wf_iff] at h ⊢
  apply BitVec.eq_of_getLsbD_eq
  intro i hi
  have h' := congrArg (fun x => x.getLsbD i) h
  simp only [PortReg.writeMasked, BitVec.getLsbD_or, BitVec.getLsbD_and, BitVec.getLsbD_not, hi, decide_true,
    Bool.true_and, BitVec.getLsbD_zero] at h' ⊢
  revert h'
  cases m.getLsbD i <;> cases r.known.getLsbD i <;> cases r.val.getLsbD i <;> cases v.getLsbD i <;> simp

theorem lineMask_getLsbD (P : Params) (L : Line) (i : Fin 8) :
    (lineMask P L).getLsbD i.val = decide (i = P.lineBit L) := getLsbD_bitMask _ _

theorem lineBit_injective (P : Params) {L M : Line} (h : P.lineBit L = P.lineBit M) : L = M := by
  have hd := P.linesDistinct
  simp only [List.nodup_cons, List.mem_cons, List.not_mem_nil, or_false, not_or] at hd
  cases L <;> cases M <;> simp_all [Params.lineBit]

theorem lineMask_injective (P : Params) {L M : Line} (h : lineMask P L = lineMask P M) : L = M :=
  lineBit_injective P (bitMask_injective h)

theorem lineMask_ne_zero (P : Params) (L : Line) : lineMask P L ≠ 0#8 := bitMask_ne_zero _

/-- A line write sets that line and no other bit. -/
theorem PortReg.bit_lineWrite (r : PortReg) (P : Params) (L : Line) (b : Bool) (i : Fin 8) :
    (r.writeMasked (lineMask P L) (lineValue P L b)).bit i = if i = P.lineBit L then some b else r.bit i := by
  rw [PortReg.bit_writeMasked, lineMask_getLsbD]
  by_cases h : i = P.lineBit L
  · cases b <;> simp [h, lineValue, lineMask_getLsbD]
  · simp [h]

theorem lineValue_and_mask (P : Params) (L : Line) (b : Bool) :
    lineValue P L b &&& lineMask P L = lineValue P L b := by
  cases b <;> simp [lineValue]

/-- The canonical form at reset (log 3). -/
theorem PortReg.wf_unknown : PortReg.unknown.wf = true := by decide

/-- Every write of the data register leaves the canonical form. -/
theorem State.writeData_wf (s : State) (v : Byte) : (s.writeData v).data.wf = true := by simp

/-- Every masked write of the control register keeps the canonical form. -/
theorem State.writeControl_wf {s : State} (h : s.control.wf = true) (m v : Byte) :
    (s.writeControl m v).control.wf = true := PortReg.wf_writeMasked h m v

end Sys2Proof.Machine
end

