-- ==== Sys2Proof/Laws/Ops.lean ====
section
/-! SUPPORT. What the shared operations can do: entering a phase, and the three port accesses told as one, with their two
outcomes (spec/40_port_ops.md R83 to R85, R91, spec/60_exceptions.md R129). -/

namespace Sys2Proof.Machine

/-! ## Entering a phase -/


@[simp] theorem State.enter_phase (s : State) (p : Phase) : s.enter (.phase p) = { s with ph := p } := rfl
@[simp] theorem State.enter_finish (s : State) : s.enter .finish = s.finish := rfl
@[simp] theorem State.enter_byteDone (s : State) : s.enter .byteDone = s.byteDone := rfl

/-- Everything entering a next phase keeps: all but `ph`, `idx` and `RESULT`. -/
theorem State.enter_keeps (s : State) (n : Next) :
    (s.enter n).params = s.params ∧ (s.enter n).data = s.data ∧ (s.enter n).control = s.control ∧
    (s.enter n).op = s.op ∧ (s.enter n).ret = s.ret ∧ (s.enter n).cnt = s.cnt ∧ (s.enter n).trace = s.trace ∧
    (s.enter n).buf = s.buf ∧ (s.enter n).cfg = s.cfg ∧ (s.enter n).env = s.env ∧ (s.enter n).host = s.host := by
  cases n <;> simp [State.byteDone, State.finish]
  split <;> simp

@[simp] theorem State.enter_params (s : State) (n : Next) : (s.enter n).params = s.params := (s.enter_keeps n).1
@[simp] theorem State.enter_data (s : State) (n : Next) : (s.enter n).data = s.data := (s.enter_keeps n).2.1
@[simp] theorem State.enter_control (s : State) (n : Next) : (s.enter n).control = s.control := (s.enter_keeps n).2.2.1
@[simp] theorem State.enter_op (s : State) (n : Next) : (s.enter n).op = s.op := (s.enter_keeps n).2.2.2.1
@[simp] theorem State.enter_ret (s : State) (n : Next) : (s.enter n).ret = s.ret := (s.enter_keeps n).2.2.2.2.1
@[simp] theorem State.enter_cnt (s : State) (n : Next) : (s.enter n).cnt = s.cnt := (s.enter_keeps n).2.2.2.2.2.1
@[simp] theorem State.enter_trace (s : State) (n : Next) : (s.enter n).trace = s.trace :=
  (s.enter_keeps n).2.2.2.2.2.2.1
@[simp] theorem State.enter_buf (s : State) (n : Next) : (s.enter n).buf = s.buf := (s.enter_keeps n).2.2.2.2.2.2.2.1
@[simp] theorem State.enter_cfg (s : State) (n : Next) : (s.enter n).cfg = s.cfg :=
  (s.enter_keeps n).2.2.2.2.2.2.2.2.1
@[simp] theorem State.enter_env (s : State) (n : Next) : (s.enter n).env = s.env :=
  (s.enter_keeps n).2.2.2.2.2.2.2.2.2.1
@[simp] theorem State.enter_host (s : State) (n : Next) : (s.enter n).host = s.host :=
  (s.enter_keeps n).2.2.2.2.2.2.2.2.2.2

theorem State.total_congr {s t : State} (ho : t.op = s.op) (hb : t.buf = s.buf) : t.total = s.total := by
  simp [State.total, ho, hb]
theorem State.settleUnits_congr {s t : State} (ho : t.op = s.op) (hb : t.cfg = s.cfg) :
    t.settleUnits = s.settleUnits := by
  simp [State.settleUnits, ho, hb]
theorem State.row_congr {s t : State} (ho : t.op = s.op) (hb : t.buf = s.buf) (hp : t.params = s.params) (p : Phase) :
    t.row p = s.row p := by
  simp [State.row, ho, hp, State.total_congr ho hb]
theorem State.currentByte_congr {s t : State} (ho : t.op = s.op) (hb : t.buf = s.buf) (hi : t.idx = s.idx) :
    t.currentByte = s.currentByte := by
  simp [State.currentByte, ho, hb, hi]

/-! ## The three port accesses as one -/

/-- The register effect of an access. -/
def accessEffect (i : Instr) (s : State) : State :=
  match i with
  | .wd v => s.writeData v
  | .sc m v => s.writeControl m v
  | .rs | .settle _ | .writeA | .cmdB _ | .dataB | .writeC => s

/-- The event of an access; the byte is the one a successful status read returns. -/
def accessEvent (i : Instr) (b : Byte) (o : PortOutcome) : Event :=
  match i, o with
  | .wd v, o => .wd v o
  | .sc m v, o => .sc m (v &&& m) o
  | .rs, .ok => .rs (some b) .ok
  | .rs, .err k => .rs none (.err k)
  | .settle d, _ => .settle d
  | .writeA, _ | .cmdB _, _ | .dataB, _ | .writeC, _ => .settle 0#16

/-- A port access that succeeds. -/
def performed (i : Instr) (s : State) : State :=
  (accessEffect i s.drawn).emit (accessEvent i s.answer.status .ok)

/-- A port access that fails. -/
def failed (i : Instr) (k : PortError) (s : State) : State :=
  s.drawn.abort k s.answer.applied (accessEffect i s.drawn) (accessEvent i s.answer.status (.err k))

/-- The instruction is a port access. -/
def Instr.isAccess : Instr → Bool
  | .wd _ | .rs | .sc _ _ => true
  | .settle _ | .writeA | .cmdB _ | .dataB | .writeC => false

theorem exec_access_ok {i : Instr} {s : State} (hi : Instr.isAccess i = true) (h : s.answer.outcome = .ok) :
    exec i s = .next (performed i s) := by
  cases i <;> simp_all [Instr.isAccess, exec, execWd, execRs, execSc, portWriteData, portReadStatus, portSetControl,
    performed, accessEffect, accessEvent]

theorem exec_access_err {i : Instr} {s : State} {k : PortError} (hi : Instr.isAccess i = true)
    (h : s.answer.outcome = .err k) : exec i s = .next (failed i k s) := by
  cases i <;> simp_all [Instr.isAccess, exec, execWd, execRs, execSc, portWriteData, portReadStatus, portSetControl,
    failed, accessEffect, accessEvent, State.abort]

theorem accessEffect_keeps (i : Instr) (s : State) :
    (accessEffect i s).params = s.params ∧ (accessEffect i s).ph = s.ph ∧ (accessEffect i s).op = s.op ∧
    (accessEffect i s).idx = s.idx ∧ (accessEffect i s).ret = s.ret ∧ (accessEffect i s).cnt = s.cnt ∧
    (accessEffect i s).result = s.result ∧ (accessEffect i s).trace = s.trace ∧ (accessEffect i s).buf = s.buf ∧
    (accessEffect i s).cfg = s.cfg ∧ (accessEffect i s).env = s.env ∧ (accessEffect i s).host = s.host := by
  cases i <;> simp [accessEffect]

@[simp] theorem performed_params (i : Instr) (s : State) : (performed i s).params = s.params := (accessEffect_keeps i s.drawn).1
@[simp] theorem performed_ph (i : Instr) (s : State) : (performed i s).ph = s.ph := (accessEffect_keeps i s.drawn).2.1
@[simp] theorem performed_op (i : Instr) (s : State) : (performed i s).op = s.op := (accessEffect_keeps i s.drawn).2.2.1
@[simp] theorem performed_idx (i : Instr) (s : State) : (performed i s).idx = s.idx := (accessEffect_keeps i s.drawn).2.2.2.1
@[simp] theorem performed_ret (i : Instr) (s : State) : (performed i s).ret = s.ret := (accessEffect_keeps i s.drawn).2.2.2.2.1
@[simp] theorem performed_cnt (i : Instr) (s : State) : (performed i s).cnt = s.cnt := (accessEffect_keeps i s.drawn).2.2.2.2.2.1
@[simp] theorem performed_result (i : Instr) (s : State) : (performed i s).result = s.result := (accessEffect_keeps i s.drawn).2.2.2.2.2.2.1
@[simp] theorem performed_trace (i : Instr) (s : State) :
    (performed i s).trace = s.trace ++ [accessEvent i s.answer.status .ok] := by
  simp [performed, (accessEffect_keeps i s.drawn).2.2.2.2.2.2.2.1]
@[simp] theorem performed_buf (i : Instr) (s : State) : (performed i s).buf = s.buf := (accessEffect_keeps i s.drawn).2.2.2.2.2.2.2.2.1
@[simp] theorem performed_cfg (i : Instr) (s : State) : (performed i s).cfg = s.cfg := (accessEffect_keeps i s.drawn).2.2.2.2.2.2.2.2.2.1
@[simp] theorem performed_env (i : Instr) (s : State) : (performed i s).env = (envNext s.env).2 := (accessEffect_keeps i s.drawn).2.2.2.2.2.2.2.2.2.2.1
@[simp] theorem performed_host (i : Instr) (s : State) : (performed i s).host = s.host := (accessEffect_keeps i s.drawn).2.2.2.2.2.2.2.2.2.2.2
@[simp] theorem performed_total (i : Instr) (s : State) : (performed i s).total = s.total := State.total_congr (by simp) (by simp)
@[simp] theorem performed_settleUnits (i : Instr) (s : State) : (performed i s).settleUnits = s.settleUnits := State.settleUnits_congr (by simp) (by simp)
@[simp] theorem performed_row (i : Instr) (s : State) (p : Phase) : (performed i s).row p = s.row p := State.row_congr (by simp) (by simp) (by simp) p

theorem failed_keeps (i : Instr) (k : PortError) (s : State) :
    (failed i k s).params = s.params ∧ (failed i k s).ph = .finished ∧ (failed i k s).op = s.op ∧
    (failed i k s).idx = s.idx ∧ (failed i k s).ret = s.ret ∧ (failed i k s).cnt = s.cnt ∧
    (failed i k s).result = portErrorResult k ∧
    (failed i k s).trace = s.trace ++ [accessEvent i s.answer.status (.err k)] ∧ (failed i k s).buf = s.buf ∧
    (failed i k s).cfg = s.cfg ∧ (failed i k s).env = (envNext s.env).2 ∧ (failed i k s).host = s.host := by
  have h := accessEffect_keeps i s.drawn
  unfold failed State.abort
  split <;> simp [h]

theorem failed_data (i : Instr) (k : PortError) (s : State) :
    (failed i k s).data = if s.answer.applied then (accessEffect i s).data else s.data := by
  unfold failed State.abort; cases s.answer.applied <;> cases i <;> rfl
theorem failed_control (i : Instr) (k : PortError) (s : State) :
    (failed i k s).control = if s.answer.applied then (accessEffect i s).control else s.control := by
  unfold failed State.abort; cases s.answer.applied <;> cases i <;> rfl
theorem performed_data (i : Instr) (s : State) : (performed i s).data = (accessEffect i s).data := by cases i <;> rfl
theorem performed_control (i : Instr) (s : State) : (performed i s).control = (accessEffect i s).control := by cases i <;> rfl

end Sys2Proof.Machine
end

