-- ==== Sys2Proof/Laws/PerInstr.lean ====
section
/-! SUPPORT. The family TableRow: the encoded word of an instruction has the length of its row of
spec/opcode_table.json and meets the row's mask and match, whatever its operands. -/

namespace Sys2Proof.Laws.TableRow

/-- The row of spec/opcode_table.json: its number of bits, its mask and its match. -/
def row : Instr → Nat × Nat × Nat
  | .writeA => (16, 0xFFFF, 0x1000)
  | .cmdB _ => (16, 0xFF00, 0x2000)
  | .dataB => (16, 0xFFFF, 0x3000)
  | .writeC => (16, 0xFFFF, 0x4000)
  | .wd _ => (32, 0xFFFFFF00, 0x10000000)
  | .rs => (32, 0xFFFFFFFF, 0x20000000)
  | .sc _ _ => (32, 0xFFFF0000, 0x30000000)
  | .settle _ => (32, 0xFFFF0000, 0x40000000)

/-- The word meets a row. -/
def Meets : CodeWord → Nat × Nat × Nat → Prop
  | .command w, (n, mask, value) => n = 16 ∧ w &&& BitVec.ofNat 16 mask = BitVec.ofNat 16 value
  | .microOp w, (n, mask, value) => n = 32 ∧ w &&& BitVec.ofNat 32 mask = BitVec.ofNat 32 value

/-- The encoded word meets its own row. -/
def Statement (i : Instr) : Prop := Meets (encode i) (row i)

theorem writeA : Statement .writeA := ⟨rfl, by decide⟩

theorem cmdB (b : Byte) : Statement (.cmdB b) := by
  refine ⟨rfl, ?_⟩
  revert b; decide

theorem dataB : Statement .dataB := ⟨rfl, by decide⟩

theorem writeC : Statement .writeC := ⟨rfl, by decide⟩

theorem wd (v : Byte) : Statement (.wd v) := by
  refine ⟨rfl, ?_⟩
  revert v; decide

theorem rs : Statement .rs := ⟨rfl, by decide⟩

/-- The high half of a micro-operation word. -/
theorem high_half (k : BitVec 4) (low : BitVec 16) :
    encodeMicroOp k low &&& 0xFFFF0000#32 = k ++ 0#12 ++ 0#16 := by
  apply BitVec.eq_of_getLsbD_eq
  intro i hi
  have hm : (0xFFFF0000#32).getLsbD i = decide (16 ≤ i) := by
    revert hi; revert i; decide
  simp only [encodeMicroOp, BitVec.getLsbD_and, BitVec.getLsbD_append, hm]
  by_cases h : i < 16 <;> simp [h]
  omega

theorem sc (m v : Byte) : Statement (.sc m v) :=
  ⟨rfl, (high_half 0x3#4 (m ++ (v &&& m))).trans (by decide)⟩

theorem settle (d : Units) : Statement (.settle d) := ⟨rfl, (high_half 0x4#4 d).trans (by decide)⟩

end Sys2Proof.Laws.TableRow
end

