-- ==== Sys2Proof/Laws/Sequencer.lean ====
section
/-! SUPPORT. What the sequencer can do: the rows of the transition tables, what follows an access in the same step
(spec/40_port_ops.md R87, R88, R92), and a settle unit. -/

namespace Sys2Proof.Machine

theorem State.row_some_phase {s : State} {p : Phase} {r : Row} (h : s.row p = some r) :
    p ≠ .idle ∧ p ≠ .settle ∧ p ≠ .finished := by
  unfold State.row at h
  split at h <;> (try cases p) <;> simp_all [rowWriteA, rowCmdB, rowDataB, rowWriteC]

theorem State.following_of_row {s : State} {r : Row} (h : s.row s.ph = some r) : s.following = r.next := by
  have hp := State.row_some_phase h
  unfold State.following
  split <;> simp_all

theorem State.issue_of_row {s : State} {r : Row} (h : s.row s.ph = some r) : s.issue = s.issueAction r.action := by
  have hp := State.row_some_phase h
  unfold State.issue
  split <;> simp_all

/-- A row that reads the status is the poll of `WRITE_A`, and the other way round. -/
theorem State.row_readStatus {s : State} {p : Phase} {r : Row} (h : s.row p = some r) :
    (r.action = .readStatus ↔ p = .poll) ∧ (p = .poll → s.op = some .writeA ∧ r.next = .phase .stbHi) := by
  unfold State.row at h
  split at h <;> (try cases p) <;> simp [rowWriteA, rowCmdB, rowDataB, rowWriteC, strobeHiRow, strobeLoRow] at h <;>
    subst h <;> simp_all

theorem State.issueAction_access {s : State} {a : Action} {i : Instr} (h : s.issueAction a = .access i) :
    (a = .placeByte ∧ ∃ v, s.currentByte = some v ∧ i = .wd v) ∨ (a = .readStatus ∧ i = .rs) ∨
    (∃ L b, a = .writeLine L b ∧ i = lineWrite s.params L b) := by
  cases a with
  | placeByte =>
    left
    simp only [State.issueAction] at h
    split at h <;> simp_all
  | readStatus => right; left; simp_all [State.issueAction]
  | writeLine L b => right; right; exact ⟨L, b, rfl, by simp_all [State.issueAction]⟩

theorem State.issueAction_isAccess {s : State} {a : Action} {i : Instr} (h : s.issueAction a = .access i) :
    Instr.isAccess i = true := by
  rcases State.issueAction_access h with ⟨-, v, -, rfl⟩ | ⟨-, rfl⟩ | ⟨L, b, -, rfl⟩ <;> rfl

theorem settleWait_zero (s : State) : settleWait 0#16 s = s.enter s.following := by simp [settleWait]
theorem settleWait_pos {d : Units} (h : d ≠ 0#16) (s : State) :
    settleWait d s = { s.emit (.settle d) with cnt := d, ret := some s.following, ph := .settle } := by
  simp [settleWait, h]

/-- What an access that succeeded leads to in the same step. -/
def afterAccess (r : Row) (i : Instr) (s : State) : State :=
  if r.action = .readStatus then
    if busy s.params s.answer.status then performed i s else (performed i s).enter r.next
  else if s.settleUnits = 0#16 then (performed i s).enter r.next
  else { (performed i s).emit (.settle s.settleUnits) with cnt := s.settleUnits, ret := some r.next, ph := .settle }

theorem proceed_performed {s : State} {r : Row} {i : Instr} (h : s.row s.ph = some r)
    (ha : s.issueAction r.action = .access i) : (performed i s).proceed = afterAccess r i s := by
  have hp := State.row_some_phase h
  have hr := State.row_readStatus h
  have hf : (performed i s).following = r.next := by
    have h2 : (performed i s).row (performed i s).ph = some r := by simpa using h
    exact State.following_of_row h2
  by_cases hpoll : s.ph = .poll
  · have hact := hr.1.2 hpoll
    have hi : i = .rs := by
      rcases State.issueAction_access ha with ⟨h1, -⟩ | ⟨-, h1⟩ | ⟨L, b, h1, -⟩ <;> simp_all
    subst hi
    have hl : (performed .rs s).lastStatus = some s.answer.status := by
      simp [State.lastStatus, accessEvent]
    have : (performed .rs s).ph = .poll := by simpa using hpoll
    simp only [State.proceed, this, State.pollDecision, hl, afterAccess, hact, if_true, hf, performed_params]
    split
    · simp [performed, accessEffect, State.emit, State.drawn, hpoll]
    · rfl
  · have hact : r.action ≠ .readStatus := fun h' => hpoll (hr.1.1 h')
    have hpr : (performed i s).proceed = settleWait s.settleUnits (performed i s) := by
      have hph : (performed i s).ph = s.ph := performed_ph i s
      unfold State.proceed
      rw [hph]
      split <;> simp_all
    rw [hpr]
    simp only [afterAccess, hact, if_false]
    split
    · next h0 => rw [h0, settleWait_zero, hf]
    · next h0 => rw [settleWait_pos h0, hf]

/-- Everything a settle unit can do. -/
theorem settleUnit_cases (s : State) (h : s.ph = .settle) :
    (s.cnt = 0#16 ∧ s.settleUnits = 0#16 ∧ s.settleUnit = s.enter (s.ret.getD (.phase .idle))) ∨
    (s.cnt = 0#16 ∧ s.settleUnits ≠ 0#16 ∧ s.settleUnit =
      { s.emit (.settle s.settleUnits) with
        cnt := s.settleUnits, ret := some (s.ret.getD (.phase .idle)), ph := .settle }) ∨
    (s.cnt = 1#16 ∧ s.settleUnit = { s with cnt := 0#16 }.enter (s.ret.getD (.phase .idle))) ∨
    (s.cnt ≠ 0#16 ∧ s.cnt - 1#16 ≠ 0#16 ∧ s.settleUnit = { s with cnt := s.cnt - 1#16 }) := by
  have hf : s.following = s.ret.getD (.phase .idle) := by simp [State.following, h]
  unfold State.settleUnit
  by_cases h0 : s.cnt = 0#16
  · simp only [h0, if_true]
    by_cases hd : s.settleUnits = 0#16
    · left; rw [hd, settleWait_zero, hf]; simp
    · right; left; rw [settleWait_pos hd, hf]; simp [hd]
  · simp only [h0, if_false]
    by_cases h1 : s.cnt - 1#16 = 0#16
    · right; right; left
      have : s.cnt = 1#16 := by bv_omega
      simp [this, State.following, h]
    · right; right; right; simp [h0, h1]

/-- What an access that succeeded keeps, whatever comes after it in the step. -/
theorem afterAccess_keeps (r : Row) (i : Instr) (s : State) :
    (afterAccess r i s).params = s.params ∧ (afterAccess r i s).data = (accessEffect i s).data ∧
    (afterAccess r i s).control = (accessEffect i s).control ∧ (afterAccess r i s).op = s.op ∧
    (afterAccess r i s).buf = s.buf ∧ (afterAccess r i s).cfg = s.cfg ∧
    (afterAccess r i s).env = (envNext s.env).2 ∧ (afterAccess r i s).host = s.host := by
  unfold afterAccess
  split <;> split <;> simp [performed_data, performed_control]

/-- The events of a step whose access succeeded. -/
theorem afterAccess_trace (r : Row) (i : Instr) (s : State) :
    (afterAccess r i s).trace = s.trace ++ [accessEvent i s.answer.status .ok] ∨
    (r.action ≠ .readStatus ∧ s.settleUnits ≠ 0#16 ∧ (afterAccess r i s).trace =
      s.trace ++ [accessEvent i s.answer.status .ok, .settle s.settleUnits]) := by
  unfold afterAccess
  split <;> split <;> simp_all

theorem settleUnit_keeps (s : State) :
    s.settleUnit.params = s.params ∧ s.settleUnit.data = s.data ∧ s.settleUnit.control = s.control ∧
    s.settleUnit.op = s.op ∧ s.settleUnit.buf = s.buf ∧ s.settleUnit.cfg = s.cfg ∧ s.settleUnit.env = s.env ∧
    s.settleUnit.host = s.host := by
  unfold State.settleUnit settleWait
  split <;> split <;> simp

theorem settleUnit_trace (s : State) :
    s.settleUnit.trace = s.trace ∨
      (s.settleUnits ≠ 0#16 ∧ s.cnt = 0#16 ∧ s.settleUnit.trace = s.trace ++ [.settle s.settleUnits]) := by
  unfold State.settleUnit settleWait
  split <;> split <;> simp_all

/-- The register effect of an access that a row issues: a write of the data register, nothing, or a line write. -/
theorem accessEffect_of_issue {s : State} {a : Action} {i : Instr} (h : s.issueAction a = .access i) :
    (∃ v, s.currentByte = some v ∧ a = .placeByte ∧ i = .wd v ∧ accessEffect i s = s.writeData v) ∨
    (a = .readStatus ∧ i = .rs ∧ accessEffect i s = s) ∨
    (∃ L b, a = .writeLine L b ∧ i = lineWrite s.params L b ∧
      accessEffect i s = s.writeControl (lineMask s.params L) (lineValue s.params L b)) := by
  rcases State.issueAction_access h with ⟨h1, v, h2, rfl⟩ | ⟨h1, rfl⟩ | ⟨L, b, h1, rfl⟩
  · exact .inl ⟨v, h2, h1, rfl, rfl⟩
  · exact .inr (.inl ⟨h1, rfl, rfl⟩)
  · exact .inr (.inr ⟨L, b, h1, rfl, rfl⟩)

/-- The lines and values a row may write. -/
theorem row_writeLine {s : State} {p : Phase} {r : Row} {L : Line} {b : Bool} (h : s.row p = some r)
    (ha : r.action = .writeLine L b) :
    (L = .stb) ∨ (L = .cs ∧ b = false) ∨ (L = .a0) ∨ (L = .aux ∧ b = s.params.auxActive) := by
  unfold State.row at h
  split at h <;> (try cases p) <;> simp [rowWriteA, rowCmdB, rowDataB, rowWriteC, strobeHiRow, strobeLoRow] at h <;>
    subst h <;> simp_all [Config.csActive]

/-- A command's table writes only the lines of its protocol, and only `WRITE_A` reads `STATUS` (10_state.md R28). -/
theorem row_lines {s : State} {c : Command} {p : Phase} {r : Row} (ho : s.op = some c) (h : s.row p = some r) :
    (∀ L b, r.action = .writeLine L b → L ∈ protocolLines c) ∧ (c ≠ .writeA → r.action ≠ .readStatus) := by
  unfold State.row at h
  rw [ho] at h
  cases c <;> cases p <;> simp [rowWriteA, rowCmdB, rowDataB, rowWriteC, strobeHiRow, strobeLoRow] at h <;>
    subst h <;> simp [protocolLines]

end Sys2Proof.Machine
end

