-- ==== Sys2Proof/Laws/Step.lean ====
section
/-! SUPPORT. Everything a step can do: the cases of a step of the engine, of a step of the machine, and of the acceptance
of a command (spec/40_port_ops.md R92, spec/60_exceptions.md R139, R141). -/

namespace Sys2Proof.Machine

/-- With no move of the host the step is the engine's. -/
theorem step_engine {s : State} (h : s.host = []) : step s = engineStep s := by simp [step, State.turn, h]

/-- A step of the engine in a phase whose row issues an access. -/
theorem engineStep_row {s : State} {r : Row} {i : Instr} (h : s.row s.ph = some r)
    (ha : s.issueAction r.action = .access i) :
    engineStep s = .next (match s.answer.outcome with
      | .ok => afterAccess r i s
      | .err k => failed i k s) := by
  have hi := State.issueAction_isAccess ha
  unfold engineStep
  rw [State.issue_of_row h, ha]
  cases ho : s.answer.outcome with
  | ok => simp only [exec_access_ok hi ho, proceed_performed h ha]
  | err k =>
    have hk := failed_keeps i k s
    simp only [exec_access_err hi ho, State.proceed, hk.2.1]

/-- Everything a step of the engine can do. -/
theorem engineStep_cases {s t : State} (h : engineStep s = .next t) :
    (s.ph = .idle ∧ t = s) ∨ (s.ph = .finished ∧ t = s.returnToHost) ∨ (s.ph = .settle ∧ t = s.settleUnit) ∨
    ∃ r i, s.row s.ph = some r ∧ s.issueAction r.action = .access i ∧
      ((s.answer.outcome = .ok ∧ t = afterAccess r i s) ∨ ∃ k, s.answer.outcome = .err k ∧ t = failed i k s) := by
  by_cases h1 : s.ph = .idle
  · simp [engineStep, State.issue, h1] at h; exact .inl ⟨h1, h.symm⟩
  by_cases h2 : s.ph = .finished
  · simp [engineStep, State.issue, h2] at h; exact .inr (.inl ⟨h2, h.symm⟩)
  by_cases h3 : s.ph = .settle
  · simp [engineStep, State.issue, h3] at h; exact .inr (.inr (.inl ⟨h3, h.symm⟩))
  right; right; right
  cases hr : s.row s.ph with
  | none =>
    exfalso
    have : s.issue = .stuck .noTransition := by unfold State.issue; split <;> simp_all
    simp [engineStep, this] at h
  | some r =>
    cases ha : s.issueAction r.action with
    | access i =>
      refine ⟨r, i, rfl, ha, ?_⟩
      rw [engineStep_row hr ha] at h
      cases ho : s.answer.outcome with
      | ok => simp [ho] at h; exact .inl ⟨rfl, h.symm⟩
      | err k => simp [ho] at h; exact .inr ⟨k, rfl, h.symm⟩
    | internal u =>
      exfalso
      cases hx : r.action <;> simp [hx, State.issueAction] at ha
      split at ha <;> simp at ha
    | stuck f => simp [engineStep, State.issue_of_row hr, ha] at h

theorem engineStep_params {s t : State} (h : engineStep s = .next t) : t.params = s.params := by
  rcases engineStep_cases h with ⟨-, rfl⟩ | ⟨hp, rfl⟩ | ⟨hp, rfl⟩ | ⟨r, i, hr, ha, ⟨hok, rfl⟩ | ⟨k, hk, rfl⟩⟩
  · rfl
  · rfl
  · exact (settleUnit_keeps s).1
  · exact (afterAccess_keeps r i s).1
  · exact (failed_keeps i k s).1

theorem engineStep_host {s t : State} (h : engineStep s = .next t) : t.host = s.host := by
  rcases engineStep_cases h with ⟨-, rfl⟩ | ⟨hp, rfl⟩ | ⟨hp, rfl⟩ | ⟨r, i, hr, ha, ⟨hok, rfl⟩ | ⟨k, hk, rfl⟩⟩
  · rfl
  · rfl
  · exact (settleUnit_keeps s).2.2.2.2.2.2.2
  · exact (afterAccess_keeps r i s).2.2.2.2.2.2.2
  · exact (failed_keeps i k s).2.2.2.2.2.2.2.2.2.2.2

theorem engineStep_op {s t : State} (h : engineStep s = .next t) : t.op = s.op ∨ (t.op = none ∧ t.ph = .idle) := by
  rcases engineStep_cases h with ⟨-, rfl⟩ | ⟨hp, rfl⟩ | ⟨hp, rfl⟩ | ⟨r, i, hr, ha, ⟨hok, rfl⟩ | ⟨k, hk, rfl⟩⟩
  · left; rfl
  · right; exact ⟨rfl, rfl⟩
  · left; exact (settleUnit_keeps s).2.2.2.1
  · left; exact (afterAccess_keeps r i s).2.2.2.1
  · left; exact (failed_keeps i k s).2.2.1

/-- What a step of the engine does to `CONTROL`: nothing, or the line write of the phase's row. -/
theorem engineStep_control {s t : State} (h : engineStep s = .next t) :
    t.control = s.control ∨ ∃ r L b, s.row s.ph = some r ∧ r.action = .writeLine L b ∧
      t.control = s.control.writeMasked (lineMask s.params L) (lineValue s.params L b) := by
  have H : ∀ r i, s.row s.ph = some r → s.issueAction r.action = .access i → (accessEffect i s).control = s.control ∨ ∃ r L b, s.row s.ph = some r ∧ r.action = .writeLine L b ∧
      (accessEffect i s).control = s.control.writeMasked (lineMask s.params L) (lineValue s.params L b) := by
    intro r i hr ha
    rcases accessEffect_of_issue ha with ⟨v, -, -, -, h⟩ | ⟨-, -, h⟩ | ⟨L, b, hL, -, h⟩ <;> rw [h]
    · left; rfl
    · left; rfl
    · right; exact ⟨r, L, b, hr, hL, rfl⟩
  rcases engineStep_cases h with ⟨-, rfl⟩ | ⟨hp, rfl⟩ | ⟨hp, rfl⟩ | ⟨r, i, hr, ha, ⟨hok, rfl⟩ | ⟨k, hk, rfl⟩⟩
  · left; rfl
  · left; rfl
  · left; exact (settleUnit_keeps s).2.2.1
  · rw [(afterAccess_keeps r i s).2.2.1]; exact H r i hr ha
  · rw [failed_control]
    split
    · exact H r i hr ha
    · left; rfl

/-- A control write a row issues is the write of a line. -/
theorem accessEvent_sc {s : State} {r : Row} {i : Instr} (ha : s.issueAction r.action = .access i) {b : Byte}
    {o o' : PortOutcome} {m v : Byte} (h : accessEvent i b o = .sc m v o') :
    ∃ L b, r.action = .writeLine L b ∧ m = lineMask s.params L ∧ v = lineValue s.params L b := by
  rcases accessEffect_of_issue ha with ⟨v, -, -, rfl, -⟩ | ⟨-, rfl, -⟩ | ⟨L, b, hL, rfl, -⟩
  · cases h
  · cases o <;> cases h
  · simp only [lineWrite, accessEvent, lineValue_and_mask, Event.sc.injEq] at h
    exact ⟨L, b, hL, h.1.symm, h.2.1.symm⟩

/-- The events a step of the engine emits, and the answers it draws. -/
theorem engineStep_events {s t : State} (h : engineStep s = .next t) :
    (t.trace = s.trace ∧ t.env = s.env) ∨ (s.settleUnits ≠ 0#16 ∧ t.trace = s.trace ++ [.settle s.settleUnits] ∧ t.env = s.env) ∨
    ∃ r i o, s.row s.ph = some r ∧ s.issueAction r.action = .access i ∧ t.env = (envNext s.env).2 ∧ s.answer.outcome = o ∧
      (t.trace = s.trace ++ [accessEvent i s.answer.status o] ∨ (s.settleUnits ≠ 0#16 ∧ t.trace = s.trace ++ [accessEvent i s.answer.status o, .settle s.settleUnits])) := by
  rcases engineStep_cases h with ⟨-, rfl⟩ | ⟨hp, rfl⟩ | ⟨hp, rfl⟩ | ⟨r, i, hr, ha, ⟨hok, rfl⟩ | ⟨k, hk, rfl⟩⟩
  · left; exact ⟨rfl, rfl⟩
  · left; exact ⟨rfl, rfl⟩
  · have k := (settleUnit_keeps s).2.2.2.2.2.2.1
    rcases settleUnit_trace s with h | ⟨h0, -, h⟩
    · left; exact ⟨h, k⟩
    · right; left; exact ⟨h0, h, k⟩
  · right; right
    refine ⟨r, i, .ok, hr, ha, (afterAccess_keeps r i s).2.2.2.2.2.2.1, hok, ?_⟩
    rcases afterAccess_trace r i s with h | ⟨-, h0, h⟩
    · left; exact h
    · right; exact ⟨h0, h⟩
  · right; right
    refine ⟨r, i, .err k, hr, ha, ?_, hk, .inl ?_⟩
    · exact (failed_keeps i k s).2.2.2.2.2.2.2.2.2.2.1
    · exact (failed_keeps i k s).2.2.2.2.2.2.2.1

/-- Whose step it is: everything a step of the machine can do. -/
theorem step_cases {s t : State} (h : step s = .next t) :
    (s.host = [] ∧ engineStep s = .next t) ∨
    (∃ rest, s.host = .tick :: rest ∧ engineStep { s with host := rest } = .next t) ∨
    (∃ rest, s.host = .await :: rest ∧ s.ph ≠ .idle ∧ engineStep s = .next t) ∨
    (∃ rest, s.host = .reset :: rest ∧ t = { s.hostReset with host := rest }) ∨
    (∃ r rest i, s.ph = .idle ∧ s.host = .issue r :: rest ∧ decodeCommand r.word = .instr i ∧
      exec i (s.present r rest) = .next t) ∨
    (∃ r rest why, s.ph = .idle ∧ s.host = .issue r :: rest ∧ decodeCommand r.word = .rejected why ∧
      t = (s.present r rest).acceptIllegal) ∨
    (∃ m rest, s.ph = .idle ∧ s.host = m :: rest ∧
      (t = { s with host := rest } ∨ (∃ v, m = .otherWritesData v ∧ t = { s with host := rest }.writeData v) ∨
        ∃ k v, m = .otherWritesControl k v ∧ t = { s with host := rest }.writeControl k v)) := by
  unfold step State.turn at h
  cases hh : s.host with
  | nil => simp [hh] at h; simp [h]
  | cons m rest =>
    cases m with
    | issue r =>
      simp only [hh, State.issueTurn] at h
      by_cases hp : s.ph = .idle
      · simp only [hp, if_true] at h
        cases hd : decodeCommand r.word with
        | instr i => simp only [hd] at h; simp [hp, hd, h]
        | rejected why => simp only [hd, Host.Outcome.next.injEq] at h; simp [hp, hd, h]
      · simp [hp] at h
    | tick => simp only [hh] at h; simp [h]
    | await =>
      simp only [hh] at h
      by_cases hp : s.ph = .idle
      · simp only [hp, if_true, Host.Outcome.next.injEq] at h
        simp [hp, ← h]
      · simp only [hp, if_false] at h; simp [hp, h]
    | reset => simp only [hh, Host.Outcome.next.injEq] at h; simp [← h]
    | changeBuffer b =>
      simp only [hh, State.betweenCommands] at h
      by_cases hp : s.ph = .idle <;> simp [hp] at h
      simp [hp, ← h]
    | changeConfig b =>
      simp only [hh, State.betweenCommands] at h
      by_cases hp : s.ph = .idle <;> simp [hp] at h
      simp [hp, ← h]
    | otherWritesData v =>
      simp only [hh, State.betweenCommands] at h
      by_cases hp : s.ph = .idle <;> simp [hp] at h
      simp [hp, ← h]
    | otherWritesControl k v =>
      simp only [hh, State.betweenCommands] at h
      by_cases hp : s.ph = .idle <;> simp [hp] at h
      simp [hp, ← h]

/-- A command word decodes to a command. -/
theorem decodeCommand_command {w : CmdWord} {i : Instr} (h : decodeCommand w = .instr i) :
    i = .writeA ∨ i = .cmdB w.imm8 ∨ i = .dataB ∨ i = .writeC := by
  unfold decodeCommand at h
  repeat' split at h
  all_goals simp_all

theorem accept_next {c : Command} {f : Next} {s t : State} :
    accept c f s = .next t ↔ s.ph = .idle ∧ t = (s.clearSequencer (some c)).enter f := by
  unfold accept; split <;> simp_all [eq_comm]

theorem acceptSequence_next {c : Command} {f : Next} {s t : State} :
    acceptSequence c f s = .next t ↔
      s.ph = .idle ∧ fitsMaxLen s.params s.buf.length = true ∧ t = (s.clearSequencer (some c)).enter f := by
  unfold acceptSequence
  split
  · simp_all
  · rw [accept_next]
    simp_all

/-- Everything the acceptance of a command can do. -/
theorem exec_command_cases {i : Instr} {s t : State} {w : CmdWord} (hd : decodeCommand w = .instr i)
    (h : exec i s = .next t) :
    s.ph = .idle ∧ ∃ c f, t = (s.clearSequencer (some c)).enter f ∧
      ((c = .writeA ∧ f = afterSetup s.buf.length) ∨ ((∃ b, c = .cmdB b) ∧ f = .phase .selCs) ∨
        (c = .dataB ∧ f = .phase .selCs) ∨ (c = .writeC ∧ f = .phase .selAux)) := by
  rcases decodeCommand_command hd with rfl | rfl | rfl | rfl
  · obtain ⟨h1, -, h2⟩ := acceptSequence_next.1 h; exact ⟨h1, _, _, h2, by simp⟩
  · obtain ⟨h1, h2⟩ := accept_next.1 h; exact ⟨h1, _, _, h2, by simp⟩
  · obtain ⟨h1, -, h2⟩ := acceptSequence_next.1 h; exact ⟨h1, _, _, h2, by simp⟩
  · obtain ⟨h1, -, h2⟩ := acceptSequence_next.1 h; exact ⟨h1, _, _, h2, by simp⟩

/-! ## Runs, answers and settled traces -/

/-- A run in two parts. -/
theorem steps_add (m n : Nat) (s : State) : steps (m + n) s = (steps m s).bind (steps n) := by
  induction m generalizing s with
  | zero => simp [steps]
  | succ m ih =>
    rw [Nat.add_right_comm]
    simp only [steps]
    cases step s <;> simp [ih]

/-- The environment after answers in two parts. -/
theorem envAfter_add (m n : Nat) (e : Env) : envAfter (m + n) e = envAfter n (envAfter m e) := by
  induction m generalizing e with
  | zero => simp [envAfter]
  | succ m ih =>
    rw [Nat.add_right_comm]
    simp only [envAfter]
    rw [ih]

/-- A later answer is an answer of the later environment. -/
theorem nthDraw_add (m n : Nat) (e : Env) : nthDraw (m + n) e = nthDraw n (envAfter m e) := by
  induction m generalizing e with
  | zero => simp [envAfter]
  | succ m ih =>
    rw [Nat.add_right_comm]
    simp only [envAfter, nthDraw]
    rw [ih]

/-- Two settled traces make a settled trace. -/
theorem writesSettled_append {d : Units} {a b : List Event} (ha : writesSettled d a = true)
    (hb : writesSettled d b = true) : writesSettled d (a ++ b) = true := by
  induction a with
  | nil => exact hb
  | cons e es ih =>
    simp only [writesSettled, Bool.and_eq_true, List.cons_append] at ha ⊢
    refine ⟨?_, ih ha.2⟩
    rcases (Bool.or_eq_true _ _).mp ha.1 with h | h
    · simp [h]
    · cases es with
      | nil => simp [startsWithSettle] at h
      | cons x xs => cases x <;> simp_all [startsWithSettle]

end Sys2Proof.Machine
end

