-- ==== Sys2Proof/Tests/Slice0.lean ====
section
/-! SUPPORT. The model's own tests. Expected results are those of spec/95_test_vectors.md (its section is named at each)
or are worked out by hand from the rule named. The last part holds, for every statement with hypotheses, a concrete
state and operands that meet them. -/

namespace Sys2Proof.Tests

open Sys2Proof Sys2Proof.Machine

/-! ## Small states -/

/-- An answer that succeeds; a status read gets `b`. -/
def okDraw (b : Byte) : Draw := { outcome := .ok, status := b, applied := true }

/-- An answer that fails. -/
def errDraw (k : PortError) (applied : Bool) : Draw := { outcome := .err k, status := 0#8, applied := applied }

/-- Every access succeeds and every status read is not busy under `TC`. -/
def okEnv : Env := { queue := [], always := some (okDraw 0x80#8), drawn := 0 }

/-- Every access succeeds and every status read is busy under `TC`. -/
def busyEnv : Env := { queue := [], always := some (okDraw 0x00#8), drawn := 0 }

/-- The reset state under `TC` with known port registers and answers that succeed. -/
def idleState : State :=
  { State.reset with
    params := Config.tc, data := PortReg.write 0x00#8, control := PortReg.write 0x0E#8, env := okEnv }

/-- A command stands in a phase with a buffer, about to do that phase's action. -/
def inPhase (c : Command) (p : Phase) (buf : List Byte) : State :=
  { idleState with op := some c, ph := p, buf := buf }

/-- The same under answers of one's choice. -/
def inPhaseEnv (c : Command) (p : Phase) (buf : List Byte) (e : Env) : State := { inPhase c p buf with env := e }

/-- `TC` with `MAX_LEN` = 1. -/
def boundedTc : Params :=
  { stbBit := 0, a0Bit := 1, auxBit := 2, csBit := 3, busyBit := 7, busyActive := false, auxActive := false,
    maxLen := some 1, unitCycles := 1 }

/-- The next state, if there is one. -/
def nextOf (o : Host.Outcome State Fault Refusal) : Option State :=
  match o with
  | .next t => some t
  | .fault _ | .refused _ => none

/-- The refusal, if it is one. -/
def refusalOf (o : Host.Outcome State Fault Refusal) : Option Refusal :=
  match o with
  | .refused r => some r
  | .next _ | .fault _ => none

/-- A command executed and then `n` steps of the engine. -/
def runOf (i : Instr) (s : State) (n : Nat) : Option State := (nextOf (exec i s)).bind (steps n)

/-! ## Well-formedness: one ill-formed term for each check -/

/-- A mask of two bits (30_encoding.md R79; the word 0x30000300 of 95_test_vectors.md 2.2). -/
theorem test_wf_refuses_two_bit_mask : (Instr.sc 0x03#8 0x00#8).encodable = false := by decide
/-- A mask of no bit (R79). -/
theorem test_wf_refuses_empty_mask : (Instr.sc 0x00#8 0x00#8).encodable = false := by decide
/-- A value outside the mask (the word 0x30000103 of 95_test_vectors.md 2.2). -/
theorem test_wf_refuses_value_outside_mask : (Instr.sc 0x01#8 0x03#8).encodable = false := by decide
/-- One bit that is no line of `TC` (the word 0x30001000 of 95_test_vectors.md 2.2). -/
theorem test_wf_refuses_mask_of_no_line :
    (Instr.sc 0x10#8 0x00#8).encodable = true ∧ (Instr.sc 0x10#8 0x00#8).wf Config.tc = false := by decide
/-- A value outside the mask, under the parameters. -/
theorem test_wf_refuses_value_outside_line : (Instr.sc 0x08#8 0x01#8).wf Config.tc = false := by decide
/-- The five legal writes of `TC` with both STB and both A0 values. -/
theorem test_wf_accepts_line_writes :
    (Instr.sc 0x01#8 0x01#8).wf Config.tc = true ∧ (Instr.sc 0x02#8 0x00#8).wf Config.tc = true ∧
    (Instr.sc 0x04#8 0x00#8).wf Config.tc = true ∧ (Instr.sc 0x08#8 0x00#8).wf Config.tc = true := by decide

/-- The raw record of `TC` (00_scope.md R10). -/
def rawTc : RawParams :=
  { stbBit := 0, csBit := 3, a0Bit := 1, auxBit := 2, busyBit := 7, busyActive := 0, auxActive := 0, maxLen := none,
    unitCycles := 1 }

theorem test_params_accept_tc : rawTc.check = some Config.tc := by decide
/-- Two lines on one bit (10_state.md R23). -/
theorem test_params_refuse_shared_bit : ({ rawTc with csBit := 0 } : RawParams).check = none := by decide
/-- A line bit outside 0..7 (10_state.md R23). -/
theorem test_params_refuse_bit_8 : ({ rawTc with auxBit := 8 } : RawParams).check = none := by decide
theorem test_params_refuse_busy_bit_8 : ({ rawTc with busyBit := 8 } : RawParams).check = none := by decide
theorem test_params_refuse_polarity_2 :
    ({ rawTc with busyActive := 2 } : RawParams).check = none ∧
    ({ rawTc with auxActive := 2 } : RawParams).check = none := by decide
theorem test_params_refuse_max_len_0 : ({ rawTc with maxLen := some 0 } : RawParams).check = none := by decide
theorem test_params_refuse_unit_0 : ({ rawTc with unitCycles := 0 } : RawParams).check = none := by decide
/-- The two parts of the check, each on an ill-formed record. -/
theorem test_params_parts :
    ({ rawTc with csBit := 0 } : RawParams).lineMapOk = false ∧ ({ rawTc with busyBit := 8 } : RawParams).restOk = false ∧
    rawTc.lineMapOk = true ∧ rawTc.restOk = true := by decide

/-! ## Decoding: words written out from 30_encoding.md R63, R75 and 95_test_vectors.md 2.1, 2.2 -/

theorem test_decode_write_a : decode (.command 0b0001000000000000#16) = .instr .writeA := by decide
theorem test_decode_cmd_b : decode (.command 0b0010000000011111#16) = .instr (.cmdB 0x1F#8) := by decide
theorem test_decode_cmd_b_bounds :
    decode (.command 0x2000#16) = .instr (.cmdB 0x00#8) ∧ decode (.command 0x20FF#16) = .instr (.cmdB 0xFF#8) := by
  decide
theorem test_decode_data_b : decode (.command 0b0011000000000000#16) = .instr .dataB := by decide
theorem test_decode_write_c : decode (.command 0b0100000000000000#16) = .instr .writeC := by decide
theorem test_decode_wd :
    decode (.microOp 0b00010000000000000000000011111111#32) = .instr (.wd 0xFF#8) := by decide
theorem test_decode_rs : decode (.microOp 0b00100000000000000000000000000000#32) = .instr .rs := by decide
theorem test_decode_sc :
    decode (.microOp 0b00110000000000000000001000000010#32) = .instr (.sc 0x02#8 0x02#8) := by decide
theorem test_decode_settle :
    decode (.microOp 0b01000000000000001111111111111111#32) = .instr (.settle 0xFFFF#16) ∧
    decode (.microOp 0x40000001#32) = .instr (.settle 1#16) := by decide

/-- The illegal command words of 95_test_vectors.md 2.1, each with its cause. -/
theorem test_decode_illegal_commands :
    decodeCommand 0x1001#16 = .rejected .strayImmediate ∧ decodeCommand 0x2100#16 = .rejected .reservedField ∧
    decodeCommand 0x3F00#16 = .rejected .reservedField ∧ decodeCommand 0x4080#16 = .rejected .strayImmediate ∧
    decodeCommand 0x0000#16 = .rejected .reservedOpcode ∧ decodeCommand 0x5000#16 = .rejected .reservedOpcode ∧
    decodeCommand 0xF0FF#16 = .rejected .reservedOpcode := by decide
/-- The reserved micro-operation words of 95_test_vectors.md 2.2, each with its cause. -/
theorem test_decode_reserved_micro_ops :
    readTraceWord Config.tc 0x00000000#32 = .rejected .reservedKind ∧
    readTraceWord Config.tc 0x50000000#32 = .rejected .reservedKind ∧
    readTraceWord Config.tc 0x11000000#32 = .rejected .nonzeroZ ∧
    readTraceWord Config.tc 0x10000141#32 = .rejected .strayMask ∧
    readTraceWord Config.tc 0x20000001#32 = .rejected .strayValue ∧
    readTraceWord Config.tc 0x30000103#32 = .rejected .valueOutsideMask ∧
    readTraceWord Config.tc 0x30000300#32 = .rejected .maskNotOneBit ∧
    readTraceWord Config.tc 0x30001000#32 = .rejected .maskNotALine := by decide
/-- The row `SC` with operand bits 0 has mask 0, no line mask: a reserved word (30_encoding.md R79, log 13). -/
theorem test_table_word_of_sc_row :
    decodeTableWord 32 0x30000000 = none ∧ decodeTableWord 32 0x30000101 = some (.sc 0x01#8 0x01#8) := by decide
theorem test_table_word_lengths :
    decodeTableWord 16 0x1000 = some .writeA ∧ decodeTableWord 32 0x1000 = none ∧ decodeTableWord 8 0x10 = none := by
  decide

/-! ## Registers and the busy test (95_test_vectors.md 2.3) -/

theorem test_masked_write_known :
    (PortReg.write 0xFF#8).writeMasked 0x08#8 0x00#8 = PortReg.write 0xF7#8 ∧
    (PortReg.write 0x00#8).writeMasked 0x01#8 0xFF#8 = PortReg.write 0x01#8 ∧
    (PortReg.write 0x5A#8).writeMasked 0x00#8 0xFF#8 = PortReg.write 0x5A#8 := by decide
/-- `xxxxxxxx` becomes `xxxx0xxx`. -/
theorem test_masked_write_unknown :
    (PortReg.unknown.writeMasked 0x08#8 0x00#8).bit 3 = some false ∧
    ∀ k : Fin 8, k ≠ 3 → (PortReg.unknown.writeMasked 0x08#8 0x00#8).bit k = none := by decide
theorem test_busy :
    busy Config.tc 0x00#8 = true ∧ busy Config.tc 0x7F#8 = true ∧ busy Config.tc 0x80#8 = false ∧
    busy Config.tc 0xFF#8 = false := by decide
theorem test_register_numbers :
    registerName 0 = some "DATA" ∧ registerName 1 = some "STATUS" ∧ registerName 2 = some "CONTROL" ∧
    registerName 3 = none := by decide
theorem test_result_codes :
    Result.ok.code = 0#2 ∧ Result.portUnavailable.code = 1#2 ∧ Result.portIoFailure.code = 2#2 ∧
    Result.illegal.code = 3#2 := by decide

/-! ## One step of each instruction -/

/-- A2 of 95_test_vectors.md 2.4, first step. -/
theorem test_write_a_places :
    (runOf .writeA { idleState with buf := [0x41#8] } 1).map (fun t => (t.ph, t.data, t.trace)) =
      some (.poll, PortReg.write 0x41#8, [.wd 0x41#8 .ok]) := by decide
/-- A1: an empty `WRITE_A`. -/
theorem test_write_a_empty :
    (runOf .writeA idleState 1).map State.observation =
      some ([], .ok, PortReg.write 0x00#8, PortReg.write 0x0E#8) := by decide
/-- B1 of 2.5, first step: CS to 0. -/
theorem test_cmd_b_selects :
    (runOf (.cmdB 0x1F#8) idleState 1).map (fun t => (t.ph, t.control, t.trace)) =
      some (.selA0, PortReg.write 0x06#8, [.sc 0x08#8 0x00#8 .ok]) := by decide
/-- B1, whole. -/
theorem test_cmd_b_whole :
    (runOf (.cmdB 0x1F#8) idleState 6).map State.observation =
      some ([.sc 0x08#8 0x00#8 .ok, .sc 0x02#8 0x00#8 .ok, .wd 0x1F#8 .ok, .sc 0x01#8 0x01#8 .ok, .sc 0x01#8 0x00#8 .ok],
        .ok, PortReg.write 0x1F#8, PortReg.write 0x04#8) := by decide
/-- D1 of 2.6 from `CONTROL` = 0x00. -/
theorem test_data_b_empty :
    (runOf .dataB { idleState with control := PortReg.write 0x00#8 } 3).map State.observation =
      some ([.sc 0x08#8 0x00#8 .ok, .sc 0x02#8 0x02#8 .ok], .ok, PortReg.write 0x00#8, PortReg.write 0x02#8) := by decide
/-- D3 of 2.6, its second step: one settle unit after the chip-select write. -/
theorem test_data_b_settles :
    (runOf .dataB { idleState with buf := [0x33#8], cfg := { settleUnits := 1#16 } } 1).map
      (fun t => (t.ph, t.cnt, t.ret, t.trace)) =
      some (.settle, 1#16, some (.phase .selA0), [.sc 0x08#8 0x00#8 .ok, .settle 1#16]) := by decide
/-- C1 of 2.7. -/
theorem test_write_c_empty :
    (runOf .writeC { idleState with control := PortReg.write 0x0F#8 } 2).map State.observation =
      some ([.sc 0x04#8 0x00#8 .ok], .ok, PortReg.write 0x00#8, PortReg.write 0x0B#8) := by decide
/-- C5 of 2.7: the select write fails and is applied. -/
theorem test_write_c_fails :
    (runOf .writeC { idleState with buf := [0x01#8], env := { okEnv with queue := [errDraw .ioFailure true] } } 1).map
      State.observation =
      some ([.sc 0x04#8 0x00#8 (.err .ioFailure)], .portIoFailure, PortReg.write 0x00#8, PortReg.write 0x0A#8) := by decide

theorem test_wd : (nextOf (exec (.wd 0xAB#8) idleState)).map (fun t => (t.data, t.trace)) =
    some (PortReg.write 0xAB#8, [.wd 0xAB#8 .ok]) := by decide
/-- A5 of 2.4: the failed write that is not applied leaves `DATA`. -/
theorem test_wd_fails :
    (nextOf (exec (.wd 0x42#8) { idleState with env := { okEnv with queue := [errDraw .ioFailure false] } })).map
      State.observation =
      some ([.wd 0x42#8 (.err .ioFailure)], .portIoFailure, PortReg.write 0x00#8, PortReg.write 0x0E#8) := by decide
theorem test_rs : (nextOf (exec .rs idleState)).map (fun t => (t.trace, t.result)) =
    some ([.rs (some 0x80#8) .ok], .ok) := by decide
/-- A4 of 2.4: the failed read has no byte. -/
theorem test_rs_fails :
    (nextOf (exec .rs { idleState with env := { okEnv with queue := [errDraw .unavailable true] } })).map
      (fun t => (t.trace, t.result, t.ph)) = some ([.rs none (.err .unavailable)], .portUnavailable, .finished) := by decide
/-- The emitted value is masked (2.3). -/
theorem test_sc : (nextOf (exec (.sc 0x01#8 0xFF#8) idleState)).map (fun t => (t.control, t.trace)) =
    some (PortReg.write 0x0F#8, [.sc 0x01#8 0x01#8 .ok]) := by decide
/-- A8 of 2.4: a failed strobe write that is applied leaves STB high. -/
theorem test_sc_fails :
    (nextOf (exec (.sc 0x01#8 0x01#8) { idleState with env := { okEnv with queue := [errDraw .ioFailure true] } })).map
      (fun t => (t.control, t.result)) = some (PortReg.write 0x0F#8, .portIoFailure) := by decide
theorem test_settle :
    (nextOf (exec (.settle 3#16) (inPhase .writeC .selAux []))).map (fun t => (t.ph, t.cnt, t.ret, t.trace)) =
      some (.settle, 3#16, some .finish, [.settle 3#16]) := by decide
theorem test_settle_zero :
    (nextOf (exec (.settle 0#16) (inPhase .writeC .selAux []))).map (fun t => (t.ph, t.trace)) =
      some (.finished, []) := by decide

/-! ## Text (30_encoding.md R72, R73, R78) -/

theorem test_assemble_cmd_b :
    assembleLine "CMD_B 0x1F settle=3 ; clear" =
      .command { word := 0x201F#16, buf := [], cfg := { settleUnits := 3#16 } } := by decide
/-- P5 of 95_test_vectors.md: `WRITE B` is `DATA_B`. -/
theorem test_assemble_write_b :
    assembleLine "WRITE B, [0x7E]" = .command { word := 0x3000#16, buf := [0x7E#8], cfg := { settleUnits := 0#16 } } := by
  decide
/-- A settle count is written in decimal (log 15). -/
theorem test_trace_settle_text : renderTrace [.settle 0xFFFF#16] = "SETTLE 65535" := by decide
/-- A literal may have leading zeros (log 15). -/
theorem test_literal_digits :
    readByte "0x5" = some 0x05#8 ∧ readByte "0x0041" = some 0x41#8 ∧ readByte "007" = some 0x07#8 ∧
    readByte "256" = none := by decide
/-- A4 of 95_test_vectors.md 2.4. -/
theorem test_trace_text :
    renderTrace [.wd 0x41#8 .ok, .rs none (.err .unavailable)] = "WD 0x41; RS -> !PORT_UNAVAILABLE" := by decide

/-! ## Witnesses of the statements' hypotheses -/

theorem witness_DecodeOfEncode :
    (Instr.sc 0x80#8 0x80#8).encodable = true ∧ (Instr.sc 0x01#8 0x00#8).encodable = true ∧
    (Instr.sc 0x08#8 0x00#8).wf Config.tc = true ∧ (Instr.settle 0xFFFF#16).encodable = true := by decide

theorem witness_EncodeOfDecode : decode (.command 0x20FF#16) = .instr (.cmdB 0xFF#8) ∧
    decode (.microOp 0x30008080#32) = .instr (.sc 0x80#8 0x80#8) := by decide

/-- A word for each clause of CommandDecoding. -/
theorem witness_CommandDecoding :
    (0x2100#16).extractLsb' 8 4 ≠ 0#4 ∧
    ((0x1000#16).extractLsb' 8 4 = 0#4 ∧ (0x1000#16).extractLsb' 12 4 = 0x1#4 ∧ (0x1000#16).extractLsb' 0 8 = 0#8) ∧
    ((0x20FF#16).extractLsb' 8 4 = 0#4 ∧ (0x20FF#16).extractLsb' 12 4 = 0x2#4) ∧
    ((0x3000#16).extractLsb' 8 4 = 0#4 ∧ (0x3000#16).extractLsb' 12 4 = 0x3#4 ∧ (0x3000#16).extractLsb' 0 8 = 0#8) ∧
    ((0x4000#16).extractLsb' 8 4 = 0#4 ∧ (0x4000#16).extractLsb' 12 4 = 0x4#4 ∧ (0x4000#16).extractLsb' 0 8 = 0#8) ∧
    ((0x1001#16).extractLsb' 8 4 = 0#4 ∧ (0x1001#16).extractLsb' 12 4 = 0x1#4 ∧ (0x1001#16).extractLsb' 0 8 ≠ 0#8) ∧
    ((0x5000#16).extractLsb' 8 4 = 0#4 ∧ (0x5000#16).extractLsb' 12 4 = 0x5#4) := by decide

/-- A word for each row of OpcodeTableRows, and for each of the two ways an `SC` word is reserved. -/
theorem witness_OpcodeTableRows :
    0x1000#16 &&& 0xFFFF#16 = 0x1000#16 ∧ 0x20FF#16 &&& 0xFF00#16 = 0x2000#16 ∧ 0x3000#16 &&& 0xFFFF#16 = 0x3000#16 ∧
    0x4000#16 &&& 0xFFFF#16 = 0x4000#16 ∧ 0x100000FF#32 &&& 0xFFFFFF00#32 = 0x10000000#32 ∧
    0x20000000#32 &&& 0xFFFFFFFF#32 = 0x20000000#32 ∧
    (0x30008080#32 &&& 0xFFFF0000#32 = 0x30000000#32 ∧ (∃ k : Fin 8, (0x30008080#32).extractLsb' 8 8 = bitMask k) ∧
      (0x30008080#32).extractLsb' 0 8 &&& ~~~((0x30008080#32).extractLsb' 8 8) = 0#8) ∧
    (0x30000300#32 &&& 0xFFFF0000#32 = 0x30000000#32 ∧ ¬∃ k : Fin 8, (0x30000300#32).extractLsb' 8 8 = bitMask k) ∧
    (0x30000103#32 &&& 0xFFFF0000#32 = 0x30000000#32 ∧
      (0x30000103#32).extractLsb' 0 8 &&& ~~~((0x30000103#32).extractLsb' 8 8) ≠ 0#8) ∧
    0x4000FFFF#32 &&& 0xFFFF0000#32 = 0x40000000#32 := by decide

/-- The invariant of a state, from its four parts. -/
theorem inv_of {s : State} (h : s.data.wf = true ∧ s.control.wf = true ∧ s.trace.all (Event.legal s.params) = true ∧
    s.sequencerFits = true) : s.Inv := ⟨h.1, h.2.1, h.2.2.1, h.2.2.2⟩

/-- A running command that meets the invariant, with a next state whose trace has an event. -/
theorem witness_EveryStepKeepsInvariant :
    (inPhase .writeA .place [0x41#8]).Inv ∧
    (nextOf (step (inPhase .writeA .place [0x41#8]))).map (fun t => t.trace) = some [.wd 0x41#8 .ok] :=
  ⟨inv_of (by decide), by decide⟩

theorem witness_ReservedMicroOpWords :
    (inPhase (.cmdB 0x1F#8) .selCs []).Inv ∧
    (nextOf (step (inPhase (.cmdB 0x1F#8) .selCs []))).map (fun t => t.trace.map Event.word) = some [0x30000800#32] :=
  ⟨inv_of (by decide), by decide⟩

theorem witness_ParameterCheck : rawTc.check = some Config.tc := by decide

theorem witness_ResetEvent :
    ({ inPhase .writeA .poll [0x41#8] with host := [.reset] } : State).host = .reset :: [] ∧
    idleState.ph = .idle ∧ (∀ r rest, idleState.host ≠ .issue r :: rest) ∧
    (nextOf (step idleState)).isSome = true := 
  ⟨by decide, by decide, fun _ _ h => (by cases h), by decide⟩

/-- Every case of OnlyMisuseIsRefused occurs in a state of the invariant. -/
theorem witness_OnlyMisuseIsRefused :
    idleState.Inv ∧ ({ inPhase .writeA .poll [0x41#8] with host := [.issue { word := 0x1000#16 }] } : State).Inv ∧
    refusalOf (step { inPhase .writeA .poll [0x41#8] with host := [.issue { word := 0x1000#16 }] }) =
      some .commandWhileBusy ∧
    refusalOf (step { inPhase .writeA .poll [0x41#8] with host := [.changeBuffer []] }) = some .bufferChanged ∧
    refusalOf (step { inPhase .writeA .poll [0x41#8] with host := [.changeConfig {}] }) = some .configChanged ∧
    refusalOf (step { inPhase .writeA .poll [0x41#8] with host := [.otherWritesData 0#8] }) = some .portShared ∧
    refusalOf (step { inPhase .writeA .poll [0x41#8] with host := [.otherWritesControl 1#8 0#8] }) = some .portShared ∧
    refusalOf (step { idleState with
      params := boundedTc, host := [.issue { word := 0x3000#16, buf := [1#8, 2#8] }] }) = some .bufferTooLong :=
  ⟨inv_of (by decide), inv_of (by decide), by decide, by decide, by decide, by decide, by decide, by decide⟩

theorem witness_PresentedCommandRuns :
    idleState.ph = .idle ∧ decodeCommand 0x201F#16 = .instr (.cmdB 0x1F#8) ∧
    (nextOf (step { idleState with host := [.issue { word := 0x201F#16 }] })).map (fun t => t.ph) = some .selCs := by
  decide

/-- A word of each row, and that the next step runs it. -/
theorem witness_FetchedWordRuns :
    decodeTableWord 16 0x4000 = some .writeC ∧ decodeTableWord 32 0x100000FF = some (.wd 0xFF#8) ∧
    decodeTableWord 32 0x20000000 = some .rs ∧ decodeTableWord 32 0x30008000 = some (.sc 0x80#8 0x00#8) ∧
    decodeTableWord 32 0x40000003 = some (.settle 3#16) ∧
    (nextOf (step (idleState.withFetchWord 32 0x30008000))).map (fun t => t.trace) = some [.sc 0x80#8 0x00#8 .ok] ∧
    (nextOf (step (idleState.withFetchWord 32 0x40000003))).map (fun t => t.trace) = some [.settle 3#16] ∧
    (nextOf (step (idleState.withFetchWord 32 0x20000000))).map (fun t => t.trace) = some [.rs (some 0x80#8) .ok] := by
  decide

/-- An issued access of each kind, one that fails among them. -/
theorem witness_SequencerRunsIssuedAccess :
    (inPhase .writeA .place [0x41#8]).issue = .access (.wd 0x41#8) ∧ (inPhase .writeA .poll [0x41#8]).issue = .access .rs ∧
    (inPhase .dataB .selA0 []).issue = .access (.sc 0x02#8 0x02#8) ∧ idleState.host = [] := by decide

theorem witness_IllegalWordAnswered :
    idleState.ph = .idle ∧ decodeCommand 0x5000#16 = .rejected .reservedOpcode ∧
    (steps 2 { idleState with host := [.issue { word := 0x5000#16 }] }).map (fun t => (t.ph, t.result, t.trace)) =
      some (.idle, .illegal, []) := by decide

theorem witness_MisuseWhileRunningIsRefused : (inPhase .writeA .poll [0x41#8]).ph ≠ .idle := by decide

theorem witness_EndReturnsToIdle :
    (inPhase .writeA .finished [0x41#8]).host = [] ∧ (inPhase .writeA .finished [0x41#8]).ph = .finished := by decide

/-- A buffer of exactly `MAX_LEN` bytes is accepted, of one more is refused, of none is accepted. -/
theorem witness_CommandsAreAccepted_Refused :
    (∀ k, boundedTc.maxLen = some k → [1#8].length ≤ k) ∧
    (nextOf (exec .dataB { idleState with params := boundedTc, buf := [1#8] })).isSome = true ∧
    (nextOf (exec .writeA { idleState with params := boundedTc })).isSome = true ∧
    (idleState.ph = .idle ∧ boundedTc.maxLen = some 1 ∧ 1 < [1#8, 2#8].length) ∧
    refusalOf (exec .writeC { idleState with params := boundedTc, buf := [1#8, 2#8] }) = some .bufferTooLong :=
  ⟨fun k h => by cases h; decide, by decide, by decide, by decide, by decide⟩

theorem witness_EmptyWriteA : idleState.ph = .idle ∧ idleState.host = [] ∧ idleState.buf = [] := by decide

/-- An answer that succeeds, and one that fails with each error. -/
theorem witness_AccessResults :
    (envNext okEnv).1.outcome = .ok ∧
    (envNext { okEnv with queue := [errDraw .unavailable false] }).1.outcome = .err .unavailable ∧
    (envNext { okEnv with queue := [errDraw .ioFailure true] }).1.outcome = .err .ioFailure ∧
    idleState.control.wf = true := by decide

theorem witness_SettleResult : (nextOf (exec (.settle 0xFFFF#16) idleState)).isSome = true ∧ (0xFFFF#16 ≠ 0#16) := by
  decide

theorem witness_MaskedWriteLaws : 0x01#8 &&& 0x08#8 = 0#8 := by decide

theorem witness_BusyIsOneBit : (0x80#8).getLsbD Config.tc.busyBit.val = (0xFF#8).getLsbD Config.tc.busyBit.val := by decide

/-- A failing access of each kind. -/
theorem witness_FailedAccessAborts :
    (inPhaseEnv .writeA .place [0x41#8] { okEnv with queue := [errDraw .ioFailure false] }).issue = .access (.wd 0x41#8) ∧
    (inPhaseEnv .writeA .poll [0x41#8] { okEnv with queue := [errDraw .unavailable true] }).issue = .access .rs ∧
    (inPhaseEnv .writeC .selAux [] { okEnv with queue := [errDraw .ioFailure true] }).issue =
      .access (.sc 0x04#8 0x00#8) ∧
    (envNext (inPhaseEnv .writeC .selAux [] { okEnv with queue := [errDraw .ioFailure true] }).env).1.outcome =
      .err .ioFailure := by decide

/-- A write phase in Protocol A, one in Protocol B with a settle wait, a status read, and a settle wait. -/
theorem witness_SettleFollowsEveryWrite :
    ((inPhase .writeA .stbHi [0x41#8]).row .stbHi = some strobeHiRow ∧ strobeHiRow.action ≠ .readStatus ∧
      (inPhase .writeA .stbHi [0x41#8]).issue = .access (.sc 0x01#8 0x01#8)) ∧
    (({ inPhase .dataB .stbHi [0x41#8] with cfg := { settleUnits := 2#16 } } : State).row .stbHi = some strobeHiRow ∧
      ({ inPhase .dataB .stbHi [0x41#8] with cfg := { settleUnits := 2#16 } } : State).issue =
        .access (.sc 0x01#8 0x01#8)) ∧
    (inPhase .writeA .poll [0x41#8]).issue = .access .rs ∧
    (({ inPhase .dataB .settle [0x41#8] with cnt := 1#16, ret := some .byteDone } : State).ph = .settle) := by decide

/-- A wait of one unit and of the most units. -/
theorem witness_SettleWaitEnds :
    ({ inPhase .dataB .settle [0x41#8] with cnt := 1#16, ret := some .byteDone } : State).cnt ≠ 0#16 ∧
    ({ inPhase .dataB .settle [0x41#8] with cnt := 0xFFFF#16, ret := some .byteDone } : State).cnt ≠ 0#16 ∧
    steps 1 { inPhase .dataB .settle [0x41#8] with cnt := 1#16, ret := some .byteDone } =
      some { inPhase .dataB .finished [0x41#8] with idx := 1, ret := some .byteDone } := by decide

theorem witness_BusyPoll :
    (inPhase .writeA .place [0x41#8]).idx < (inPhase .writeA .place [0x41#8]).buf.length ∧
    (nextOf (step (inPhaseEnv .writeA .poll [0x41#8] okEnv))).map (fun t => t.ph) = some .stbHi ∧
    (nextOf (step (inPhaseEnv .writeA .poll [0x41#8] busyEnv))).map (fun t => t.ph) = some .poll ∧
    (inPhaseEnv .writeA .poll [0x41#8] busyEnv).sequencerFits = true := by decide

/-- A7 of 95_test_vectors.md 2.4, for two reads. -/
theorem witness_BusyForeverHangs :
    (∀ j, j < 2 → (nthDraw j busyEnv).outcome = .ok ∧ busy Config.tc (nthDraw j busyEnv).status = true) ∧
    (steps 2 (inPhaseEnv .writeA .poll [0x41#8] busyEnv)).map (fun t => (t.ph, t.trace)) =
      some (.poll, [.rs (some 0x00#8) .ok, .rs (some 0x00#8) .ok]) := by decide

/-- A byte that is not the last, the last byte, and the settle wait after a strobe. -/
theorem witness_ByteDone :
    ((inPhase .writeA .stbLo [1#8, 2#8]).idx + 1 < (inPhase .writeA .stbLo [1#8, 2#8]).total ∧
      (inPhase .writeA .stbLo [1#8, 2#8]).settleUnits = 0#16) ∧
    (inPhase .writeA .stbLo [1#8]).total ≤ (inPhase .writeA .stbLo [1#8]).idx + 1 ∧
    (nextOf (step (inPhase .writeA .stbLo [1#8, 2#8]))).map (fun t => (t.ph, t.idx)) = some (.place, 1) ∧
    (nextOf (step { inPhase .writeC .settle [1#8] with cnt := 1#16, ret := some .byteDone })).map
      (fun t => (t.ph, t.idx, t.result)) = some (.finished, 1, .ok) := by decide

/-- A step that writes a line, and a bit that is no line. -/
theorem witness_OnlyLineBitsChange :
    (inPhase .writeC .selAux []).portIsEngines = true ∧ (nextOf (step (inPhase .writeC .selAux []))).isSome = true ∧
    ((4 : Fin 8) ≠ Config.tc.stbBit ∧ (4 : Fin 8) ≠ Config.tc.csBit ∧ (4 : Fin 8) ≠ Config.tc.a0Bit ∧
      (4 : Fin 8) ≠ Config.tc.auxBit) := by decide

theorem witness_EachProtocolKeepsToItsLines :
    (inPhase .writeC .selAux []).op = some .writeC ∧ (inPhase .writeC .selAux []).ph ≠ .idle ∧
    (steps 1 (inPhase .writeC .selAux [])).isSome = true ∧
    (∀ L ∈ protocolLines .writeC, (3 : Fin 8) ≠ Config.tc.lineBit L) := by decide

theorem witness_OnlySixControlWrites :
    (nextOf (step (inPhase .dataB .selA0 []))).map (fun t => decide (Event.sc 0x02#8 0x02#8 .ok ∈ t.trace)) =
      some true := by decide

theorem witness_OneAccessPerStep :
    (nextOf (engineStep { inPhase .dataB .selA0 [] with cfg := { settleUnits := 1#16 } })).map (fun t => t.trace) =
      some [.sc 0x02#8 0x02#8 .ok, .settle 1#16] := by decide

theorem witness_ParametersNeverChange : (nextOf (step { idleState with host := [.await] })).map (fun t => t.host) =
    some [] := by decide

theorem witness_SelectsStayAsserted :
    (inPhaseEnv .writeA .stbHi [1#8] okEnv).portIsEngines = true ∧
    (PortReg.write 0x00#8).bit Config.tc.csBit = some false ∧
    (PortReg.write 0x00#8).bit Config.tc.auxBit = some Config.tc.auxActive ∧
    (nextOf (step { inPhase .writeA .stbHi [1#8] with control := PortReg.write 0x00#8 })).isSome = true := by decide

/-- A state with a failed last event. -/
theorem witness_ErrorsArePrecise :
    ({ inPhase .writeA .finished [1#8] with
        trace := [.wd 1#8 .ok, .rs none (.err .unavailable)], result := .portUnavailable } : State).Precise := by
  constructor
  · intro e he
    have : e = .wd 1#8 .ok := by simpa [inPhase, idleState] using he
    rw [this]; rfl
  · intro e k he hk
    have : e = .rs none (.err .unavailable) := by simpa [inPhase, idleState, eq_comm] using he
    subst this
    have : k = .unavailable := by simpa [Event.outcome, eq_comm] using hk
    subst this
    decide
  · intro h
    exact absurd rfl h

/-- B4 of 95_test_vectors.md 2.5 at its end: a failed write after two that have their settle waits. -/
def b4End : State :=
  { inPhase (.cmdB 0x1F#8) .finished [] with
    cfg := { settleUnits := 1#16 }, result := .portIoFailure
    trace := [.sc 0x08#8 0x00#8 .ok, .settle 1#16, .sc 0x02#8 0x00#8 .ok, .settle 1#16, .wd 0x1F#8 (.err .ioFailure)] }

theorem witness_ErrorsArePrecise_settled :
    b4End.Precise ∧ b4End.settleUnits ≠ 0#16 ∧ (nextOf (step b4End)).isSome = true ∧
    writesSettled 1#16 [.sc 0x08#8 0x00#8 .ok, .wd 0x1F#8 (.err .ioFailure)] = false := by
  refine ⟨⟨by decide, ?_, fun _ => by decide⟩, by decide, by decide, by decide⟩
  intro e k he hk
  have : e = .wd 0x1F#8 (.err .ioFailure) := by simpa [b4End, eq_comm] using he
  subst this
  have : k = .ioFailure := by simpa [Event.outcome, eq_comm] using hk
  subst this
  decide

/-- A command with one byte strobed that goes on with the second. -/
theorem witness_StrobesAreCounted :
    ({ inPhase .dataB .place [1#8, 2#8] with idx := 1, trace := [.sc 0x01#8 0x00#8 .ok] } : State).StrobesCounted ∧
    (nextOf (step { inPhase .dataB .place [1#8, 2#8] with idx := 1, trace := [.sc 0x01#8 0x00#8 .ok] })).isSome = true :=
  ⟨fun _ => by decide, by decide⟩

/-- A byte placed and about to be strobed. -/
theorem witness_DataIsHeld :
    ({ inPhase .dataB .stbHi [1#8] with data := PortReg.write 1#8 } : State).HoldsByte ∧
    ({ inPhase .dataB .stbHi [1#8] with data := PortReg.write 1#8 } : State).strobing = true ∧
    (nextOf (step { inPhase .dataB .stbHi [1#8] with data := PortReg.write 1#8 })).isSome = true := by
  refine ⟨fun _ b hb => ?_, by decide, by decide⟩
  have : b = 1#8 := by cases hb; rfl
  rw [this]

/-- One byte by each command, to `END` with `OK`: the premises of the whole-run statements, of CountLaws and of
CommandsRepeat. -/
theorem witness_WholeRuns :
    (runOf .writeA { idleState with buf := [0x41#8] } 4).map (fun t => (t.ph, t.result)) = some (.finished, .ok) ∧
    (runOf (.cmdB 0x1F#8) idleState 5).map (fun t => (t.ph, t.result)) = some (.finished, .ok) ∧
    (runOf .dataB { idleState with buf := [0x33#8] } 5).map (fun t => (t.ph, t.result)) = some (.finished, .ok) ∧
    (runOf .writeC { idleState with buf := [0x01#8] } 4).map (fun t => (t.ph, t.result)) = some (.finished, .ok) := by
  decide

/-- The same with a settle wait of one unit after each write of Protocols B and C. -/
theorem witness_WholeRuns_settled :
    (runOf (.cmdB 0x1F#8) { idleState with cfg := { settleUnits := 1#16 } } 10).map (fun t => (t.ph, t.result)) =
      some (.finished, .ok) ∧
    (runOf .dataB { idleState with buf := [0x33#8], cfg := { settleUnits := 1#16 } } 10).map
      (fun t => (t.ph, t.result)) = some (.finished, .ok) ∧
    (runOf .writeC { idleState with buf := [0x01#8], cfg := { settleUnits := 1#16 } } 8).map
      (fun t => (t.ph, t.result)) = some (.finished, .ok) := by decide

/-- With an empty buffer: after the select writes alone. -/
theorem witness_WholeRuns_empty :
    (runOf .writeA idleState 0).map (fun t => (t.ph, t.result)) = some (.finished, .ok) ∧
    (runOf .dataB idleState 2).map (fun t => (t.ph, t.result)) = some (.finished, .ok) ∧
    (runOf .writeC idleState 1).map (fun t => (t.ph, t.result)) = some (.finished, .ok) := by decide

/-- Two states that differ in `CONTROL`, `RESULT` and the old trace and agree in the rest. -/
theorem witness_CommandsRepeat :
    (runOf (.cmdB 0x10#8) idleState 1).map (fun t => t.trace) =
    (runOf (.cmdB 0x10#8) { idleState with
      control := PortReg.unknown, result := .illegal, trace := [.settle 1#16] } 1).map (fun t => t.trace) ∧
    (runOf (.cmdB 0x10#8) idleState 1).isSome = true := by decide

/-- Answers that succeed, for as many accesses as a one-byte command makes. -/
theorem witness_ProtocolsBAndCComplete :
    idleState.host = [] ∧ idleState.ph = .idle ∧ (nextOf (exec .dataB { idleState with buf := [0x33#8] })).isSome = true ∧
    (∀ j, j < 5 → (nthDraw j okEnv).outcome = .ok) := by decide

/-- A3 of 95_test_vectors.md 2.4: three busy reads with different bytes, then one that is not busy. -/
def a3Env : Env :=
  { queue := [okDraw 0#8, okDraw 0x00#8, okDraw 0x7F#8, okDraw 0x00#8, okDraw 0x80#8, okDraw 0#8, okDraw 0#8],
    always := none, drawn := 0 }

theorem witness_WriteACompletes :
    [3].length = [0x41#8].length ∧ servesPolls Config.tc [3] a3Env ∧
    (runOf .writeA { idleState with buf := [0x41#8], env := a3Env } 7).map (fun t => (t.ph, t.result, t.trace)) =
      some (.finished, .ok, [.wd 0x41#8 .ok, .rs (some 0x00#8) .ok, .rs (some 0x7F#8) .ok, .rs (some 0x00#8) .ok,
        .rs (some 0x80#8) .ok, .sc 0x01#8 0x01#8 .ok, .sc 0x01#8 0x00#8 .ok]) :=
  ⟨by decide, ⟨by decide, by decide, by decide, trivial⟩, by decide⟩

/-- An environment held in `always` serves two bytes with no busy read, and any environment serves no byte. -/
theorem witness_WriteACompletes_always :
    servesPolls Config.tc [0, 0] okEnv ∧ servesPolls Config.tc [] busyEnv ∧
    (nextOf (exec .writeA { idleState with buf := [1#8, 2#8] })).isSome = true :=
  ⟨⟨by decide, by decide, by decide, by decide, by decide, by decide, trivial⟩, trivial, by decide⟩

/-- The word of A3, and the empty word. -/
theorem witness_EveryWriteATraceOccurs :
    idleState.host = [] ∧ idleState.ph = .idle ∧ (∀ k, idleState.params.maxLen = some k → [0x41#8].length ≤ k) ∧
    WriteATrace Config.tc [0x41#8] (polledByte Config.tc 0x41#8 [0x00#8, 0x7F#8, 0x00#8] 0x80#8 ++ []) ∧
    WriteATrace Config.tc [] [] :=
  ⟨by decide, by decide, fun _ h => (by cases h), .cons _ _ _ _ _ (by decide) (by decide) .nil, .nil⟩

theorem witness_AssemblerEmitsLegalWords :
    assembleLine "WRITE_C [1, 0x02] settle=1" =
      .command { word := 0x4000#16, buf := [0x01#8, 0x02#8], cfg := { settleUnits := 1#16 } } := by decide

end Sys2Proof.Tests
end

/-! ## The parameters and the host's moves (00_scope.md R8) -/

namespace Sys2Proof.Machine

/-- The acceptance of a command keeps the parameter record. -/
theorem exec_command_params {i : Instr} {s t : State} {w : CmdWord} (hd : decodeCommand w = .instr i)
    (h : exec i s = .next t) : t.params = s.params := by
  obtain ⟨-, c, f, rfl, -⟩ := exec_command_cases hd h
  simp

/-- The acceptance of a command leaves the host's later moves lined up. -/
theorem exec_command_host {i : Instr} {s t : State} {w : CmdWord} (hd : decodeCommand w = .instr i)
    (h : exec i s = .next t) : t.host = s.host := by
  obtain ⟨-, c, f, rfl, -⟩ := exec_command_cases hd h
  simp

/-- Whoever the step belongs to (the engine, or the host's next move), the parameter record stays. -/
theorem step_params {s t : State} (h : step s = .next t) : t.params = s.params := by
  obtain ⟨-, he⟩ | ⟨rest, -, he⟩ | ⟨rest, -, -, he⟩ | ⟨rest, -, rfl⟩ | ⟨r, rest, i, -, -, hd, he⟩ |
    ⟨r, rest, why, -, -, -, rfl⟩ | ⟨m, rest, -, -, rfl | ⟨v, -, rfl⟩ | ⟨k, v, -, rfl⟩⟩ := step_cases h
  · exact engineStep_params he
  · exact engineStep_params (s := { s with host := rest }) he
  · exact engineStep_params he
  · rfl
  · exact (exec_command_params hd he).trans (s.present_params r rest)
  all_goals rfl

/-- The host's next move is taken or stays: it stays in a step of the engine while the host has no move or awaits the
end of a command, and every other step takes it (log 4). -/
theorem step_host {s t : State} (h : step s = .next t) : t.host = s.host ∨ t.host = s.host.tail := by
  obtain ⟨-, he⟩ | ⟨rest, hs, he⟩ | ⟨rest, -, -, he⟩ | ⟨rest, hs, rfl⟩ | ⟨r, rest, i, -, hs, hd, he⟩ |
    ⟨r, rest, why, -, hs, -, rfl⟩ | ⟨m, rest, -, hs, rfl | ⟨v, -, rfl⟩ | ⟨k, v, -, rfl⟩⟩ := step_cases h
  · exact .inl (engineStep_host he)
  · exact .inr (by rw [engineStep_host he, hs, List.tail_cons])
  · exact .inl (engineStep_host he)
  · exact .inr (by rw [hs, List.tail_cons])
  · exact .inr (by rw [exec_command_host hd he, s.present_host, hs, List.tail_cons])
  all_goals exact .inr (by rw [hs]; rfl)

/-- Settles O39, by what a step can do (`step_cases`): each case keeps the record and takes one move or none. -/
theorem parametersNeverChange : Obligations.ParametersNeverChange := by
  unfold Obligations.ParametersNeverChange
  exact fun _ _ h => ⟨step_params h, step_host h⟩

end Sys2Proof.Machine

/-! ## The state at reset and the invariant every step keeps (10_state.md) -/

namespace Sys2Proof.Machine

/-! ### Where the sequencer may stand, phase by phase -/

theorem State.sequencerFits_idle {s : State} (h : s.ph = .idle) :
    s.sequencerFits = true ↔ s.op = none ∧ s.buf = [] ∧ s.cfg = {} := by
  simp [State.sequencerFits, h, and_assoc]

theorem State.sequencerFits_finished {s : State} (h : s.ph = .finished) :
    s.sequencerFits = true ↔ s.op = none ∨ s.idx ≤ s.total := by
  simp [State.sequencerFits, h]

theorem State.sequencerFits_settle {s : State} (h : s.ph = .settle) :
    s.sequencerFits = true ↔
      s.cnt ≠ 0#16 ∧ s.cnt ≤ s.settleUnits ∧ ∃ n, s.ret = some n ∧ s.retFits n = true := by
  cases hr : s.ret <;> simp [State.sequencerFits, h, hr, and_assoc]

/-- In a phase of a transition table the sequencer fits as far as the byte index fits. -/
theorem State.sequencerFits_row {s : State} {r : Row} (h : s.row s.ph = some r) :
    s.sequencerFits = s.indexFits s.ph := by
  obtain ⟨hi, hs, hf⟩ := State.row_some_phase h
  unfold State.sequencerFits
  split <;> simp_all [State.phaseFits]

theorem State.indexFits_congr {s t : State} (ho : t.op = s.op) (hb : t.buf = s.buf) (hi : t.idx = s.idx) (p : Phase) :
    t.indexFits p = s.indexFits p := by
  cases p <;> simp [State.indexFits, hi, State.total_congr ho hb]

theorem State.retFits_congr {s t : State} (ho : t.op = s.op) (hb : t.buf = s.buf) (hi : t.idx = s.idx)
    (hp : t.params = s.params) (n : Next) : t.retFits n = s.retFits n := by
  cases n <;>
    simp [State.retFits, State.phaseFits, State.row_congr ho hb hp, State.indexFits_congr ho hb hi, ho, hi,
      State.total_congr ho hb]

/-- In a phase of a transition table the byte index is at most `N` (10_state.md R31). -/
theorem State.idx_le_total_of_indexFits {s : State} {p : Phase} (h : s.indexFits p = true) : s.idx ≤ s.total := by
  cases p <;> simp [State.indexFits] at h <;> omega

/-! ### Entering what comes next -/

/-- A command with a byte to send has a row for placing it. -/
theorem State.row_place_isSome {s : State} (h : 0 < s.total) : (s.row .place).isSome = true := by
  unfold State.total at h
  unfold State.row
  split <;> simp_all [rowWriteA, rowCmdB, rowDataB, rowWriteC]

theorem State.sequencerFits_enter_phase {s : State} {p : Phase} (h : s.phaseFits p = true) :
    ({ s with ph := p } : State).sequencerFits = true := by
  simp only [State.phaseFits, Bool.and_eq_true, Option.isSome_iff_exists] at h
  obtain ⟨⟨r, hr⟩, hi⟩ := h
  exact (State.sequencerFits_row (s := { s with ph := p }) hr).trans hi

/-- `byte_done` while a byte is sent leads to the next byte or to the end (40_port_ops.md R91). -/
theorem State.sequencerFits_byteDone {s : State} (h : s.idx < s.total) : s.byteDone.sequencerFits = true := by
  unfold State.byteDone
  split
  · next hlt =>
    refine State.sequencerFits_enter_phase (s := { s with idx := s.idx + 1 }) ?_
    have hrow : (s.row .place).isSome = true := State.row_place_isSome (by omega)
    simpa [State.phaseFits, State.indexFits] using ⟨hrow, hlt⟩
  · exact (State.sequencerFits_finished rfl).2 (.inr h)

/-- Whatever a settle wait may lead to can be entered. -/
theorem State.sequencerFits_enter {s : State} {n : Next} (h : s.retFits n = true) :
    (s.enter n).sequencerFits = true := by
  cases n with
  | phase p => exact State.sequencerFits_enter_phase h
  | byteDone => exact State.sequencerFits_byteDone (of_decide_eq_true h)
  | finish =>
    simp only [State.retFits, Bool.and_eq_true, beq_iff_eq] at h
    exact (State.sequencerFits_finished rfl).2 (.inr (by simp [h.1.2]))

/-- After mode setup, with the index at 0, come the first byte or the end (42_protocol_b.md R113, 43_protocol_c.md R120). -/
theorem State.retFits_afterSetup {s : State} (ho : s.op.isSome = true) (hi : s.idx = 0) :
    s.retFits (afterSetup s.total) = true := by
  unfold afterSetup
  split
  · next h => simp [State.retFits, State.phaseFits, State.indexFits, State.row_place_isSome h, hi, h]
  · next h => simp [State.retFits, ho, hi]; omega

/-- What a row of a transition table names as next: `byte_done` after a strobe pulse, the end of mode setup, or another
phase of the same table, in which the index is bounded alike. -/
theorem State.row_next {s : State} {p : Phase} {r : Row} (h : s.row p = some r) :
    (p = .stbLo ∧ r.next = .byteDone) ∨
    ((p = .selA0 ∨ p = .selAux) ∧ s.op.isSome = true ∧ r.next = afterSetup s.total) ∨
    ∃ q, r.next = .phase q ∧ (s.row q).isSome = true ∧ s.indexFits q = s.indexFits p := by
  -- The four transition tables are read off row by row; a phase without a row contradicts `h`.
  unfold State.row at h ⊢
  split at h <;> (try cases p) <;> simp [rowWriteA, rowCmdB, rowDataB, rowWriteC] at h <;> subst h <;>
    simp_all [strobeHiRow, strobeLoRow, rowWriteA, rowCmdB, rowDataB, rowWriteC, State.indexFits, afterSetup, State.total]

/-- What a row names as next fits, where the index fits the row's own phase. -/
theorem State.retFits_of_row {s : State} {p : Phase} {r : Row} (h : s.row p = some r) (hi : s.indexFits p = true) :
    s.retFits r.next = true := by
  obtain ⟨rfl, hn⟩ | ⟨hp, ho, hn⟩ | ⟨q, hn, hq, hiq⟩ := State.row_next h <;> rw [hn]
  · exact hi
  · have hidx : s.idx = 0 := by rcases hp with rfl | rfl <;> simpa [State.indexFits] using hi
    exact State.retFits_afterSetup ho hidx
  · simp [State.retFits, State.phaseFits, hq, hiq, hi]

/-! ### The sequencer after a step of the engine -/

/-- An access that succeeded, with its poll decision or its settle wait (40_port_ops.md R87, R88). -/
theorem afterAccess_sequencerFits {s : State} {r : Row} {i : Instr} (h : s.row s.ph = some r)
    (hi : s.indexFits s.ph = true) : (afterAccess r i s).sequencerFits = true := by
  have hrow : (performed i s).row (performed i s).ph = some r := by simpa using h
  have hidx : (performed i s).indexFits (performed i s).ph = true := by
    rw [State.indexFits_congr (performed_op i s) (performed_buf i s) (performed_idx i s), performed_ph, hi]
  have hnext : (performed i s).retFits r.next = true := State.retFits_of_row hrow hidx
  have hstay : (performed i s).sequencerFits = true := (State.sequencerFits_row hrow).trans hidx
  unfold afterAccess
  split
  · split
    · exact hstay
    · exact State.sequencerFits_enter hnext
  · split
    · exact State.sequencerFits_enter hnext
    · next hd =>
      have hle : s.settleUnits ≤ (performed i s).settleUnits := BitVec.le_of_eq (performed_settleUnits i s).symm
      exact (State.sequencerFits_settle rfl).2 ⟨hd, hle, r.next, rfl, hnext⟩

/-- A failed access ends the command where it stands (60_exceptions.md R129). -/
theorem failed_sequencerFits {s : State} {i : Instr} {k : PortError} (hi : s.indexFits s.ph = true) :
    (failed i k s).sequencerFits = true := by
  obtain ⟨-, hph, hop, hidx, -, -, -, -, hbuf, -⟩ := failed_keeps i k s
  refine (State.sequencerFits_finished hph).2 (.inr ?_)
  rw [hidx, State.total_congr hop hbuf]
  exact State.idx_le_total_of_indexFits hi

/-- A settle unit counts down to what the wait leads to (40_port_ops.md R87, R93). -/
theorem settleUnit_sequencerFits {s : State} (hp : s.ph = .settle) (h : s.sequencerFits = true) :
    s.settleUnit.sequencerFits = true := by
  obtain ⟨hc, hle, n, hr, hn⟩ := (State.sequencerFits_settle hp).1 h
  obtain ⟨h0, -⟩ | ⟨h0, -⟩ | ⟨-, hu⟩ | ⟨-, hc1, hu⟩ := settleUnit_cases s hp
  · exact absurd h0 hc
  · exact absurd h0 hc
  · have hget : s.ret.getD (.phase .idle) = n := by rw [hr, Option.getD_some]
    rw [hu, hget]
    exact State.sequencerFits_enter (s := { s with cnt := 0#16 }) hn
  · rw [hu]
    have hle' : s.cnt - 1#16 ≤ s.settleUnits := by bv_omega
    exact (State.sequencerFits_settle (s := { s with cnt := s.cnt - 1#16 }) hp).2 ⟨hc1, hle', n, hr, hn⟩

theorem engineStep_sequencerFits {s t : State} (hs : s.sequencerFits = true) (h : engineStep s = .next t) :
    t.sequencerFits = true := by
  obtain ⟨-, rfl⟩ | ⟨-, rfl⟩ | ⟨hp, rfl⟩ | ⟨r, i, hr, -, hout⟩ := engineStep_cases h
  · exact hs
  · exact (State.sequencerFits_idle rfl).2 ⟨rfl, rfl, rfl⟩
  · exact settleUnit_sequencerFits hp hs
  · have hi : s.indexFits s.ph = true := (State.sequencerFits_row hr).symm.trans hs
    obtain ⟨-, rfl⟩ | ⟨k, -, rfl⟩ := hout
    · exact afterAccess_sequencerFits hr hi
    · exact failed_sequencerFits hi

/-! ### The events and the port registers after a step of the engine -/

/-- The control write of a row is one of the six of 30_encoding.md R74. -/
theorem row_isLineWrite {s : State} {p : Phase} {r : Row} {L : Line} {b : Bool} (h : s.row p = some r)
    (ha : r.action = .writeLine L b) : isLineWrite s.params (lineMask s.params L) (lineValue s.params L b) = true := by
  obtain rfl | ⟨rfl, rfl⟩ | rfl | ⟨rfl, rfl⟩ := row_writeLine h ha <;> simp only [isLineWrite, lineValue]
  · cases b <;> simp
  · simp
  · cases b <;> simp
  · simp

/-- The event of an access that a row issues is one the engine may emit. -/
theorem accessEvent_legal {s : State} {p : Phase} {r : Row} {i : Instr} (h : s.row p = some r)
    (ha : s.issueAction r.action = .access i) (b : Byte) (o : PortOutcome) :
    (accessEvent i b o).legal s.params = true := by
  obtain ⟨v, -, -, rfl, -⟩ | ⟨-, rfl, -⟩ | ⟨L, c, hL, rfl, -⟩ := accessEffect_of_issue ha
  · rfl
  · cases o <;> rfl
  · simpa [lineWrite, accessEvent, Event.legal, lineValue_and_mask] using row_isLineWrite h hL

theorem settleEvent_legal (P : Params) {d : Units} (h : d ≠ 0#16) : (Event.settle d).legal P = true := by
  simpa [Event.legal] using h

theorem engineStep_trace_legal {s t : State} (hs : s.trace.all (Event.legal s.params) = true)
    (h : engineStep s = .next t) : t.trace.all (Event.legal t.params) = true := by
  rw [engineStep_params h]
  obtain ⟨ht, -⟩ | ⟨hd, ht, -⟩ | ⟨r, i, o, hr, ha, -, -, ht⟩ := engineStep_events h
  · rw [ht, hs]
  · simp [ht, hs, settleEvent_legal s.params hd]
  · have he := accessEvent_legal hr ha s.answer.status o
    obtain ht | ⟨hd, ht⟩ := ht
    · simp [ht, hs, he]
    · simp [ht, hs, he, settleEvent_legal s.params hd]

/-- What an access that a row issues does to `DATA`: nothing, or a write of the whole register. -/
theorem accessEffect_data {s : State} {a : Action} {i : Instr} (h : s.issueAction a = .access i) :
    (accessEffect i s).data = s.data ∨ ∃ v, (accessEffect i s).data = PortReg.write v := by
  obtain ⟨v, -, -, -, he⟩ | ⟨-, -, he⟩ | ⟨L, b, -, -, he⟩ := accessEffect_of_issue h <;> rw [he]
  · exact .inr ⟨v, rfl⟩
  · exact .inl rfl
  · exact .inl rfl

/-- What a step of the engine does to `DATA`: nothing, or a write of the whole register. -/
theorem engineStep_data {s t : State} (h : engineStep s = .next t) :
    t.data = s.data ∨ ∃ v, t.data = PortReg.write v := by
  obtain ⟨-, rfl⟩ | ⟨-, rfl⟩ | ⟨-, rfl⟩ | ⟨r, i, -, ha, ⟨-, rfl⟩ | ⟨k, -, rfl⟩⟩ := engineStep_cases h
  · exact .inl rfl
  · exact .inl rfl
  · exact .inl (settleUnit_keeps s).2.1
  · rw [(afterAccess_keeps r i s).2.1]
    exact accessEffect_data ha
  · rw [failed_data]
    split
    · exact accessEffect_data ha
    · exact .inl rfl

theorem engineStep_data_wf {s t : State} (hs : s.data.wf = true) (h : engineStep s = .next t) : t.data.wf = true := by
  obtain ht | ⟨v, ht⟩ := engineStep_data h <;> rw [ht]
  · exact hs
  · exact PortReg.wf_write v

theorem engineStep_control_wf {s t : State} (hs : s.control.wf = true) (h : engineStep s = .next t) :
    t.control.wf = true := by
  obtain ht | ⟨-, L, b, -, -, ht⟩ := engineStep_control h <;> rw [ht]
  · exact hs
  · exact PortReg.wf_writeMasked hs _ _

/-! ### The invariant -/

/-- A step of the engine keeps each part of the invariant. -/
theorem engineStep_inv {s t : State} (hs : s.Inv) (h : engineStep s = .next t) : t.Inv where
  data_wf := engineStep_data_wf hs.data_wf h
  control_wf := engineStep_control_wf hs.control_wf h
  trace_legal := engineStep_trace_legal hs.trace_legal h
  sequencer := engineStep_sequencerFits hs.sequencer h

/-- The invariant says nothing of the host's later moves. -/
theorem State.Inv.setHost {s : State} (hs : s.Inv) (rest : List HostMove) : ({ s with host := rest } : State).Inv :=
  ⟨hs.data_wf, hs.control_wf, hs.trace_legal, hs.sequencer⟩

/-- A reset leaves the port registers and puts the sequencer in its reset state (70_reset_and_hazards.md R146). -/
theorem State.Inv.hostReset {s : State} (hs : s.Inv) : s.hostReset.Inv :=
  ⟨hs.data_wf, hs.control_wf, rfl, rfl⟩

/-- An illegal word ends without a command (60_exceptions.md R127). -/
theorem State.Inv.acceptIllegal {s : State} (hs : s.Inv) (r : Request) (rest : List HostMove) :
    (s.present r rest).acceptIllegal.Inv :=
  ⟨hs.data_wf, hs.control_wf, rfl, rfl⟩

/-- The first phase of an accepted command fits (60_exceptions.md R139). -/
theorem exec_command_sequencerFits {i : Instr} {s t : State} {w : CmdWord} (hd : decodeCommand w = .instr i)
    (h : exec i s = .next t) : t.sequencerFits = true := by
  obtain ⟨-, c, f, rfl, hcf⟩ := exec_command_cases hd h
  refine State.sequencerFits_enter ?_
  obtain ⟨rfl, rfl⟩ | ⟨⟨b, rfl⟩, rfl⟩ | ⟨rfl, rfl⟩ | ⟨rfl, rfl⟩ := hcf
  · exact State.retFits_afterSetup (s := s.clearSequencer (some .writeA)) rfl rfl
  all_goals rfl

/-- An accepted command leaves the port registers and starts with an empty trace. -/
theorem exec_command_inv {i : Instr} {s t : State} {w : CmdWord} (hdata : s.data.wf = true)
    (hcontrol : s.control.wf = true) (hd : decodeCommand w = .instr i) (h : exec i s = .next t) : t.Inv := by
  have hfits : t.sequencerFits = true := exec_command_sequencerFits hd h
  obtain ⟨-, c, f, rfl, -⟩ := exec_command_cases hd h
  exact ⟨by simpa using hdata, by simpa using hcontrol, by simp, hfits⟩

theorem step_inv {s t : State} (hs : s.Inv) (h : step s = .next t) : t.Inv := by
  obtain ⟨-, he⟩ | ⟨rest, -, he⟩ | ⟨rest, -, -, he⟩ | ⟨rest, -, rfl⟩ | ⟨r, rest, i, -, -, hd, he⟩ |
    ⟨r, rest, why, -, -, -, rfl⟩ | ⟨m, rest, -, -, rfl | ⟨v, -, rfl⟩ | ⟨k, v, -, rfl⟩⟩ := step_cases h
  · exact engineStep_inv hs he
  · exact engineStep_inv (hs.setHost rest) he
  · exact engineStep_inv hs he
  · exact hs.hostReset.setHost rest
  · exact exec_command_inv (s := s.present r rest) hs.data_wf hs.control_wf hd he
  · exact hs.acceptIllegal r rest
  · exact hs.setHost rest
  · exact ⟨PortReg.wf_write v, hs.control_wf, hs.trace_legal, hs.sequencer⟩
  · exact ⟨hs.data_wf, PortReg.wf_writeMasked hs.control_wf k v, hs.trace_legal, hs.sequencer⟩

/-- Settles O12, by what a step can do (`step_cases`): the engine's own steps keep each part of the invariant
(`engineStep_inv`), and the host's moves leave it or start the sequencer afresh. -/
theorem everyStepKeepsInvariant : Obligations.EveryStepKeepsInvariant := by
  unfold Obligations.EveryStepKeepsInvariant
  exact fun _ _ => step_inv

/-- Settles O11: no bit of the port registers is known (log 3), and nothing is accepted or sampled (log 7). -/
theorem invariantAtReset : Obligations.InvariantAtReset := by
  unfold Obligations.InvariantAtReset
  exact ⟨PortReg.wf_unknown, PortReg.wf_unknown, rfl, (State.sequencerFits_idle rfl).2 ⟨rfl, rfl, rfl⟩⟩

/-- Settles O9: each field of the reset state as the table of R40 has it, and no known bit (`PortReg.bit_unknown`). -/
theorem resetValues : Obligations.ResetValues := by
  unfold Obligations.ResetValues
  exact ⟨rfl, rfl, rfl, rfl, rfl, rfl, rfl, fun k => ⟨PortReg.bit_unknown k, PortReg.bit_unknown k⟩⟩

/-! ### The control bits outside the lines (10_state.md R24) -/

/-- A line write leaves every bit that is not its line's. -/
theorem PortReg.bit_lineWrite_of_ne (r : PortReg) (P : Params) (L : Line) (b : Bool) {k : Fin 8}
    (h : k ≠ P.lineBit L) : (r.writeMasked (lineMask P L) (lineValue P L b)).bit k = r.bit k := by
  rw [PortReg.bit_lineWrite, if_neg h]

theorem engineStep_control_bit {s t : State} {k : Fin 8} (hk : ∀ L, k ≠ s.params.lineBit L)
    (h : engineStep s = .next t) : t.control.bit k = s.control.bit k := by
  obtain ht | ⟨-, L, b, -, -, ht⟩ := engineStep_control h <;> rw [ht]
  exact PortReg.bit_lineWrite_of_ne _ _ L b (hk L)

/-- The acceptance of a command leaves `CONTROL`. -/
theorem exec_command_control {i : Instr} {s t : State} {w : CmdWord} (hd : decodeCommand w = .instr i)
    (h : exec i s = .next t) : t.control = s.control := by
  obtain ⟨-, c, f, rfl, -⟩ := exec_command_cases hd h
  simp

/-- Only the engine's line writes change `CONTROL`, where no other agent writes the port. -/
theorem step_control_bit {s t : State} {k : Fin 8} (hport : s.portIsEngines = true)
    (hk : ∀ L, k ≠ s.params.lineBit L) (h : step s = .next t) : t.control.bit k = s.control.bit k := by
  obtain ⟨-, he⟩ | ⟨rest, -, he⟩ | ⟨rest, -, -, he⟩ | ⟨rest, -, rfl⟩ | ⟨r, rest, i, -, -, hd, he⟩ |
    ⟨r, rest, why, -, -, -, rfl⟩ | ⟨m, rest, -, hm, rfl | ⟨v, -, rfl⟩ | ⟨j, v, rfl, rfl⟩⟩ := step_cases h
  · exact engineStep_control_bit hk he
  · exact engineStep_control_bit (s := { s with host := rest }) hk he
  · exact engineStep_control_bit hk he
  · rfl
  · rw [exec_command_control hd he, s.present_control]
  · rfl
  · rfl
  · rfl
  · simp [State.portIsEngines, hm] at hport

/-- Settles O35: a step writes `CONTROL` by line writes only (`engineStep_control`), and each sets its own line's bit. -/
theorem onlyLineBitsChange : Obligations.OnlyLineBitsChange := by
  unfold Obligations.OnlyLineBitsChange
  intro s t k hport h hstb hcs ha0 haux
  have hk : ∀ L, k ≠ s.params.lineBit L
    | .stb => hstb
    | .cs => hcs
    | .a0 => ha0
    | .aux => haux
  exact step_control_bit hport hk h

/-! ### The busy predicate (10_state.md R26, R27) -/

theorem busy_iff (P : Params) (a : Byte) : busy P a = true ↔ a.getLsbD P.busyBit.val = P.busyActive := by
  simp [busy]

/-- Settles O28: the predicate is a test of the busy bit (`busy_iff`), so equal busy bits give equal answers. -/
theorem busyIsOneBit : Obligations.BusyIsOneBit := by
  unfold Obligations.BusyIsOneBit
  intro P a b
  refine ⟨busy_iff P a, fun h => ?_⟩
  rw [Bool.eq_iff_iff, busy_iff, busy_iff, h]

end Sys2Proof.Machine

/-! ## The parameter check (10_state.md R23) -/

namespace Sys2Proof

/-- The conditions of the check of a raw record: the line map of 10_state.md R23 and the legal values of
00_scope.md R8. -/
theorem RawParams.check_isSome_iff (r : RawParams) :
    (r.check).isSome = true ↔
      (r.stbBit < 8 ∧ r.csBit < 8 ∧ r.a0Bit < 8 ∧ r.auxBit < 8) ∧
      (r.stbBit ≠ r.csBit ∧ r.stbBit ≠ r.a0Bit ∧ r.stbBit ≠ r.auxBit ∧ r.csBit ≠ r.a0Bit ∧ r.csBit ≠ r.auxBit ∧
        r.a0Bit ≠ r.auxBit) ∧
      r.busyBit < 8 ∧ r.busyActive < 2 ∧ r.auxActive < 2 ∧ r.maxLen ≠ some 0 ∧ 0 < r.unitCycles := by
  unfold RawParams.check
  simp only [apply_dite Option.isSome, Option.isSome_some, Option.isSome_none, dite_eq_ite, Bool.if_false_right,
    Bool.and_true, Bool.and_eq_true, decide_eq_true_eq, List.nodup_cons, List.mem_cons, List.not_mem_nil, List.nodup_nil,
    Fin.mk.injEq]
  tauto

theorem RawParams.check_keeps {r : RawParams} {P : Params} (h : r.check = some P) :
    P.stbBit.val = r.stbBit ∧ P.csBit.val = r.csBit ∧ P.a0Bit.val = r.a0Bit ∧ P.auxBit.val = r.auxBit ∧
    P.busyBit.val = r.busyBit ∧ P.busyActive = (r.busyActive == 1) ∧ P.auxActive = (r.auxActive == 1) ∧
    P.maxLen = r.maxLen ∧ P.unitCycles = r.unitCycles := by
  unfold RawParams.check at h
  split_ifs at h
  cases h
  exact ⟨rfl, rfl, rfl, rfl, rfl, rfl, rfl, rfl, rfl⟩

/-- Settles O8: the check answers a record exactly under its conditions (`check_isSome_iff`), and that record holds the
raw values (`check_keeps`). -/
theorem parameterCheck : Obligations.ParameterCheck := by
  unfold Obligations.ParameterCheck
  exact fun r => ⟨r.check_isSome_iff, fun _ => RawParams.check_keeps⟩

end Sys2Proof

/-! ## The control write (20_memory.md R49, 40_port_ops.md R85) -/

namespace Sys2Proof.Machine

/-- The word of a micro-operation with two byte operands, field by field (30_encoding.md R75). -/
theorem encodeMicroOp_bytes (k : BitVec 4) (a b : Byte) : encodeMicroOp k (a ++ b) = k ++ 0x000#12 ++ a ++ b := by
  simp only [encodeMicroOp, BitVec.append_assoc, BitVec.cast_eq]

/-- The whole state after an access that succeeds. -/
theorem performed_eq (i : Instr) (s : State) :
    performed i s =
      { s with
        data := (accessEffect i s).data
        control := (accessEffect i s).control
        trace := s.trace ++ [accessEvent i s.answer.status .ok]
        env := (envNext s.env).2 } := by
  cases i <;> rfl

/-- The whole state after an access that fails: its register effect all or nothing (60_exceptions.md R129). -/
theorem failed_eq (i : Instr) (k : PortError) (s : State) :
    failed i k s =
      { s with
        data := if s.answer.applied then (accessEffect i s).data else s.data
        control := if s.answer.applied then (accessEffect i s).control else s.control
        trace := s.trace ++ [accessEvent i s.answer.status (.err k)]
        env := (envNext s.env).2
        result := portErrorResult k
        ph := .finished } := by
  unfold failed State.abort
  cases s.answer.applied
  · rfl
  · cases i <;> rfl

/-- Settles O25: the register is the masked write, whose bits are `PortReg.bit_writeMasked`; the states are those of any
access (`performed_eq`, `failed_eq`), and an `SC` has no effect on `DATA`. -/
theorem setControlResult : Obligations.SetControlResult := by
  unfold Obligations.SetControlResult
  intro s m v
  refine ⟨congrArg CodeWord.microOp (encodeMicroOp_bytes 0x3#4 m (v &&& m)), s.control.writeMasked m v,
    s.control.bit_writeMasked m v, fun hwf => PortReg.wf_writeMasked hwf m v, fun hok => ?_, fun k herr => ?_⟩
  · rw [exec_access_ok rfl hok, performed_eq]
    rfl
  · have hdata : (if s.answer.applied then (accessEffect (.sc m v) s).data else s.data) = s.data := ite_self _
    rw [exec_access_err rfl herr, failed_eq, hdata]
    rfl

end Sys2Proof.Machine

/-! ## Decoding and encoding (30_encoding.md R63 to R69, R75 to R79) -/

namespace Sys2Proof

/-- A decoder that does not reject answers an instruction. -/
theorem Decoded.rejected_iff (d : Decoded) : (∃ why, d = .rejected why) ↔ ¬∃ i, d = .instr i := by
  cases d <;> simp

theorem Decoded.instr?_eq_none_iff (d : Decoded) : d.instr? = none ↔ ¬∃ i, d = .instr i := by
  cases d <;> simp [Decoded.instr?]

/-! ### What each word decodes to -/

/-- The rows of 30_encoding.md R67: the fields of a command word that decodes, and its instruction. -/
theorem decodeCommand_eq_instr_iff (w : CmdWord) (i : Instr) :
    decodeCommand w = .instr i ↔
      CmdWord.rsv w = 0#4 ∧
        ((CmdWord.op w = 0x1#4 ∧ CmdWord.imm8 w = 0#8 ∧ .writeA = i) ∨
          (CmdWord.op w = 0x2#4 ∧ .cmdB (CmdWord.imm8 w) = i) ∨
          (CmdWord.op w = 0x3#4 ∧ CmdWord.imm8 w = 0#8 ∧ .dataB = i) ∨
          (CmdWord.op w = 0x4#4 ∧ CmdWord.imm8 w = 0#8 ∧ .writeC = i)) := by
  unfold decodeCommand
  split_ifs <;> simp_all

/-- The rows of 30_encoding.md R76: the fields of a micro-operation word that decodes, and its instruction. -/
theorem decodeMicroOp_eq_instr_iff (w : MicroWord) (i : Instr) :
    decodeMicroOp w = .instr i ↔
      MicroWord.z w = 0#12 ∧
        ((MicroWord.kind w = 0x1#4 ∧ MicroWord.m w = 0#8 ∧ .wd (MicroWord.v w) = i) ∨
          (MicroWord.kind w = 0x2#4 ∧ MicroWord.m w = 0#8 ∧ MicroWord.v w = 0#8 ∧ .rs = i) ∨
          (MicroWord.kind w = 0x3#4 ∧ MicroWord.v w &&& ~~~(MicroWord.m w) = 0#8 ∧
            isOneBit (MicroWord.m w) = true ∧ .sc (MicroWord.m w) (MicroWord.v w) = i) ∨
          (MicroWord.kind w = 0x4#4 ∧ .settle (MicroWord.d w) = i)) := by
  unfold decodeMicroOp
  split_ifs <;> simp_all

/-- An opcode or a kind is reserved, or it is one of the four in use (30_encoding.md R67, R76). -/
theorem nibble_cases (k : BitVec 4) :
    (k = 0x0#4 ∨ 5 ≤ k.toNat) ∨ k = 0x1#4 ∨ k = 0x2#4 ∨ k = 0x3#4 ∨ k = 0x4#4 := by
  revert k; decide

theorem nibble_unused_of_five_le {k : BitVec 4} (h : 5 ≤ k.toNat) :
    k ≠ 0x1#4 ∧ k ≠ 0x2#4 ∧ k ≠ 0x3#4 ∧ k ≠ 0x4#4 := by
  revert k; decide

/-! ### The round trips -/

theorem decode_encode {i : Instr} (h : i.encodable = true) : decode (encode i) = .instr i := by
  cases i with
  | writeA | cmdB b | dataB | writeC =>
    refine (decodeCommand_eq_instr_iff _ _).2 ?_
    simp [rsv_encodeCommand, op_encodeCommand, imm8_encodeCommand]
  | wd v =>
    refine (decodeMicroOp_eq_instr_iff _ _).2 ?_
    simp [z_encodeMicroOp, kind_encodeMicroOp, m_encodeMicroOp, v_encodeMicroOp]
  | rs => rfl
  | sc m v =>
    simp only [Instr.encodable, Bool.and_eq_true, decide_eq_true_eq] at h
    obtain ⟨hone, hdisj⟩ := h
    refine (decodeMicroOp_eq_instr_iff _ _).2 ?_
    simp [z_encodeMicroOp, kind_encodeMicroOp, m_encodeMicroOp, v_encodeMicroOp, and_mask_of_disjoint hdisj, hdisj,
      hone]
  | settle d =>
    refine (decodeMicroOp_eq_instr_iff _ _).2 ?_
    simp [z_encodeMicroOp, kind_encodeMicroOp, d_encodeMicroOp]

theorem decode_of_encode_eq {c : CodeWord} {i : Instr} (h : encode i = c) (hi : i.encodable = true) :
    decode c = .instr i := h ▸ decode_encode hi

/-- A line mask has exactly one bit (30_encoding.md R74). -/
theorem isOneBit_of_isLineMask {P : Params} {m : Byte} (h : P.isLineMask m = true) : isOneBit m = true := by
  obtain ⟨L, rfl⟩ := (isLineMask_iff P m).1 h
  exact (isOneBit_iff _).2 ⟨P.lineBit L, rfl⟩

theorem Instr.encodable_of_wf {P : Params} {i : Instr} (h : i.wf P = true) : i.encodable = true := by
  cases i with
  | sc m v =>
    simp only [Instr.wf, Instr.encodable, Bool.and_eq_true] at h ⊢
    exact ⟨isOneBit_of_isLineMask h.1, h.2⟩
  | writeA | cmdB b | dataB | writeC | wd v | rs | settle d => rfl

/-- Settles O2: the fields of the encoded word are those of its row (`decode_encode`), and a line mask has one bit. -/
theorem decodeOfEncode : Obligations.DecodeOfEncode := by
  unfold Obligations.DecodeOfEncode
  exact ⟨fun _ => decode_encode, fun _ _ => Instr.encodable_of_wf⟩

theorem encode_of_decodeCommand {w : CmdWord} {i : Instr} (h : decodeCommand w = .instr i) :
    encode i = .command w ∧ i.encodable = true := by
  obtain ⟨hrsv, hrow⟩ := (decodeCommand_eq_instr_iff w i).1 h
  have hw := encodeCommand_fields hrsv
  obtain ⟨ho, hi, rfl⟩ | ⟨ho, rfl⟩ | ⟨ho, hi, rfl⟩ | ⟨ho, hi, rfl⟩ := hrow <;> rw [ho] at hw
  · exact ⟨congrArg _ (hi ▸ hw), rfl⟩
  · exact ⟨congrArg _ hw, rfl⟩
  · exact ⟨congrArg _ (hi ▸ hw), rfl⟩
  · exact ⟨congrArg _ (hi ▸ hw), rfl⟩

theorem encode_of_decodeMicroOp {w : MicroWord} {i : Instr} (h : decodeMicroOp w = .instr i) :
    encode i = .microOp w ∧ i.encodable = true := by
  obtain ⟨hz, hrow⟩ := (decodeMicroOp_eq_instr_iff w i).1 h
  have hw := encodeMicroOp_fields hz
  obtain ⟨hk, hm, rfl⟩ | ⟨hk, hm, hv, rfl⟩ | ⟨hk, hdisj, hone, rfl⟩ | ⟨hk, rfl⟩ := hrow <;>
    rw [hk] at hw
  · exact ⟨congrArg _ (hm ▸ hw), rfl⟩
  · rw [hm, hv] at hw
    exact ⟨congrArg _ hw, rfl⟩
  · refine ⟨?_, by simp [Instr.encodable, hone, hdisj]⟩
    rw [encode, and_mask_of_disjoint hdisj, hw]
  · exact ⟨congrArg _ ((d_eq w).symm ▸ hw), rfl⟩

/-- Settles O3: a word is the word of its own fields (`encodeCommand_fields`, `encodeMicroOp_fields`), and each row
fixes the fields its instruction does not hold. -/
theorem encodeOfDecode : Obligations.EncodeOfDecode := by
  unfold Obligations.EncodeOfDecode
  intro c i h
  cases c with
  | command w => exact encode_of_decodeCommand h
  | microOp w => exact encode_of_decodeMicroOp h

/-! ### The command words (30_encoding.md R68, R69, R82) -/

/-- The fields of a command word that decodes to some instruction. -/
theorem decodeCommand_isInstr_iff (w : CmdWord) :
    (∃ i, decodeCommand w = .instr i) ↔
      CmdWord.rsv w = 0#4 ∧
        ((CmdWord.op w = 0x1#4 ∧ CmdWord.imm8 w = 0#8) ∨ CmdWord.op w = 0x2#4 ∨
          (CmdWord.op w = 0x3#4 ∧ CmdWord.imm8 w = 0#8) ∨ (CmdWord.op w = 0x4#4 ∧ CmdWord.imm8 w = 0#8)) := by
  simp only [decodeCommand_eq_instr_iff, exists_and_left, exists_or, exists_eq', and_true]

/-- Settles O4: each legal row by `decodeCommand_eq_instr_iff`, and a word of no row is rejected. -/
theorem commandDecoding : Obligations.CommandDecoding := by
  unfold Obligations.CommandDecoding
  intro w
  have hreject := (Decoded.rejected_iff (decodeCommand w)).trans (decodeCommand_isInstr_iff w).not
  have hinstr := decodeCommand_eq_instr_iff w
  refine ⟨fun hrsv => hreject.2 fun h => hrsv h.1, fun hrsv => ⟨fun ho hi => ?_, fun ho => ?_, fun ho hi => ?_,
    fun ho hi => ?_, fun ha hb hd hc => ?_⟩⟩
  · exact (hinstr _).2 ⟨hrsv, .inl ⟨ho, hi, rfl⟩⟩
  · exact (hinstr _).2 ⟨hrsv, .inr (.inl ⟨ho, rfl⟩)⟩
  · exact (hinstr _).2 ⟨hrsv, .inr (.inr (.inl ⟨ho, hi, rfl⟩))⟩
  · exact (hinstr _).2 ⟨hrsv, .inr (.inr (.inr ⟨ho, hi, rfl⟩))⟩
  · refine hreject.2 ?_
    rintro ⟨-, h | h | h | h⟩
    exacts [ha h, hb h, hd h, hc h]

/-- Settles O5: the conditions of R68 are the complement of the rows that decode, opcode by opcode. -/
theorem illegalCommandWords : Obligations.IllegalCommandWords := by
  unfold Obligations.IllegalCommandWords
  intro w
  rw [Decoded.rejected_iff, decodeCommand_isInstr_iff]
  simp only [CmdWord.op, CmdWord.rsv, CmdWord.imm8]
  generalize w.extractLsb' 12 4 = op
  obtain (rfl | h5) | rfl | rfl | rfl | rfl := nibble_cases op
  · simp
  · simp [h5, nibble_unused_of_five_le h5]
  all_goals simp [imp_iff_not_or]

/-- Settles O1: each word is the encoder's word of its instruction, so it decodes to it (`decode_of_encode_eq`). -/
theorem exampleWordsDecode : Obligations.ExampleWordsDecode := by
  unfold Obligations.ExampleWordsDecode
  refine ⟨?_, ?_, ?_, ?_, ?_, ?_, ?_, ?_, ?_, ?_, ?_, rfl, rfl⟩ <;> exact decode_of_encode_eq rfl rfl

/-! ### The rows of opcode_table.json -/

theorem decodeTableWord_command (w : CmdWord) : decodeTableWord 16 w.toNat = (decodeCommand w).instr? := by
  simp [decodeTableWord, codeWord?, w.isLt, decode]

theorem decodeTableWord_microOp (w : MicroWord) : decodeTableWord 32 w.toNat = (decodeMicroOp w).instr? := by
  simp [decodeTableWord, codeWord?, w.isLt, decode]

/-- A field that a row's mask covers has the value the row's match gives it. -/
theorem extractLsb'_of_masked {n k : Nat} {w mask value : BitVec n} (h : w &&& mask = value) (start : Nat)
    {field : BitVec k} (hmask : mask.extractLsb' start k = BitVec.allOnes k)
    (hvalue : value.extractLsb' start k = field) : w.extractLsb' start k = field := by
  rw [← hvalue, ← h, BitVec.extractLsb'_and, hmask, BitVec.and_allOnes]

theorem decodeTableWord_of_command {w : CmdWord} {i : Instr} (h : decodeCommand w = .instr i) :
    decodeTableWord 16 w.toNat = some i := by
  rw [decodeTableWord_command, h, Decoded.instr?]

theorem decodeTableWord_of_microOp {w : MicroWord} {i : Instr} (h : decodeMicroOp w = .instr i) :
    decodeTableWord 32 w.toNat = some i := by
  rw [decodeTableWord_microOp, h, Decoded.instr?]

/-- A word of the `SC` row is refused where its operands are none an `SC` can have (30_encoding.md R79). -/
theorem decodeTableWord_sc_none {w : MicroWord} (hk : MicroWord.kind w = 0x3#4)
    (h : ¬(∃ k : Fin 8, MicroWord.m w = bitMask k) ∨ MicroWord.v w &&& ~~~(MicroWord.m w) ≠ 0#8) :
    decodeTableWord 32 w.toNat = none := by
  rw [← isOneBit_iff] at h
  rw [decodeTableWord_microOp, Decoded.instr?_eq_none_iff]
  rintro ⟨i, hi⟩
  obtain ⟨-, ⟨hk', -⟩ | ⟨hk', -⟩ | ⟨-, hdisj, hone, -⟩ | ⟨hk', -⟩⟩ := (decodeMicroOp_eq_instr_iff w i).1 hi
  · simp [hk] at hk'
  · simp [hk] at hk'
  · exact h.elim (fun h => h hone) (fun h => h hdisj)
  · simp [hk] at hk'

/-- Settles O6: a row's mask covers the fields its match fixes (`extractLsb'_of_masked`), and these fields with the free
ones decode to the row's instruction. -/
theorem opcodeTableRows : Obligations.OpcodeTableRows := by
  unfold Obligations.OpcodeTableRows
  refine ⟨fun w h => decodeTableWord_of_command ?_, fun w h => decodeTableWord_of_command ?_,
    fun w h => decodeTableWord_of_command ?_, fun w h => decodeTableWord_of_command ?_,
    fun w h => decodeTableWord_of_microOp ?_, fun w h => decodeTableWord_of_microOp ?_,
    fun w h => ⟨fun hone hdisj => decodeTableWord_of_microOp ?_, fun hbad => decodeTableWord_sc_none ?_ hbad⟩,
    fun w h => decodeTableWord_of_microOp ?_⟩
  · exact (decodeCommand_eq_instr_iff w _).2 ⟨extractLsb'_of_masked h 8 rfl rfl,
      .inl ⟨extractLsb'_of_masked h 12 rfl rfl, extractLsb'_of_masked h 0 rfl rfl, rfl⟩⟩
  · exact (decodeCommand_eq_instr_iff w _).2 ⟨extractLsb'_of_masked h 8 rfl rfl,
      .inr (.inl ⟨extractLsb'_of_masked h 12 rfl rfl, rfl⟩)⟩
  · exact (decodeCommand_eq_instr_iff w _).2 ⟨extractLsb'_of_masked h 8 rfl rfl,
      .inr (.inr (.inl ⟨extractLsb'_of_masked h 12 rfl rfl, extractLsb'_of_masked h 0 rfl rfl, rfl⟩))⟩
  · exact (decodeCommand_eq_instr_iff w _).2 ⟨extractLsb'_of_masked h 8 rfl rfl,
      .inr (.inr (.inr ⟨extractLsb'_of_masked h 12 rfl rfl, extractLsb'_of_masked h 0 rfl rfl, rfl⟩))⟩
  · exact (decodeMicroOp_eq_instr_iff w _).2 ⟨extractLsb'_of_masked h 16 rfl rfl,
      .inl ⟨extractLsb'_of_masked h 28 rfl rfl, extractLsb'_of_masked h 8 rfl rfl, rfl⟩⟩
  · exact (decodeMicroOp_eq_instr_iff w _).2 ⟨extractLsb'_of_masked h 16 rfl rfl,
      .inr (.inl ⟨extractLsb'_of_masked h 28 rfl rfl, extractLsb'_of_masked h 8 rfl rfl,
        extractLsb'_of_masked h 0 rfl rfl, rfl⟩)⟩
  · exact (decodeMicroOp_eq_instr_iff w _).2 ⟨extractLsb'_of_masked h 16 rfl rfl,
      .inr (.inr (.inl ⟨extractLsb'_of_masked h 28 rfl rfl, hdisj, (isOneBit_iff _).2 hone, rfl⟩))⟩
  · exact extractLsb'_of_masked h 28 rfl rfl
  · exact (decodeMicroOp_eq_instr_iff w _).2 ⟨extractLsb'_of_masked h 16 rfl rfl,
      .inr (.inr (.inr ⟨extractLsb'_of_masked h 28 rfl rfl, rfl⟩))⟩

/-! ### The reserved micro-operation words (30_encoding.md R79) -/

theorem readTraceWord_eq_instr_iff (P : Params) (w : MicroWord) (i : Instr) :
    readTraceWord P w = .instr i ↔ decodeMicroOp w = .instr i ∧ i.wf P = true := by
  unfold readTraceWord
  cases hd : decodeMicroOp w with
  | instr j =>
    by_cases hj : j.wf P = true
    · simp only [hj, if_true, Decoded.instr.injEq]
      exact ⟨fun h => ⟨h, h ▸ hj⟩, And.left⟩
    · simp only [hj, if_false, reduceCtorEq, Decoded.instr.injEq, false_iff]
      exact fun h => hj (h.1 ▸ h.2)
  | rejected why => simp

/-- The fields of a word that the trace reader of `P` takes for some instruction. -/
theorem readTraceWord_isInstr_iff (P : Params) (w : MicroWord) :
    (∃ i, readTraceWord P w = .instr i) ↔
      MicroWord.z w = 0#12 ∧
        ((MicroWord.kind w = 0x1#4 ∧ MicroWord.m w = 0#8) ∨
          (MicroWord.kind w = 0x2#4 ∧ MicroWord.m w = 0#8 ∧ MicroWord.v w = 0#8) ∨
          (MicroWord.kind w = 0x3#4 ∧ MicroWord.v w &&& ~~~(MicroWord.m w) = 0#8 ∧
            ∃ L, MicroWord.m w = Machine.lineMask P L) ∨
          MicroWord.kind w = 0x4#4) := by
  simp only [readTraceWord_eq_instr_iff, decodeMicroOp_eq_instr_iff]
  constructor
  · rintro ⟨i, ⟨hz, ⟨hk, hm, rfl⟩ | ⟨hk, hm, hv, rfl⟩ | ⟨hk, hdisj, -, rfl⟩ | ⟨hk, rfl⟩⟩, hwf⟩
    · exact ⟨hz, .inl ⟨hk, hm⟩⟩
    · exact ⟨hz, .inr (.inl ⟨hk, hm, hv⟩)⟩
    · rw [Instr.wf, Bool.and_eq_true, isLineMask_iff] at hwf
      exact ⟨hz, .inr (.inr (.inl ⟨hk, hdisj, hwf.1⟩))⟩
    · exact ⟨hz, .inr (.inr (.inr hk))⟩
  · rintro ⟨hz, ⟨hk, hm⟩ | ⟨hk, hm, hv⟩ | ⟨hk, hdisj, hline⟩ | hk⟩
    · exact ⟨_, ⟨hz, .inl ⟨hk, hm, rfl⟩⟩, rfl⟩
    · exact ⟨_, ⟨hz, .inr (.inl ⟨hk, hm, hv, rfl⟩)⟩, rfl⟩
    · have hmask := (isLineMask_iff P _).2 hline
      exact ⟨_, ⟨hz, .inr (.inr (.inl ⟨hk, hdisj, isOneBit_of_isLineMask hmask, rfl⟩))⟩,
        by simp [Instr.wf, hmask, hdisj]⟩
    · exact ⟨_, ⟨hz, .inr (.inr (.inr ⟨hk, rfl⟩))⟩, rfl⟩

end Sys2Proof

namespace Sys2Proof.Machine

/-- The six control writes of 30_encoding.md R74 write a line mask, and no value bit outside it. -/
theorem sc_wf_of_isLineWrite {P : Params} {m v : Byte} (h : isLineWrite P m v = true) :
    (Instr.sc m v).wf P = true := by
  have hline : ∃ L b, m = lineMask P L ∧ v = lineValue P L b := by
    simp only [isLineWrite, decide_eq_true_eq, List.mem_cons, List.not_mem_nil, or_false, Prod.mk.injEq] at h
    obtain ⟨rfl, rfl⟩ | ⟨rfl, rfl⟩ | ⟨rfl, rfl⟩ | ⟨rfl, rfl⟩ | ⟨rfl, rfl⟩ | ⟨rfl, rfl⟩ := h
    exacts [⟨.stb, true, rfl, rfl⟩, ⟨.stb, false, rfl, rfl⟩, ⟨.cs, false, rfl, rfl⟩, ⟨.a0, false, rfl, rfl⟩,
      ⟨.a0, true, rfl, rfl⟩, ⟨.aux, P.auxActive, rfl, rfl⟩]
  obtain ⟨L, b, rfl, rfl⟩ := hline
  have hmask : P.isLineMask (lineMask P L) = true := (isLineMask_iff P _).2 ⟨L, rfl⟩
  cases b <;> simp [Instr.wf, hmask, lineValue]

theorem Event.instr_wf_of_legal {P : Params} {e : Event} (h : e.legal P = true) : e.instr.wf P = true := by
  cases e with
  | sc m v o => exact sc_wf_of_isLineWrite h
  | wd v o | rs b o | settle d => rfl

theorem Event.encode_instr (e : Event) : encode e.instr = .microOp e.word := by cases e <;> rfl

/-- The word of an event the engine may emit is read back as the event's instruction (30_encoding.md R77). -/
theorem Event.readTraceWord_word {P : Params} {e : Event} (h : e.legal P = true) :
    readTraceWord P e.word = .instr e.instr := by
  have hwf := Event.instr_wf_of_legal h
  have hd : decodeMicroOp e.word = .instr e.instr := decode_of_encode_eq e.encode_instr (Instr.encodable_of_wf hwf)
  exact (readTraceWord_eq_instr_iff P e.word e.instr).2 ⟨hd, hwf⟩

/-- Settles O7: the conditions of R79 are the complement of the words the reader takes (`readTraceWord_isInstr_iff`),
and every event of a state of the invariant is legal, so its word is read back (`Event.readTraceWord_word`). -/
theorem reservedMicroOpWords : Obligations.ReservedMicroOpWords := by
  unfold Obligations.ReservedMicroOpWords
  refine ⟨fun P w => ?_, fun s t hs h e he => ⟨e.instr, Event.readTraceWord_word ?_, rfl⟩⟩
  · rw [Decoded.rejected_iff, readTraceWord_isInstr_iff]
    simp only [MicroWord.kind, MicroWord.z, MicroWord.m, MicroWord.v]
    generalize w.extractLsb' 28 4 = kind
    obtain (rfl | h5) | rfl | rfl | rfl | rfl := nibble_cases kind
    · simp
    · simp [h5, nibble_unused_of_five_le h5]
    all_goals simp [imp_iff_not_or]
  · exact List.all_eq_true.1 (step_inv hs h).trace_legal e he

/-! ### The control writes a step emits (30_encoding.md R74) -/

/-- Every event a step of the engine adds is one the engine may emit, whatever the old trace holds. -/
theorem engineStep_new_event_legal {s t : State} (h : engineStep s = .next t) {e : Event} (he : e ∈ t.trace) :
    e ∈ s.trace ∨ e.legal s.params = true := by
  obtain ⟨ht, -⟩ | ⟨hd, ht, -⟩ | ⟨r, i, o, hr, ha, -, -, ht | ⟨hd, ht⟩⟩ := engineStep_events h
  · exact .inl (ht ▸ he)
  · obtain he | rfl : e ∈ s.trace ∨ e = .settle s.settleUnits := by simpa [ht] using he
    · exact .inl he
    · exact .inr (settleEvent_legal s.params hd)
  · obtain he | rfl : e ∈ s.trace ∨ e = accessEvent i s.answer.status o := by simpa [ht] using he
    · exact .inl he
    · exact .inr (accessEvent_legal hr ha _ _)
  · obtain he | rfl | rfl : e ∈ s.trace ∨ e = accessEvent i s.answer.status o ∨ e = .settle s.settleUnits := by
      simpa [ht] using he
    · exact .inl he
    · exact .inr (accessEvent_legal hr ha _ _)
    · exact .inr (settleEvent_legal s.params hd)

/-- Every event a step adds is one the engine may emit: the host's moves add none. -/
theorem step_new_event_legal {s t : State} (h : step s = .next t) {e : Event} (he : e ∈ t.trace) :
    e ∈ s.trace ∨ e.legal s.params = true := by
  obtain ⟨-, hs⟩ | ⟨rest, -, hs⟩ | ⟨rest, -, -, hs⟩ | ⟨rest, -, rfl⟩ | ⟨r, rest, i, -, -, hd, hs⟩ |
    ⟨r, rest, why, -, -, -, rfl⟩ | ⟨m, rest, -, -, rfl | ⟨v, -, rfl⟩ | ⟨k, v, -, rfl⟩⟩ := step_cases h
  · exact engineStep_new_event_legal hs he
  · exact engineStep_new_event_legal (s := { s with host := rest }) hs he
  · exact engineStep_new_event_legal hs he
  · simp at he
  · obtain ⟨-, c, f, rfl, -⟩ := exec_command_cases hd hs
    simp at he
  · simp [State.acceptIllegal] at he
  all_goals exact .inl he

/-- Settles O37: an event a step adds is legal (`step_new_event_legal`), and the legal control writes are the six. -/
theorem onlySixControlWrites : Obligations.OnlySixControlWrites := by
  unfold Obligations.OnlySixControlWrites
  intro s t h m v o he
  exact (step_new_event_legal h he).imp_right of_decide_eq_true

/-! ### The assembler (30_encoding.md R71 to R73) -/

/-- The command a `WRITE` of the protocol stands for (30_encoding.md R73). -/
def Proto.instr : Proto → Instr
  | .a => .writeA
  | .b => .dataB
  | .c => .writeC

theorem Proto.encode_instr (p : Proto) : encode p.instr = .command (encodeCommand p.opcode 0#8) := by
  cases p <;> rfl

/-- The word of a command decodes to it: every operand of a command is legal. -/
theorem decodeCommand_of_encode {i : Instr} {w : CmdWord} (h : encode i = .command w) :
    decodeCommand w = .instr i := by
  have hi : i.encodable = true := by
    cases i with
    | sc m v => cases h
    | writeA | cmdB b | dataB | writeC | wd v | rs | settle d => rfl
  exact decode_of_encode_eq h hi

/-- Settles O52: a `WRITE`'s word is that of its protocol's command (`Proto.encode_instr`); bytes and units are handed
on. -/
theorem pseudoCommandExpands : Obligations.PseudoCommandExpands := by
  unfold Obligations.PseudoCommandExpands
  have h (p : Proto) (bs : List Byte) (d : Units) : decodeCommand (expandWrite p bs d).word = .instr p.instr :=
    decodeCommand_of_encode p.encode_instr
  exact fun bs d => ⟨⟨h .a bs d, rfl, rfl⟩, ⟨h .b bs d, rfl, rfl⟩, ⟨h .c bs d, rfl, rfl⟩⟩

theorem readSequence_word {op : BitVec 4} {ts : List Token} {r : Request} (h : readSequence op ts = some r) :
    r.word = encodeCommand op 0#8 := by
  unfold readSequence at h
  split at h
  · obtain ⟨d, -, rfl⟩ := Option.map_eq_some_iff.1 h
    rfl
  · cases h

theorem readCmdB_word {ts : List Token} {r : Request} (h : readCmdB ts = some r) :
    ∃ b, r.word = encodeCommand 0x2#4 b := by
  unfold readCmdB at h
  split at h
  · split at h
    · cases h
      exact ⟨_, rfl⟩
    · cases h
  · cases h

theorem readWrite_word {ts : List Token} {r : Request} (h : readWrite ts = some r) :
    ∃ p : Proto, r.word = encodeCommand p.opcode 0#8 := by
  unfold readWrite at h
  split at h
  · split_ifs at h
    exacts [⟨.a, readSequence_word h⟩, ⟨.b, readSequence_word h⟩, ⟨.c, readSequence_word h⟩]
  · cases h

/-- Whatever its mnemonic, a command that is read has the word of `CMD_B` or of a protocol's sequence command. -/
theorem readCommand_word {name : String} {ts : List Token} {r : Request} (h : readCommand name ts = some r) :
    (∃ b, r.word = encodeCommand 0x2#4 b) ∨ ∃ p : Proto, r.word = encodeCommand p.opcode 0#8 := by
  unfold readCommand at h
  split_ifs at h
  exacts [.inr ⟨.a, readSequence_word h⟩, .inl (readCmdB_word h), .inr ⟨.b, readSequence_word h⟩,
    .inr ⟨.c, readSequence_word h⟩, .inr (readWrite_word h)]

theorem assembleLine_command {line : String} {r : Request} (h : assembleLine line = .command r) :
    ∃ name ts, readCommand name ts = some r := by
  unfold assembleLine at h
  split at h
  · cases h
  · split at h
    · next hr =>
      cases h
      exact ⟨_, _, hr⟩
    · cases h
  · cases h
  · cases h

/-- Settles O53: a line's word is the word of a command (`readCommand_word`), so it decodes to that command. -/
theorem assemblerEmitsLegalWords : Obligations.AssemblerEmitsLegalWords := by
  unfold Obligations.AssemblerEmitsLegalWords
  intro line r h
  obtain ⟨name, ts, hr⟩ := assembleLine_command h
  have hi : ∃ i, encode i = .command r.word := by
    obtain ⟨b, hw⟩ | ⟨p, hw⟩ := readCommand_word hr <;> rw [hw]
    · exact ⟨.cmdB b, rfl⟩
    · exact ⟨p.instr, p.encode_instr⟩
  exact hi.imp fun i hi => ⟨decodeCommand_of_encode hi, hi⟩

end Sys2Proof.Machine

/-! ## The port operations and the sequencer's steps (40_port_ops.md) -/

namespace Sys2Proof.Machine

/-! ### The micro-operations (40_port_ops.md R83 to R86, R94) -/

/-- Settles O23: the states are those of any access (`performed_eq`, `failed_eq`), and a `WD` has no effect on
`CONTROL`. -/
theorem writeDataResult : Obligations.WriteDataResult := by
  unfold Obligations.WriteDataResult
  intro s v
  refine ⟨congrArg CodeWord.microOp (encodeMicroOp_bytes 0x1#4 0x00#8 v), fun hok => ?_, fun k herr => ?_⟩
  · rw [exec_access_ok rfl hok, performed_eq]
    rfl
  · have hcontrol : (if s.answer.applied then (accessEffect (.wd v) s).control else s.control) = s.control := ite_self _
    rw [exec_access_err rfl herr, failed_eq, hcontrol]
    rfl

/-- Settles O24: the states are those of any access (`performed_eq`, `failed_eq`), and an `RS` has no effect on the port
registers. -/
theorem readStatusResult : Obligations.ReadStatusResult := by
  unfold Obligations.ReadStatusResult
  intro s
  refine ⟨rfl, fun hok => ?_, fun k herr => ?_⟩
  · rw [exec_access_ok rfl hok, performed_eq]
    rfl
  · have hdata : (if s.answer.applied then (accessEffect .rs s).data else s.data) = s.data := ite_self _
    have hcontrol : (if s.answer.applied then (accessEffect .rs s).control else s.control) = s.control := ite_self _
    rw [exec_access_err rfl herr, failed_eq, hdata, hcontrol]
    rfl

/-- What a settle wait keeps, whether it starts or there is none. -/
theorem settleWait_keeps (d : Units) (s : State) :
    (settleWait d s).data = s.data ∧ (settleWait d s).control = s.control ∧ (settleWait d s).env = s.env ∧
    (settleWait d s).params = s.params ∧ (settleWait d s).op = s.op ∧ (settleWait d s).buf = s.buf ∧
    (settleWait d s).cfg = s.cfg ∧ (settleWait d s).host = s.host := by
  unfold settleWait
  split <;> simp

/-- Settles O26: a `SETTLE` is the settle wait of its units, whose two cases are `settleWait_zero` and
`settleWait_pos`. -/
theorem settleResult : Obligations.SettleResult := by
  unfold Obligations.SettleResult
  intro s d
  refine ⟨?_, fun hd => congrArg Host.Outcome.next (settleWait_pos hd s), ?_⟩
  · rintro rfl
    exact congrArg Host.Outcome.next (settleWait_zero s)
  · rintro _ ⟨⟩
    exact settleWait_keeps d s

theorem PortReg.writeMasked_zero (c : PortReg) (v : Byte) : c.writeMasked 0#8 v = c := by
  have hval : c.val &&& 0xFF#8 = c.val := BitVec.and_allOnes
  simp [PortReg.writeMasked, hval]

/-- The value written counts under the mask only. -/
theorem PortReg.writeMasked_and (c : PortReg) (m v : Byte) : c.writeMasked m (v &&& m) = c.writeMasked m v := by
  simp [PortReg.writeMasked, BitVec.and_assoc]

theorem PortReg.writeMasked_writeMasked (c : PortReg) (m v1 v2 : Byte) :
    (c.writeMasked m v1).writeMasked m v2 = c.writeMasked m v2 := by
  simp only [PortReg.writeMasked, PortReg.mk.injEq, BitVec.or_assoc, BitVec.or_self, and_true]
  apply BitVec.eq_of_getLsbD_eq
  intro i hi
  simp only [BitVec.getLsbD_or, BitVec.getLsbD_and, BitVec.getLsbD_not, hi, decide_true, Bool.true_and]
  cases m.getLsbD i <;> simp

theorem PortReg.writeMasked_comm (c : PortReg) {m1 m2 : Byte} (h : m1 &&& m2 = 0#8) (v1 v2 : Byte) :
    (c.writeMasked m1 v1).writeMasked m2 v2 = (c.writeMasked m2 v2).writeMasked m1 v1 := by
  simp only [PortReg.writeMasked, PortReg.mk.injEq]
  refine ⟨BitVec.eq_of_getLsbD_eq fun i hi => ?_, ?_⟩
  · have hbit := congrArg (fun x => x.getLsbD i) h
    simp only [BitVec.getLsbD_or, BitVec.getLsbD_and, BitVec.getLsbD_not, BitVec.getLsbD_zero, hi, decide_true,
      Bool.true_and] at hbit ⊢
    revert hbit
    cases m1.getLsbD i <;> cases m2.getLsbD i <;> simp
  · rw [BitVec.or_assoc, BitVec.or_assoc, BitVec.or_comm m1]

/-- Settles O27: one law of the masked write each. -/
theorem maskedWriteLaws : Obligations.MaskedWriteLaws := by
  unfold Obligations.MaskedWriteLaws
  exact fun c m v m1 v1 m2 v2 => ⟨c.writeMasked_zero v, c.writeMasked_writeMasked m v1 v2,
    fun h => c.writeMasked_comm h v1 v2, c.bit_writeMasked m v, c.writeMasked_and m v⟩

/-! ### What a step issues (40_port_ops.md R92) -/

/-- A phase that issues an access has a row whose action it is. -/
theorem State.row_of_issue {s : State} {i : Instr} (h : s.issue = .access i) :
    ∃ r, s.row s.ph = some r ∧ s.issueAction r.action = .access i := by
  cases hr : s.row s.ph with
  | some r => exact ⟨r, rfl, State.issue_of_row hr ▸ h⟩
  | none =>
    unfold State.issue at h
    split at h <;> simp_all

/-- An access answers, whatever its outcome. -/
theorem exec_access_next {i : Instr} (hi : Instr.isAccess i = true) (s : State) : ∃ t, exec i s = .next t := by
  cases ho : s.answer.outcome with
  | ok => exact ⟨_, exec_access_ok hi ho⟩
  | err k => exact ⟨_, exec_access_err hi ho⟩

/-- A step of the engine whose phase changes the sequencer's own state only. -/
theorem engineStep_internal {s t : State} (h : s.issue = .internal t) : engineStep s = .next t := by
  simp only [engineStep, h]

/-- A step of the engine whose phase issues an access: the access, and what the sequencer does after it. -/
theorem engineStep_of_issue {s t : State} {i : Instr} (h : s.issue = .access i) (ht : exec i s = .next t) :
    engineStep s = .next t.proceed := by
  simp only [engineStep, h, ht]

/-- What follows an access in its step, by the phase it leaves the sequencer in (40_port_ops.md R87, R88). -/
theorem State.proceed_eq (t : State) :
    t.proceed = if t.ph = .finished then t else if t.ph = .poll then t.pollDecision else settleWait t.settleUnits t := by
  unfold State.proceed
  split <;> simp_all

/-- Settles O16: an issued micro-operation is a port access, which answers, and the sequencer proceeds after it
(`engineStep_of_issue`). -/
theorem sequencerRunsIssuedAccess : Obligations.SequencerRunsIssuedAccess := by
  unfold Obligations.SequencerRunsIssuedAccess
  intro s i hh h
  obtain ⟨r, -, ha⟩ := State.row_of_issue h
  obtain ⟨t, ht⟩ := exec_access_next (State.issueAction_isAccess ha) s
  exact ⟨t, ht, by rw [step_engine hh, engineStep_of_issue h ht, State.proceed_eq]⟩

/-- Settles O19: in `END` the step is the return to the host. -/
theorem endReturnsToIdle : Obligations.EndReturnsToIdle := by
  unfold Obligations.EndReturnsToIdle
  intro s hh hp
  have hi : s.issue = .internal s.returnToHost := by simp only [State.issue, hp]
  exact (step_engine hh).trans (engineStep_internal hi)

/-- The event of an access is one, whatever its outcome. -/
theorem accessEvent_isAccess {i : Instr} (hi : Instr.isAccess i = true) (b : Byte) (o : PortOutcome) :
    (accessEvent i b o).isAccess = true := by
  cases i with
  | wd v | sc m v => rfl
  | rs => cases o <;> rfl
  | settle d | writeA | cmdB b | dataB | writeC => cases hi

/-- Settles O38, by the events a step emits (`engineStep_events`): none, a settle wait, an access, or an access and its
settle wait. -/
theorem oneAccessPerStep : Obligations.OneAccessPerStep := by
  unfold Obligations.OneAccessPerStep
  intro s t h
  obtain ⟨ht, he⟩ | ⟨-, ht, he⟩ | ⟨r, i, o, -, ha, he, -, ht⟩ := engineStep_events h
  · exact ⟨[], by simpa using ht, by simp, he, by simp⟩
  · exact ⟨_, ht, by simp [Event.isAccess], he, by simp⟩
  · have hacc := accessEvent_isAccess (State.issueAction_isAccess ha) s.answer.status o
    obtain ht | ⟨-, ht⟩ := ht
    · exact ⟨_, ht, by simp [hacc], by simpa [hacc, envAfter] using he, by simp⟩
    · have hsettle : (Event.settle s.settleUnits).isAccess = false := rfl
      exact ⟨_, ht, by simp [hacc, hsettle],
        by simpa [List.countP_cons, hacc, hsettle, envAfter] using he, by simp⟩

/-! ### Steps whose access succeeds (40_port_ops.md R87, R88) -/

theorem step_row_ok {s : State} {r : Row} {i : Instr} (hh : s.host = []) (hr : s.row s.ph = some r)
    (ha : s.issueAction r.action = .access i) (hok : s.answer.outcome = .ok) : step s = .next (afterAccess r i s) := by
  rw [step_engine hh, engineStep_row hr ha, hok]

theorem step_row_err {s : State} {r : Row} {i : Instr} {k : PortError} (hh : s.host = []) (hr : s.row s.ph = some r)
    (ha : s.issueAction r.action = .access i) (herr : s.answer.outcome = .err k) : step s = .next (failed i k s) := by
  rw [step_engine hh, engineStep_row hr ha, herr]

theorem afterAccess_unsettled {r : Row} {s : State} (hr : r.action ≠ .readStatus) (hd : s.settleUnits = 0#16)
    (i : Instr) : afterAccess r i s = (performed i s).enter r.next := by
  simp [afterAccess, hr, hd]

theorem afterAccess_settled {r : Row} {s : State} (hr : r.action ≠ .readStatus) (hd : s.settleUnits ≠ 0#16)
    (i : Instr) : afterAccess r i s =
      { (performed i s).emit (.settle s.settleUnits) with cnt := s.settleUnits, ret := some r.next, ph := .settle } := by
  simp [afterAccess, hr, hd]

/-- A status read that succeeds leaves the sequencer in `POLL`, or goes on to the strobe pulse. -/
theorem afterAccess_read {s : State} {r : Row} (hr : s.row s.ph = some r) (hact : r.action = .readStatus) (i : Instr) :
    afterAccess r i s = (performed i s).enter (.phase (if busy s.params s.answer.status then .poll else .stbHi)) := by
  obtain ⟨hread, hpoll⟩ := State.row_readStatus hr
  have hp := hread.1 hact
  rw [afterAccess, if_pos hact, (hpoll hp).2]
  split
  · have hph : (performed i s).ph = .poll := by rw [performed_ph, hp]
    rw [State.enter_phase, ← hph]
  · rfl

/-- Protocol A has no settle wait, and no protocol has one of 0 units. -/
theorem State.settleUnits_eq_zero {s : State} (h : s.op = some .writeA ∨ s.cfg.settleUnits = 0#16) :
    s.settleUnits = 0#16 := by
  unfold State.settleUnits
  split <;> simp_all

/-- A command other than `WRITE_A` waits its configured units. -/
theorem State.settleUnits_of_ne_writeA {s : State} {c : Command} (ho : s.op = some c) (hc : c ≠ .writeA) :
    s.settleUnits = s.cfg.settleUnits := by
  cases c <;> simp_all [State.settleUnits]

/-- A phase has a row only while a command runs. -/
theorem State.op_of_row {s : State} {p : Phase} {r : Row} (h : s.row p = some r) : ∃ c, s.op = some c := by
  cases ho : s.op with
  | some c => exact ⟨c, rfl⟩
  | none => simp [State.row, ho] at h

/-! ### The busy poll (40_port_ops.md R88) -/

/-- A successful status read in `POLL`: the byte in the trace, and the decision on its busy bit. -/
theorem step_poll_ok {s : State} (hh : s.host = []) (ho : s.op = some .writeA) (hp : s.ph = .poll)
    (hok : s.answer.outcome = .ok) :
    step s = .next
      { s with
        trace := s.trace ++ [.rs (some s.answer.status) .ok]
        env := (envNext s.env).2
        ph := if busy s.params s.answer.status then .poll else .stbHi } := by
  have hr : s.row s.ph = some { action := .readStatus, next := .phase .stbHi } := by simp [State.row, ho, hp, rowWriteA]
  rw [step_row_ok hh hr rfl hok, afterAccess_read hr rfl, performed_eq]
  rfl

/-- While the answers show busy the sequencer polls: one status read a step, and nothing else. -/
theorem steps_poll_busy {s : State} (hh : s.host = []) (ho : s.op = some .writeA) (hp : s.ph = .poll) {n : Nat}
    (hbusy : ∀ j, j < n → (nthDraw j s.env).outcome = .ok ∧ busy s.params (nthDraw j s.env).status = true) :
    steps n s = some
      { s with
        trace := s.trace ++ (List.range n).map (fun j => .rs (some (nthDraw j s.env).status) .ok)
        env := envAfter n s.env } := by
  induction n generalizing s with
  | zero => simp [steps, envAfter]
  | succ n ih =>
    obtain ⟨hok, hb⟩ := hbusy 0 n.succ_pos
    have hstep := step_poll_ok hh ho hp hok
    rw [State.answer, show (envNext s.env).1 = nthDraw 0 s.env from rfl, if_pos hb, ← hp] at hstep
    simp only [steps, hstep]
    rw [ih]
    case hbusy => exact fun j hj => hbusy (j + 1) (Nat.succ_lt_succ hj)
    case hh | ho | hp => assumption
    simp [List.range_succ_eq_map, nthDraw, envAfter, Function.comp_def]

/-- An environment that repeats an answer gives it as every answer (log 2). -/
theorem nthDraw_always {e : Env} {d : Draw} (hq : e.queue = []) (ha : e.always = some d) (n : Nat) :
    nthDraw n e = d := by
  have hnext : envNext e = (d, e) := by simp [envNext, hq, ha]
  induction n with
  | zero => simp [nthDraw, hnext]
  | succ n ih => simp [nthDraw, hnext, ih]

/-- A one-byte `WRITE_A` in `POLL` whose status reads all succeed and show busy. -/
def pollingForever : State :=
  { State.reset with
    op := some .writeA, ph := .poll, buf := [0x41#8]
    env :=
      { queue := []
        always := some
          { outcome := .ok, status := if State.reset.params.busyActive then 0xFF#8 else 0x00#8, applied := true }
        drawn := 0 } }

theorem pollingForever_inv : pollingForever.Inv := ⟨PortReg.wf_unknown, PortReg.wf_unknown, rfl, rfl⟩

/-- A status byte of equal bits is busy when they have the active value. -/
theorem busy_uniform (P : Params) : busy P (if P.busyActive then 0xFF#8 else 0x00#8) = true := by
  have hone (k : Fin 8) : (0xFF#8).getLsbD k.val = true := by revert k; decide
  rw [busy_iff]
  cases P.busyActive <;> simp [hone]

/-- Settles O32: the rows of `PLACE` and `POLL`, the step of a successful read (`step_poll_ok`), and a state that polls
for ever (`steps_poll_busy`). -/
theorem busyPoll : Obligations.BusyPoll := by
  unfold Obligations.BusyPoll
  refine ⟨fun s hh ho hp hidx hok => ?_, fun s hh ho hp hok => ?_, fun s k hh ho hp herr => ?_,
    pollingForever, pollingForever_inv, rfl, fun n => ?_⟩
  · have hr : s.row s.ph = some { action := .placeByte, next := .phase .poll } := by simp [State.row, ho, hp, rowWriteA]
    have ha : s.issueAction .placeByte = .access (.wd s.buf[s.idx]) := by
      simp [State.issueAction, State.currentByte, ho, memRead, hidx]
    refine ⟨_, step_row_ok hh hr ha hok, ?_⟩
    rw [afterAccess_unsettled (by simp) (State.settleUnits_eq_zero (.inl ho))]
    rfl
  · simpa only [busy_iff, State.answer] using step_poll_ok hh ho hp hok
  · have hr : s.row s.ph = some { action := .readStatus, next := .phase .stbHi } := by simp [State.row, ho, hp, rowWriteA]
    obtain ⟨-, hph, -, -, -, -, hres, htr, -⟩ := failed_keeps .rs k s
    exact ⟨_, step_row_err hh hr rfl herr, hph, htr, hres⟩
  · refine ⟨_, steps_poll_busy rfl rfl rfl fun j _ => ?_, rfl⟩
    rw [nthDraw_always rfl rfl]
    exact ⟨rfl, busy_uniform _⟩

/-! ### The settle wait (40_port_ops.md R87) -/

/-- A unit of a settle wait: one step. -/
theorem step_settle {s : State} {n : Next} (hh : s.host = []) (hp : s.ph = .settle) (hc : s.cnt ≠ 0#16)
    (hr : s.ret = some n) :
    step s = .next
      (if s.cnt - 1#16 = 0#16 then { s with cnt := 0#16 }.enter n else { s with cnt := s.cnt - 1#16 }) := by
  have hi : s.issue = .internal s.settleUnit := by simp only [State.issue, hp]
  have hf : s.following = n := by simp [State.following, hp, hr]
  rw [step_engine hh, engineStep_internal hi, State.settleUnit, if_neg hc, hf]
  split
  · next h => rw [h]
  · rfl

/-- Settles O30: a write's step is `afterAccess_unsettled` or `afterAccess_settled`, a status read's `step_poll_ok`, a
settle unit's `step_settle`. -/
theorem settleFollowsEveryWrite : Obligations.SettleFollowsEveryWrite := by
  unfold Obligations.SettleFollowsEveryWrite
  refine ⟨fun s r i hh hr hi hact hok => ?_, fun s hh hi hok => ?_, fun s n => step_settle⟩
  · rw [State.issue_of_row hr] at hi
    refine ⟨performed i s, exec_access_ok (State.issueAction_isAccess hi) hok, fun hA => ?_, fun hA hd => ?_⟩
    · rw [step_row_ok hh hr hi hok, afterAccess_unsettled hact (State.settleUnits_eq_zero hA)]
    · obtain ⟨c, ho⟩ := State.op_of_row hr
      have hu : s.settleUnits = s.cfg.settleUnits := State.settleUnits_of_ne_writeA ho (by rintro rfl; exact hA ho)
      rw [step_row_ok hh hr hi hok, afterAccess_settled hact (hu ▸ hd), hu]
      rfl
  · obtain ⟨r, hr, ha⟩ := State.row_of_issue hi
    have hact : r.action = .readStatus := by
      obtain ⟨-, v, -, h⟩ | ⟨h, -⟩ | ⟨L, b, -, h⟩ := State.issueAction_access ha
      · cases h
      · exact h
      · cases h
    obtain ⟨hread, hpoll⟩ := State.row_readStatus hr
    have hp := hread.1 hact
    refine ⟨_, step_poll_ok hh (hpoll hp).1 hp hok, rfl, ?_⟩
    dsimp only
    split <;> simp

theorem steps_succ_of_step {s t : State} (h : step s = .next t) (n : Nat) : steps (n + 1) s = steps n t := by
  simp only [steps, h]

/-- A settle wait before its last unit has counted down and changed nothing else. -/
theorem steps_settle {s : State} {n : Next} (hh : s.host = []) (hp : s.ph = .settle) (hr : s.ret = some n) {j : Nat}
    (hj : j < s.cnt.toNat) : steps j s = some { s with cnt := s.cnt - BitVec.ofNat 16 j } := by
  induction j with
  | zero => simp [steps]
  | succ j ih =>
    have hc : s.cnt - BitVec.ofNat 16 j ≠ 0#16 := by bv_omega
    have hlast : s.cnt - BitVec.ofNat 16 j - 1#16 ≠ 0#16 := by bv_omega
    have hsub : s.cnt - BitVec.ofNat 16 j - 1#16 = s.cnt - BitVec.ofNat 16 (j + 1) := by bv_omega
    have hstep := step_settle (s := { s with cnt := s.cnt - BitVec.ofNat 16 j }) hh hp hc hr
    rw [if_neg hlast, hsub] at hstep
    rw [steps_add, ih (by omega), Option.bind_some, steps_succ_of_step hstep, steps]

/-- Settles O31: the units before the last count down (`steps_settle`), and the last ends the wait. -/
theorem settleWaitEnds : Obligations.SettleWaitEnds := by
  unfold Obligations.SettleWaitEnds
  intro s n hh hp hc hr
  refine ⟨fun j hj => steps_settle hh hp hr hj, ?_⟩
  obtain ⟨m, hm⟩ : ∃ m, s.cnt.toNat = m + 1 := Nat.exists_eq_succ_of_ne_zero (by bv_omega)
  have hlast : s.cnt - BitVec.ofNat 16 m = 1#16 := by bv_omega
  have hstep := step_settle (s := { s with cnt := 1#16 }) hh hp (by simp) hr
  rw [if_pos (by simp)] at hstep
  rw [hm, steps_add, steps_settle hh hp hr (by omega), hlast, Option.bind_some, steps_succ_of_step hstep, steps]

/-! ### `byte_done` (40_port_ops.md R91) -/

/-- The next byte is placed where bytes remain, and the command ends with `OK` otherwise. -/
theorem State.byteDone_spec (s : State) :
    s.byteDone.idx = s.idx + 1 ∧ (s.idx + 1 < s.total → s.byteDone.ph = .place ∧ s.byteDone.result = s.result) ∧
      (s.total ≤ s.idx + 1 → s.byteDone.ph = .finished ∧ s.byteDone.result = .ok) := by
  unfold State.byteDone
  split
  · next h => exact ⟨rfl, fun _ => ⟨rfl, rfl⟩, fun hle => absurd h (by omega)⟩
  · next h => exact ⟨rfl, fun hlt => absurd hlt h, fun _ => ⟨rfl, rfl⟩⟩

/-- The second half of a strobe pulse is the same row in every command's table (40_port_ops.md R89). -/
theorem State.row_stbLo {s : State} {c : Command} (ho : s.op = some c) : s.row .stbLo = some strobeLoRow := by
  cases c <;> simp [State.row, ho, rowWriteA, rowCmdB, rowDataB, rowWriteC]

/-- Settles O34: the low strobe write with no settle wait, or the last unit of its wait (`step_settle`), leads to
`byte_done` in the same step. -/
theorem byteDone : Obligations.ByteDone := by
  unfold Obligations.ByteDone
  refine ⟨fun s c hh ho hp hd hok => ?_, fun s hh hp hr hc => ?_⟩
  · have hrow : s.row s.ph = some strobeLoRow := hp ▸ State.row_stbLo ho
    refine ⟨_, step_row_ok hh hrow rfl hok, ?_⟩
    rw [afterAccess_unsettled (by simp [strobeLoRow]) hd, show strobeLoRow.next = .byteDone from rfl,
      State.enter_byteDone]
    simpa using (performed (lineWrite s.params .stb Config.stbOff) s).byteDone_spec
  · have hstep := step_settle hh hp (by simp [hc]) hr
    rw [hc, if_pos (by simp)] at hstep
    obtain ⟨hidx, hmore, hlast⟩ := ({ s with cnt := 0#16 } : State).byteDone_spec
    exact ⟨_, hstep, hidx, State.enter_trace _ _, hmore, hlast⟩

end Sys2Proof.Machine

/-! ## The word placed by `withFetchWord` (log 5) -/

namespace Sys2Proof

/-- A word of a row of 16 bits is a command word that decodes. -/
theorem command_of_decodeTableWord {w : Nat} {i : Instr} (h : decodeTableWord 16 w = some i) :
    ∃ cw : CmdWord, codeWord? 16 w = some (.command cw) ∧ decodeCommand cw = .instr i := by
  unfold decodeTableWord at h
  split at h
  · next c hc =>
    obtain ⟨-, rfl⟩ : w < 2 ^ 16 ∧ CodeWord.command (BitVec.ofNat 16 w) = c := by simpa [codeWord?] using hc
    refine ⟨_, hc, ?_⟩
    change (decodeCommand (BitVec.ofNat 16 w)).instr? = some i at h
    cases hd : decodeCommand (BitVec.ofNat 16 w) <;> simp_all [Decoded.instr?]
  · cases h

/-- A word of a row of 32 bits is a micro-operation word that decodes. -/
theorem microOp_of_decodeTableWord {w : Nat} {i : Instr} (h : decodeTableWord 32 w = some i) :
    ∃ uw : MicroWord, codeWord? 32 w = some (.microOp uw) ∧ decodeMicroOp uw = .instr i := by
  unfold decodeTableWord at h
  split at h
  · next c hc =>
    obtain ⟨-, rfl⟩ : w < 2 ^ 32 ∧ CodeWord.microOp (BitVec.ofNat 32 w) = c := by simpa [codeWord?] using hc
    refine ⟨_, hc, ?_⟩
    change (decodeMicroOp (BitVec.ofNat 32 w)).instr? = some i at h
    cases hd : decodeMicroOp (BitVec.ofNat 32 w) <;> simp_all [Decoded.instr?]
  · cases h

/-- A value within a one-bit mask is the mask or 0. -/
theorem eq_zero_or_eq_bitMask {k : Fin 8} {v : Byte} (h : v &&& ~~~(bitMask k) = 0#8) : v = 0#8 ∨ v = bitMask k := by
  revert h; revert v k; decide

end Sys2Proof

namespace Sys2Proof.Machine

theorem bitMask_bitIndex (k : Fin 8) : bitMask (bitIndex (bitMask k)) = bitMask k := by
  revert k; decide

/-- Protocol A's strobe write under the parameters that `fetchSetup` makes for the mask. -/
theorem lineWrite_moveStrobe (P : Params) {m v : Byte} (hm : isOneBit m = true) (hv : v &&& ~~~m = 0#8) :
    lineWrite (moveStrobe P (bitIndex m)) .stb (decide (v ≠ 0#8)) = .sc m v := by
  obtain ⟨k, rfl⟩ := (isOneBit_iff m).1 hm
  have hmask : lineMask (moveStrobe P (bitIndex (bitMask k))) .stb = bitMask k := bitMask_bitIndex k
  obtain rfl | rfl := eq_zero_or_eq_bitMask hv <;> simp [lineWrite, lineValue, hmask, bitMask_ne_zero]

/-- `fetchSetup` lines up a `tick` and leaves the port, the trace, `RESULT` and the environment. -/
theorem fetchSetup_keeps (s : State) {w : MicroWord} {i : Instr} (hd : decodeMicroOp w = .instr i) :
    (s.fetchSetup (.microOp w)).host = .tick :: s.host ∧ (s.fetchSetup (.microOp w)).data = s.data ∧
    (s.fetchSetup (.microOp w)).control = s.control ∧ (s.fetchSetup (.microOp w)).trace = s.trace ∧
    (s.fetchSetup (.microOp w)).result = s.result ∧ (s.fetchSetup (.microOp w)).env = s.env := by
  simp only [State.fetchSetup, hd]
  obtain ⟨-, ⟨-, -, rfl⟩ | ⟨-, -, -, rfl⟩ | ⟨-, -, -, rfl⟩ | ⟨-, rfl⟩⟩ := (decodeMicroOp_eq_instr_iff w i).1 hd <;>
    exact ⟨rfl, rfl, rfl, rfl, rfl, rfl⟩

/-- Where `fetchSetup` puts the sequencer it issues the word's access, or starts the word's settle wait. -/
theorem fetchSetup_issue (s : State) {w : MicroWord} {i : Instr} (hd : decodeMicroOp w = .instr i) {u : State}
    (hu : u = { s.fetchSetup (.microOp w) with host := s.host }) :
    (Instr.isAccess i = true ∧ u.issue = .access i) ∨ ∃ d, i = .settle d ∧ u.issue = .internal (settleWait d u) := by
  simp only [State.fetchSetup, hd] at hu
  obtain ⟨-, ⟨-, -, rfl⟩ | ⟨-, -, -, rfl⟩ | ⟨-, hdisj, hone, rfl⟩ | ⟨-, rfl⟩⟩ := (decodeMicroOp_eq_instr_iff w i).1 hd <;>
    subst hu
  · exact .inl ⟨rfl, rfl⟩
  · exact .inl ⟨rfl, rfl⟩
  · refine .inl ⟨rfl, ?_⟩
    have hline := lineWrite_moveStrobe s.params hone hdisj
    by_cases hv : w.v = 0#8
    · rw [decide_eq_false (not_not.2 hv)] at hline
      simp only [if_pos hv]
      exact congrArg Issue.access hline
    · rw [decide_eq_true hv] at hline
      simp only [if_neg hv]
      exact congrArg Issue.access hline
  · exact .inr ⟨_, rfl, rfl⟩

/-- A step with a `tick` lined up is the engine's. -/
theorem step_tick {s : State} {rest : List HostMove} (h : s.host = .tick :: rest) :
    step s = engineStep { s with host := rest } := by
  simp only [step, State.turn, h]

/-- Settles O15: a command word is presented by the host; a micro-operation word is issued by the phase `fetchSetup`
puts the sequencer in (`fetchSetup_issue`). -/
theorem fetchedWordRuns : Obligations.FetchedWordRuns := by
  unfold Obligations.FetchedWordRuns
  refine ⟨fun s w i h => ?_, fun s w i h => ?_⟩
  · obtain ⟨cw, hc, hd⟩ := command_of_decodeTableWord h
    simp only [State.withFetchWord, hc, State.fetchSetup, step, State.turn, State.issueTurn, if_true, hd]
    rfl
  · obtain ⟨uw, hc, hd⟩ := microOp_of_decodeTableWord h
    have hw : s.withFetchWord 32 w = s.fetchSetup (.microOp uw) := by simp only [State.withFetchWord, hc]
    rw [hw]
    obtain ⟨hhost, hdata, hcontrol, htrace, hresult, henv⟩ := fetchSetup_keeps s hd
    have hstep := step_tick hhost
    generalize hu : ({ s.fetchSetup (.microOp uw) with host := s.host } : State) = u at hstep
    obtain ⟨hi, hissue⟩ | ⟨d, rfl, hissue⟩ := fetchSetup_issue s hd hu.symm
    · obtain ⟨t, ht⟩ := exec_access_next hi u
      refine ⟨u, t, rfl, ht, ?_, ?_⟩
      · rw [hstep, engineStep_of_issue hissue ht]
        cases i with
        | settle d => cases hi
        | wd v | rs | sc m v | writeA | cmdB b | dataB | writeC => rfl
      · subst hu
        exact ⟨hdata, hcontrol, htrace, hresult, henv⟩
    · refine ⟨u, settleWait d u, rfl, rfl, hstep.trans (engineStep_internal hissue), ?_⟩
      subst hu
      exact ⟨hdata, hcontrol, htrace, hresult, henv⟩

end Sys2Proof.Machine

/-! ## The traces of whole commands (41_protocol_a.md R102, 42_protocol_b.md R109, R114, 43_protocol_c.md R121) -/

namespace Sys2Proof.Machine

/-! ### The parts of a command's trace -/

/-- The bytes the running command sends: `IMM8` of a `CMD_B`, the sampled buffer of a sequence command. -/
def State.bytes (s : State) : List Byte :=
  match s.op with
  | some (.cmdB b) => [b]
  | some .writeA | some .dataB | some .writeC => s.buf
  | none => []

/-- The events of the running command's mode setup. -/
def State.setupTrace (s : State) : List Event :=
  match s.op with
  | some (.cmdB _) =>
    lineThenSettle s.params s.settleUnits .cs false ++ lineThenSettle s.params s.settleUnits .a0 false
  | some .dataB =>
    lineThenSettle s.params s.settleUnits .cs false ++ lineThenSettle s.params s.settleUnits .a0 true
  | some .writeC => lineThenSettle s.params s.settleUnits .aux s.params.auxActive
  | some .writeA | none => []

/-- `tr` are the events of the bytes `bs` placed and strobed: in Protocol A a word of its language, as often as it
polled, and in Protocols B and C one trace. -/
def State.Sent (s : State) (bs : List Byte) (tr : List Event) : Prop :=
  if s.op = some .writeA then WriteATrace s.params bs tr else tr = bs.flatMap (strobedByte s.params s.settleUnits)

/-- `reads` are status reads that all show busy. -/
def State.BusyReads (s : State) (reads : List Event) : Prop :=
  ∃ xs : List Byte, (∀ x ∈ xs, busy s.params x = true) ∧ reads = xs.map (fun x => .rs (some x) .ok)

/-- `reads` are the status reads of a poll that has ended; only Protocol A polls. -/
def State.PollEnded (s : State) (reads : List Event) : Prop :=
  if s.op = some .writeA then
    ∃ busyReads last, s.BusyReads busyReads ∧ busy s.params last = false ∧ reads = busyReads ++ [.rs (some last) .ok]
  else reads = []

/-- `tr` ends in the placing of the current byte and status reads of which `Reads` holds. -/
def State.Placed (s : State) (Reads : List Event → Prop) (tr : List Event) : Prop :=
  ∃ sent b reads, s.Sent (s.bytes.take s.idx) sent ∧ s.bytes[s.idx]? = some b ∧ Reads reads ∧
    tr = s.setupTrace ++ sent ++ (.wd b .ok :: settled s.settleUnits ++ reads)

/-- `tr` is what the running command has emitted when, with no access failed, the sequencer goes on to `n`. -/
def State.Emits (s : State) (n : Next) (tr : List Event) : Prop :=
  match n with
  | .phase .selCs | .phase .selAux => tr = []
  | .phase .selA0 => tr = lineThenSettle s.params s.settleUnits .cs false
  | .phase .place => ∃ sent, s.Sent (s.bytes.take s.idx) sent ∧ tr = s.setupTrace ++ sent
  | .phase .poll => s.Placed s.BusyReads tr
  | .phase .stbHi => s.Placed s.PollEnded tr
  | .phase .stbLo =>
    ∃ placed, s.Placed s.PollEnded placed ∧ tr = placed ++ lineThenSettle s.params s.settleUnits .stb true
  | .byteDone => ∃ sent, s.Sent (s.bytes.take (s.idx + 1)) sent ∧ tr = s.setupTrace ++ sent
  | .finish => ∃ sent, s.Sent s.bytes sent ∧ tr = s.setupTrace ++ sent
  | .phase .idle | .phase .settle | .phase .finished => False

theorem State.length_bytes (s : State) : s.bytes.length = s.total := by
  unfold State.bytes State.total
  split <;> simp_all

/-- The byte `PLACE` writes is the next of the command's bytes. -/
theorem State.currentByte_eq {s : State} (h : s.idx < s.total) : s.currentByte = s.bytes[s.idx]? := by
  unfold State.total at h
  unfold State.currentByte State.bytes
  split <;> simp_all [memRead]

theorem State.bytes_congr {s t : State} (ho : t.op = s.op) (hb : t.buf = s.buf) : t.bytes = s.bytes := by
  simp only [State.bytes, ho, hb]
theorem State.setupTrace_congr {s t : State} (ho : t.op = s.op) (hp : t.params = s.params) (hc : t.cfg = s.cfg) :
    t.setupTrace = s.setupTrace := by
  simp only [State.setupTrace, ho, hp, State.settleUnits_congr ho hc]
theorem State.sent_congr {s t : State} (ho : t.op = s.op) (hp : t.params = s.params) (hc : t.cfg = s.cfg) :
    t.Sent = s.Sent := by
  funext bs tr
  simp only [State.Sent, ho, hp, State.settleUnits_congr ho hc]

/-- What a command has emitted depends on the command, its inputs, the parameters and the index only. -/
theorem State.emits_congr {s t : State} (ho : t.op = s.op) (hp : t.params = s.params) (hb : t.buf = s.buf)
    (hc : t.cfg = s.cfg) (hi : t.idx = s.idx) (n : Next) (tr : List Event) : t.Emits n tr ↔ s.Emits n tr := by
  have hd := State.settleUnits_congr ho hc
  have hbytes := State.bytes_congr ho hb
  have hsetup := State.setupTrace_congr ho hp hc
  have hsent := State.sent_congr ho hp hc
  have hbusy : t.BusyReads = s.BusyReads := by funext tr; simp only [State.BusyReads, hp]
  have hpoll : t.PollEnded = s.PollEnded := by funext tr; simp only [State.PollEnded, ho, hp, hbusy]
  have hplaced : t.Placed = s.Placed := by
    funext R tr; simp only [State.Placed, hsent, hbytes, hi, hsetup, hd]
  unfold State.Emits
  split <;> simp only [hplaced, hsent, hbytes, hi, hsetup, hd, hp, hbusy, hpoll]

/-! ### What each row adds -/

/-- The transition tables read from the phase: what its row is, whatever the command. -/
theorem State.row_cases {s : State} {p : Phase} {r : Row} (h : s.row p = some r) :
    (p = .selCs ∧ r = { action := .writeLine .cs false, next := .phase .selA0 }) ∨
    (p = .selA0 ∧ ∃ b, r = { action := .writeLine .a0 b, next := afterSetup s.total } ∧
      s.setupTrace = lineThenSettle s.params s.settleUnits .cs false ++ lineThenSettle s.params s.settleUnits .a0 b) ∨
    (p = .selAux ∧ r = { action := .writeLine .aux s.params.auxActive, next := afterSetup s.total } ∧
      s.setupTrace = lineThenSettle s.params s.settleUnits .aux s.params.auxActive) ∨
    (p = .place ∧ r =
      { action := .placeByte, next := .phase (if s.op = some .writeA then .poll else .stbHi) }) ∨
    (p = .poll ∧ s.op = some .writeA ∧ r = { action := .readStatus, next := .phase .stbHi }) ∨
    (p = .stbHi ∧ r = strobeHiRow) ∨ (p = .stbLo ∧ r = strobeLoRow) := by
  unfold State.row at h
  split at h <;> (try cases p) <;> simp [rowWriteA, rowCmdB, rowDataB, rowWriteC] at h <;> subst h <;>
    simp_all [State.setupTrace, State.total, afterSetup, Config.csActive, Config.a0Cmd, Config.a0Data]

theorem State.sent_nil (s : State) : s.Sent [] [] := by
  unfold State.Sent
  split
  · exact .nil
  · rfl

/-- A word of Protocol A's language may be followed by one byte more. -/
theorem WriteATrace.snoc {P : Params} {bs : List Byte} {tr : List Event} (h : WriteATrace P bs tr) (b : Byte)
    {xs : List Byte} (hxs : ∀ x ∈ xs, busy P x = true) {last : Byte} (hlast : busy P last = false) :
    WriteATrace P (bs ++ [b]) (tr ++ polledByte P b xs last) := by
  induction h with
  | nil => simpa using WriteATrace.cons b [] xs last [] hxs hlast .nil
  | cons c cs ys l rest hys hl hrest ih =>
    rw [List.append_assoc]
    exact .cons c (cs ++ [b]) ys l _ hys hl ih

/-- A byte placed, polled for where the protocol polls, and strobed. -/
theorem State.Sent.snoc {s : State} {bs : List Byte} {sent reads : List Event} (h : s.Sent bs sent) (b : Byte)
    (hreads : s.PollEnded reads) :
    s.Sent (bs ++ [b]) (sent ++ (.wd b .ok :: settled s.settleUnits ++ reads) ++
      lineThenSettle s.params s.settleUnits .stb true ++ lineThenSettle s.params s.settleUnits .stb false) := by
  unfold State.Sent State.PollEnded at *
  split
  · next ho =>
    rw [if_pos ho] at h hreads
    obtain ⟨_, last, ⟨xs, hxs, rfl⟩, hlast, rfl⟩ := hreads
    rw [State.settleUnits_eq_zero (.inl ho)]
    simpa [polledByte, lineThenSettle, settled, lineValue] using h.snoc b hxs hlast
  · next ho =>
    rw [if_neg ho] at h hreads
    simp [h, hreads, strobedByte]

/-- Mode setup is followed by the first byte, or by the end where there is none. -/
theorem State.emits_afterSetup {s : State} (hi : s.idx = 0) : s.Emits (afterSetup s.total) s.setupTrace := by
  have hnil := s.sent_nil
  unfold afterSetup
  split
  · exact ⟨[], by simpa [hi] using hnil, by simp⟩
  · next h =>
    have hb : s.bytes = [] := List.eq_nil_of_length_eq_zero (by rw [State.length_bytes]; omega)
    exact ⟨[], by rwa [hb], by simp⟩

/-- The event of a line write that succeeded, with its settle wait. -/
theorem accessEvent_lineWrite (P : Params) (d : Units) (L : Line) (b : Bool) (x : Byte) :
    accessEvent (lineWrite P L b) x .ok :: settled d = lineThenSettle P d L b := by
  simp [lineWrite, accessEvent, lineThenSettle, lineValue_and_mask]

/-- A write of a row that succeeds, with its settle wait, brings the command to what the row names as next. -/
theorem State.emits_write {s : State} {p : Phase} {r : Row} {i : Instr} {tr : List Event} (hr : s.row p = some r)
    (ha : s.issueAction r.action = .access i) (hact : r.action ≠ .readStatus) (hi : s.indexFits p = true)
    (h : s.Emits (.phase p) tr) (x : Byte) :
    s.Emits r.next (tr ++ accessEvent i x .ok :: settled s.settleUnits) := by
  obtain ⟨rfl, rfl⟩ | ⟨rfl, b, rfl, hset⟩ | ⟨rfl, rfl, hset⟩ | ⟨rfl, rfl⟩ | ⟨-, -, rfl⟩ | ⟨rfl, rfl⟩ | ⟨rfl, rfl⟩ :=
    State.row_cases hr
  · cases ha
    rw [accessEvent_lineWrite, show tr = [] from h]
    rfl
  · cases ha
    rw [accessEvent_lineWrite, show tr = lineThenSettle s.params s.settleUnits .cs false from h, ← hset]
    exact State.emits_afterSetup (beq_iff_eq.1 hi)
  · cases ha
    rw [accessEvent_lineWrite, show tr = [] from h, List.nil_append, ← hset]
    exact State.emits_afterSetup (beq_iff_eq.1 hi)
  · obtain ⟨sent, hsent, rfl⟩ := h
    obtain ⟨-, v, hv, rfl⟩ | ⟨h, -⟩ | ⟨L, b, h, -⟩ := State.issueAction_access ha
    · rw [State.currentByte_eq (of_decide_eq_true hi)] at hv
      by_cases hA : s.op = some .writeA
      · simp only [if_pos hA]
        exact ⟨sent, v, [], hsent, hv, ⟨[], by simp⟩, by simp [accessEvent]⟩
      · simp only [if_neg hA]
        exact ⟨sent, v, [], hsent, hv, by simp [State.PollEnded, hA], by simp [accessEvent]⟩
    · cases h
    · cases h
  · exact absurd rfl hact
  · cases ha
    exact ⟨tr, h, by rw [accessEvent_lineWrite]; rfl⟩
  · cases ha
    obtain ⟨_, ⟨sent, b, reads, hsent, hb, hreads, rfl⟩, rfl⟩ := h
    have htake : s.bytes.take s.idx ++ [b] = s.bytes.take (s.idx + 1) := by rw [List.take_add_one, hb, Option.toList]
    exact ⟨_, htake ▸ hsent.snoc b hreads, by rw [accessEvent_lineWrite]; simp [Config.stbOff]⟩

/-- A status read of the poll: one busy read more, or the read that ends the poll. -/
theorem State.emits_read {s : State} {tr : List Event} (ho : s.op = some .writeA) (h : s.Emits (.phase .poll) tr)
    (x : Byte) :
    s.Emits (.phase (if busy s.params x then .poll else .stbHi)) (tr ++ [.rs (some x) .ok]) := by
  obtain ⟨sent, b, reads, hsent, hb, hreads, rfl⟩ := h
  split
  · next hx =>
    obtain ⟨xs, hxs, rfl⟩ := hreads
    refine ⟨sent, b, _, hsent, hb, ⟨xs ++ [x], ?_, rfl⟩, by simp⟩
    simpa [or_imp, forall_and] using ⟨hxs, hx⟩
  · next hx =>
    refine ⟨sent, b, reads ++ [.rs (some x) .ok], hsent, hb, ?_, by simp⟩
    rw [State.PollEnded, if_pos ho]
    exact ⟨reads, x, hreads, by simpa using hx, rfl⟩

/-! ### The trace along a run -/

/-- What the sequencer goes on to from where it stands, its next access still to come. -/
def State.standsAt (s : State) : Next :=
  match s.ph with
  | .settle => s.ret.getD (.phase .settle)
  | .finished => .finish
  | p => .phase p

/-- While a command runs and none of its accesses has failed, the trace is what it has emitted so far. -/
def State.Traced (s : State) : Prop :=
  s.ph ≠ .idle → (s.ph = .finished → s.result = .ok) → s.Emits s.standsAt s.trace

/-- Going on to what follows keeps what the command has emitted. -/
theorem State.Emits.enter {s : State} {n : Next} (h : s.Emits n s.trace) : (s.enter n).Traced := by
  intro _ _
  cases n with
  | phase p =>
    cases p with
    | idle | settle | finished => exact h.elim
    | selCs | selA0 | selAux | place | poll | stbHi | stbLo => exact h
  | finish => exact h
  | byteDone =>
    obtain ⟨sent, hsent, htr⟩ := h
    simp only [State.enter_byteDone, State.byteDone]
    split
    · exact ⟨sent, hsent, htr⟩
    · next hlast =>
      rw [List.take_of_length_le (by rw [State.length_bytes]; omega)] at hsent
      exact ⟨sent, hsent, htr⟩

/-- A settle wait that starts is part of what the command has emitted before what follows. -/
theorem State.Emits.startSettle {s : State} {d : Units} {n : Next} (h : s.Emits n (s.trace ++ [.settle d])) :
    ({ s.emit (.settle d) with cnt := d, ret := some n, ph := .settle } : State).Traced :=
  fun _ _ => (State.emits_congr (s := s) rfl rfl rfl rfl rfl n _).2 h

theorem afterAccess_traced {s : State} {r : Row} {i : Instr} (hr : s.row s.ph = some r)
    (ha : s.issueAction r.action = .access i) (hi : s.indexFits s.ph = true) (ht : s.Emits (.phase s.ph) s.trace) :
    (afterAccess r i s).Traced := by
  have hcongr (n : Next) (tr : List Event) : (performed i s).Emits n tr ↔ s.Emits n tr :=
    State.emits_congr (performed_op i s) (performed_params i s) (performed_buf i s) (performed_cfg i s)
      (performed_idx i s) n tr
  by_cases hact : r.action = .readStatus
  · rw [afterAccess_read hr hact]
    obtain ⟨hread, hpoll⟩ := State.row_readStatus hr
    have hp := hread.1 hact
    obtain rfl : .rs = i := by
      rw [hact] at ha
      exact Issue.access.inj ha
    refine State.Emits.enter ((hcongr _ _).2 ?_)
    rw [performed_trace]
    exact State.emits_read (hpoll hp).1 (hp ▸ ht) _
  · have hw : (performed i s).Emits r.next ((performed i s).trace ++ settled s.settleUnits) :=
      (hcongr _ _).2 (by simpa using State.emits_write hr ha hact hi ht s.answer.status)
    by_cases hd : s.settleUnits = 0#16
    · rw [afterAccess_unsettled hact hd]
      exact State.Emits.enter (by simpa [settled, hd] using hw)
    · rw [settled, if_neg hd] at hw
      rw [afterAccess_settled hact hd]
      exact State.Emits.startSettle hw

theorem settleUnit_traced {s : State} (hp : s.ph = .settle) (hs : s.sequencerFits = true)
    (ht : s.Emits s.standsAt s.trace) : s.settleUnit.Traced := by
  obtain ⟨hc, -, n, hr, -⟩ := (State.sequencerFits_settle hp).1 hs
  have hn (d : Next) : s.ret.getD d = n := by rw [hr, Option.getD_some]
  rw [State.standsAt, hp] at ht
  replace ht : s.Emits n s.trace := hn _ ▸ ht
  obtain ⟨h0, -⟩ | ⟨h0, -⟩ | ⟨-, hu⟩ | ⟨-, -, hu⟩ := settleUnit_cases s hp
  · exact absurd h0 hc
  · exact absurd h0 hc
  · rw [hu, hn]
    exact State.Emits.enter (s := { s with cnt := 0#16 }) ht
  · intro _ _
    have hstands : s.settleUnit.standsAt = n := by simp only [hu, State.standsAt, hp, hn]
    rw [hstands, hu]
    exact ht

/-- In a phase of a transition table the sequencer stands before that phase's access. -/
theorem State.standsAt_of_row {s : State} {r : Row} (hr : s.row s.ph = some r) : s.standsAt = .phase s.ph := by
  obtain ⟨-, hs, hf⟩ := State.row_some_phase hr
  unfold State.standsAt
  split <;> simp_all

theorem portErrorResult_ne_ok (k : PortError) : portErrorResult k ≠ .ok := by cases k <;> decide

/-- A step of the engine emits what its phase names. -/
theorem engineStep_traced {s t : State} (hs : s.sequencerFits = true) (ht : s.Traced) (h : engineStep s = .next t) :
    t.Traced := by
  obtain ⟨-, rfl⟩ | ⟨-, rfl⟩ | ⟨hp, rfl⟩ | ⟨r, i, hr, ha, ⟨-, rfl⟩ | ⟨k, -, rfl⟩⟩ := engineStep_cases h
  · exact ht
  · exact fun hidle => absurd rfl hidle
  · exact settleUnit_traced hp hs (ht (by simp [hp]) (by simp [hp]))
  · obtain ⟨hidle, -, hfin⟩ := State.row_some_phase hr
    have hi : s.indexFits s.ph = true := (State.sequencerFits_row hr).symm.trans hs
    exact afterAccess_traced hr ha hi (State.standsAt_of_row hr ▸ ht hidle fun h => absurd h hfin)
  · obtain ⟨-, hph, -, -, -, -, hres, -⟩ := failed_keeps i k s
    exact fun _ hok => absurd (hres.symm.trans (hok hph)) (portErrorResult_ne_ok k)

/-- `t` is a state of the run of the command that `s` has accepted, or of the engine waiting after it. -/
structure State.RunFrom (s t : State) : Prop where
  host : t.host = []
  fits : t.sequencerFits = true
  traced : t.Traced
  same_command : t.ph ≠ .idle → t.op = s.op ∧ t.params = s.params ∧ t.buf = s.buf ∧ t.cfg = s.cfg

/-- A step of the engine that leaves it running keeps the command and its inputs. -/
theorem engineStep_same_command {s t : State} (h : engineStep s = .next t) (ht : t.ph ≠ .idle) :
    s.ph ≠ .idle ∧ t.op = s.op ∧ t.params = s.params ∧ t.buf = s.buf ∧ t.cfg = s.cfg := by
  obtain ⟨hp, rfl⟩ | ⟨-, rfl⟩ | ⟨hp, rfl⟩ | ⟨r, i, hr, -, ⟨-, rfl⟩ | ⟨k, -, rfl⟩⟩ := engineStep_cases h
  · exact absurd hp ht
  · exact absurd rfl ht
  · obtain ⟨hparams, -, -, hop, hbuf, hcfg, -⟩ := settleUnit_keeps s
    exact ⟨by simp [hp], hop, hparams, hbuf, hcfg⟩
  · obtain ⟨hparams, -, -, hop, hbuf, hcfg, -⟩ := afterAccess_keeps r i s
    exact ⟨(State.row_some_phase hr).1, hop, hparams, hbuf, hcfg⟩
  · obtain ⟨hparams, -, hop, -, -, -, -, -, hbuf, hcfg, -⟩ := failed_keeps i k s
    exact ⟨(State.row_some_phase hr).1, hop, hparams, hbuf, hcfg⟩

theorem State.RunFrom.step {s t u : State} (hr : s.RunFrom t) (h : step t = .next u) : s.RunFrom u := by
  rw [step_engine hr.host] at h
  refine ⟨(engineStep_host h).trans hr.host, engineStep_sequencerFits hr.fits h,
    engineStep_traced hr.fits hr.traced h, fun hu => ?_⟩
  obtain ⟨ht, hop, hparams, hbuf, hcfg⟩ := engineStep_same_command h hu
  obtain ⟨hop', hparams', hbuf', hcfg'⟩ := hr.same_command ht
  exact ⟨hop.trans hop', hparams.trans hparams', hbuf.trans hbuf', hcfg.trans hcfg'⟩

/-- What every step keeps, every run keeps. -/
theorem steps_induction {I : State → Prop} (hstep : ∀ s t, I s → step s = .next t → I t) {n : Nat} {s t : State}
    (hs : I s) (h : steps n s = some t) : I t := by
  induction n generalizing s with
  | zero => exact Option.some.inj h ▸ hs
  | succ n ih =>
    cases hu : step s with
    | next u => exact ih (hstep s u hs hu) (by rwa [steps_succ_of_step hu] at h)
    | fault f => simp [steps, hu] at h
    | refused r => simp [steps, hu] at h

/-- The trace of an accepted command that ends `OK`: its mode setup and its bytes. -/
theorem trace_of_ok {n : Nat} {s t : State} {f : Next} (hh : s.host = []) (hfits : (s.enter f).sequencerFits = true)
    (hf : s.Emits f s.trace) (h : steps n (s.enter f) = some t) (hp : t.ph = .finished) (hok : t.result = .ok) :
    ∃ sent, s.Sent s.bytes sent ∧ t.trace = s.setupTrace ++ sent := by
  have hstart : s.RunFrom (s.enter f) := ⟨by simp [hh], hfits, hf.enter, by simp⟩
  have hrun : s.RunFrom t := steps_induction (fun _ _ => State.RunFrom.step) hstart h
  obtain ⟨hop, hparams, hbuf, hcfg⟩ := hrun.same_command (by simp [hp])
  have hend : t.Emits t.standsAt t.trace := hrun.traced (by simp [hp]) fun _ => hok
  rw [State.standsAt, hp] at hend
  obtain ⟨sent, hsent, htr⟩ := hend
  rw [State.sent_congr hop hparams hcfg, State.bytes_congr hop hbuf] at hsent
  rw [State.setupTrace_congr hop hparams hcfg] at htr
  exact ⟨sent, hsent, htr⟩

section
variable {n : Nat} {s u t : State}

/-- The trace of a `WRITE_A` that ends `OK` is a word of its language (41_protocol_a.md R102). -/
theorem writeA_trace (hh : s.host = []) (hu : exec .writeA s = .next u) (h : steps n u = some t) (hp : t.ph = .finished)
    (hok : t.result = .ok) : WriteATrace s.params s.buf t.trace := by
  have hfits := exec_command_sequencerFits (decodeCommand_of_encode (i := .writeA) rfl) hu
  obtain ⟨-, -, rfl⟩ := acceptSequence_next.1 hu
  have hf := State.emits_afterSetup (s := s.clearSequencer (some .writeA)) rfl
  obtain ⟨sent, hsent, htr⟩ := trace_of_ok (s := s.clearSequencer (some .writeA)) hh hfits hf h hp hok
  rw [htr]
  exact hsent

/-- The trace of a `CMD_B` that ends `OK` (42_protocol_b.md R109). -/
theorem cmdB_trace {b : Byte} (hh : s.host = []) (hu : exec (.cmdB b) s = .next u) (h : steps n u = some t)
    (hp : t.ph = .finished) (hok : t.result = .ok) : t.trace = cmdBTrace s.params s.cfg.settleUnits b := by
  have hfits := exec_command_sequencerFits (decodeCommand_of_encode (i := .cmdB b) rfl) hu
  obtain ⟨-, rfl⟩ := accept_next.1 hu
  obtain ⟨sent, hsent, htr⟩ := trace_of_ok (s := s.clearSequencer (some (.cmdB b))) hh hfits rfl h hp hok
  have hsent : sent = [b].flatMap (strobedByte s.params s.cfg.settleUnits) := hsent
  rw [htr, hsent, List.flatMap_singleton]
  rfl

/-- The trace of a `DATA_B` that ends `OK` (42_protocol_b.md R114). -/
theorem dataB_trace (hh : s.host = []) (hu : exec .dataB s = .next u) (h : steps n u = some t) (hp : t.ph = .finished)
    (hok : t.result = .ok) : t.trace = dataBTrace s.params s.cfg.settleUnits s.buf := by
  have hfits := exec_command_sequencerFits (decodeCommand_of_encode (i := .dataB) rfl) hu
  obtain ⟨-, -, rfl⟩ := acceptSequence_next.1 hu
  obtain ⟨sent, hsent, htr⟩ := trace_of_ok (s := s.clearSequencer (some .dataB)) hh hfits rfl h hp hok
  have hsent : sent = s.buf.flatMap (strobedByte s.params s.cfg.settleUnits) := hsent
  rw [htr, hsent]
  rfl

/-- The trace of a `WRITE_C` that ends `OK` (43_protocol_c.md R121). -/
theorem writeC_trace (hh : s.host = []) (hu : exec .writeC s = .next u) (h : steps n u = some t) (hp : t.ph = .finished)
    (hok : t.result = .ok) : t.trace = writeCTrace s.params s.cfg.settleUnits s.buf := by
  have hfits := exec_command_sequencerFits (decodeCommand_of_encode (i := .writeC) rfl) hu
  obtain ⟨-, -, rfl⟩ := acceptSequence_next.1 hu
  obtain ⟨sent, hsent, htr⟩ := trace_of_ok (s := s.clearSequencer (some .writeC)) hh hfits rfl h hp hok
  have hsent : sent = s.buf.flatMap (strobedByte s.params s.cfg.settleUnits) := hsent
  rw [htr, hsent]
  rfl

end

/-! ### The count laws (40_port_ops.md R95) -/

/-- A successful line write counts for its own line and value. -/
@[simp] theorem Event.isLineWrite_lineWrite (P : Params) (L M : Line) (b c : Bool) :
    Event.isLineWrite P L b (.sc (lineMask P M) (lineValue P M c) .ok) = decide (M = L ∧ c = b) := by
  have hmask : lineMask P M = lineMask P L ↔ M = L := ⟨lineMask_injective P, congrArg _⟩
  have hvalue : lineValue P L c = lineValue P L b ↔ c = b := by
    have h0 := lineMask_ne_zero P L
    cases b <;> cases c <;> simp [lineValue, h0, Ne.symm h0]
  rw [Event.isLineWrite, Bool.eq_iff_iff, beq_iff_eq, decide_eq_true_iff]
  simp only [Event.sc.injEq, and_true, hmask]
  exact and_congr_right fun h => h ▸ hvalue

@[simp] theorem Event.isLineWrite_wd (P : Params) (L : Line) (b : Bool) (v : Byte) (o : PortOutcome) :
    Event.isLineWrite P L b (.wd v o) = false := rfl
@[simp] theorem Event.isLineWrite_rs (P : Params) (L : Line) (b : Bool) (x : Option Byte) (o : PortOutcome) :
    Event.isLineWrite P L b (.rs x o) = false := rfl
@[simp] theorem Event.isLineWrite_settle (P : Params) (L : Line) (b : Bool) (d : Units) :
    Event.isLineWrite P L b (.settle d) = false := rfl

section
variable {p : Event → Bool} (P : Params) (d : Units)

/-- How often a kind of event stands in a line write and its settle wait. -/
theorem countP_lineThenSettle (L : Line) (b : Bool) :
    (lineThenSettle P d L b).countP p =
      (p (.sc (lineMask P L) (lineValue P L b) .ok)).toNat + (settled d).countP p := by
  rw [lineThenSettle, List.countP_cons]
  cases p (.sc (lineMask P L) (lineValue P L b) .ok) <;> simp [Nat.add_comm]

/-- How often a kind of event stands in a mode setup that writes the lines of `setup`. -/
theorem countP_setup (setup : List (Line × Bool)) :
    (setup.flatMap fun w => lineThenSettle P d w.1 w.2).countP p =
      setup.countP (fun w => p (.sc (lineMask P w.1) (lineValue P w.1 w.2) .ok)) +
        setup.length * (settled d).countP p := by
  induction setup with
  | nil => simp
  | cons w ws ih =>
    rw [List.flatMap_cons, List.countP_append, ih, countP_lineThenSettle, List.countP_cons, List.length_cons,
      Nat.succ_mul]
    cases p (.sc (lineMask P w.1) (lineValue P w.1 w.2) .ok) <;> simp <;> omega

/-- How often a kind of event stands in the bytes placed and strobed, when it does not depend on the byte. -/
theorem countP_strobedBytes {k : Bool} (hk : ∀ b, p (.wd b .ok) = k) (bs : List Byte) :
    (bs.flatMap (strobedByte P d)).countP p =
      bs.length * (k.toNat + (p (.sc (lineMask P .stb) (lineValue P .stb true) .ok)).toNat +
        (p (.sc (lineMask P .stb) (lineValue P .stb false) .ok)).toNat + 3 * (settled d).countP p) := by
  have hbyte (b : Byte) : (strobedByte P d b).countP p =
      k.toNat + (p (.sc (lineMask P .stb) (lineValue P .stb true) .ok)).toNat +
        (p (.sc (lineMask P .stb) (lineValue P .stb false) .ok)).toNat + 3 * (settled d).countP p := by
    simp only [strobedByte, List.countP_append, List.countP_cons, countP_lineThenSettle, hk]
    cases k <;> simp <;> omega
  simp [List.countP_flatMap, Function.comp_def, hbyte]

/-- A kind of event that is no settle wait does not stand in one. -/
theorem countP_settled (hp : p (.settle d) = false) : (settled d).countP p = 0 := by
  unfold settled
  split <;> simp [hp]

theorem countP_settled_isSettle : (settled d).countP Event.isSettle = if d = 0#16 then 0 else 1 := by
  unfold settled
  split <;> rfl

end

/-- The trace of a command of Protocol B or C that ends `OK`: the lines of `setup` written, then the bytes sent. -/
def setupThenBytes (P : Params) (d : Units) (setup : List (Line × Bool)) (bs : List Byte) : List Event :=
  (setup.flatMap fun w => lineThenSettle P d w.1 w.2) ++ bs.flatMap (strobedByte P d)

theorem cmdBTrace_eq (P : Params) (d : Units) (b : Byte) :
    cmdBTrace P d b = setupThenBytes P d [(.cs, false), (.a0, false)] [b] := by
  simp [cmdBTrace, setupThenBytes]

theorem dataBTrace_eq (P : Params) (d : Units) (bs : List Byte) :
    dataBTrace P d bs = setupThenBytes P d [(.cs, false), (.a0, true)] bs := by
  simp [dataBTrace, setupThenBytes]

theorem writeCTrace_eq (P : Params) (d : Units) (bs : List Byte) :
    writeCTrace P d bs = setupThenBytes P d [(.aux, P.auxActive)] bs := by
  simp [writeCTrace, setupThenBytes]

section
variable {P : Params} {d : Units} {setup : List (Line × Bool)} {bs : List Byte}

/-- How often a kind of event stands in such a trace, when it does not depend on the bytes. -/
theorem countP_setupThenBytes {p : Event → Bool} {k : Bool} (hk : ∀ b, p (.wd b .ok) = k) :
    (setupThenBytes P d setup bs).countP p =
      setup.countP (fun w => p (.sc (lineMask P w.1) (lineValue P w.1 w.2) .ok)) +
        bs.length * (k.toNat + (p (.sc (lineMask P .stb) (lineValue P .stb true) .ok)).toNat +
          (p (.sc (lineMask P .stb) (lineValue P .stb false) .ok)).toNat) +
        (setup.length + 3 * bs.length) * (settled d).countP p := by
  rw [setupThenBytes, List.countP_append, countP_setup, countP_strobedBytes P d hk]
  ring

theorem setupThenBytes_dataWrites : (setupThenBytes P d setup bs).countP Event.isDataWrite = bs.length := by
  rw [countP_setupThenBytes (fun _ => rfl), countP_settled d rfl]
  simp [Event.isDataWrite]

theorem setupThenBytes_accesses :
    (setupThenBytes P d setup bs).countP Event.isAccess = setup.length + 3 * bs.length := by
  rw [countP_setupThenBytes (fun _ => rfl), countP_settled d rfl]
  simp [Event.isAccess, Nat.mul_comm]

/-- Every write of the command has its settle wait, where it has one. -/
theorem setupThenBytes_settles :
    (setupThenBytes P d setup bs).countP Event.isSettle = if d = 0#16 then 0 else setup.length + 3 * bs.length := by
  rw [countP_setupThenBytes (fun _ => rfl), countP_settled_isSettle]
  split <;> simp [Event.isSettle]

/-- Each byte strobes once to 1 and once to 0. -/
theorem setupThenBytes_strobes (hsetup : ∀ w ∈ setup, w.1 ≠ .stb) (b : Bool) :
    (setupThenBytes P d setup bs).countP (Event.isLineWrite P .stb b) = bs.length := by
  rw [countP_setupThenBytes (fun _ => rfl), countP_settled d rfl]
  have hzero :
      setup.countP (fun w => Event.isLineWrite P .stb b (.sc (lineMask P w.1) (lineValue P w.1 w.2) .ok)) = 0 :=
    List.countP_eq_zero.2 fun w hw => by simp [hsetup w hw]
  rw [hzero]
  cases b <;> simp

/-- The other lines are written in mode setup only. -/
theorem setupThenBytes_selects {L : Line} (hL : L ≠ .stb) (b : Bool) :
    (setupThenBytes P d setup bs).countP (Event.isLineWrite P L b) = setup.count (L, b) := by
  rw [countP_setupThenBytes (fun _ => rfl), countP_settled d rfl]
  simp only [Event.isLineWrite_lineWrite, Ne.symm hL, false_and, decide_false, Bool.toNat_false, Nat.mul_zero,
    Nat.add_zero]
  exact List.countP_congr fun w _ => by simp [Prod.ext_iff]

end

/-- How often a kind of event stands in a byte of Protocol A, when it does not depend on the bytes. -/
theorem countP_polledByte {p : Event → Bool} {k r : Bool} (P : Params) (hk : ∀ b, p (.wd b .ok) = k)
    (hr : ∀ x, p (.rs (some x) .ok) = r) (b : Byte) (xs : List Byte) (last : Byte) :
    (polledByte P b xs last).countP p =
      k.toNat + r.toNat * (xs.length + 1) + (p (.sc (lineMask P .stb) (lineValue P .stb true) .ok)).toNat +
        (p (.sc (lineMask P .stb) (lineValue P .stb false) .ok)).toNat := by
  simp only [polledByte, lineValue, List.countP_append, List.countP_cons, List.countP_nil, List.countP_map,
    Function.comp_def, hk, hr]
  cases k <;> cases r <;> simp [Bool.toNat, Bool.cond_eq_ite] <;> omega

/-- The counts of a trace of Protocol A: each byte is placed once, read for at least once, and strobed once. -/
theorem WriteATrace.counts {P : Params} {bs : List Byte} {tr : List Event} (h : WriteATrace P bs tr) :
    tr.countP Event.isDataWrite = bs.length ∧ tr.countP (Event.isLineWrite P .stb true) = bs.length ∧
    tr.countP (Event.isLineWrite P .stb false) = bs.length ∧ bs.length ≤ tr.countP Event.isStatusRead ∧
    tr.countP Event.isAccess = 3 * bs.length + tr.countP Event.isStatusRead ∧ tr.countP Event.isSettle = 0 := by
  induction h with
  | nil => simp
  | cons b bs xs last rest _ _ _ ih =>
    obtain ⟨hdata, hhi, hlo, hread, hacc, hsettle⟩ := ih
    simp only [List.countP_append, List.length_cons, hdata, hhi, hlo, hacc, hsettle]
    rw [countP_polledByte (p := Event.isDataWrite) P (fun _ => rfl) (fun _ => rfl),
      countP_polledByte (p := Event.isLineWrite P .stb true) P (fun _ => rfl) (fun _ => rfl),
      countP_polledByte (p := Event.isLineWrite P .stb false) P (fun _ => rfl) (fun _ => rfl),
      countP_polledByte (p := Event.isStatusRead) P (fun _ => rfl) (fun _ => rfl),
      countP_polledByte (p := Event.isAccess) P (fun _ => rfl) (fun _ => rfl),
      countP_polledByte (p := Event.isSettle) P (fun _ => rfl) (fun _ => rfl)]
    simp [Event.isDataWrite, Event.isStatusRead, Event.isAccess, Event.isSettle]
    omega

/-- Settles O50: the trace of a command that ends `OK` (`writeA_trace`, `cmdB_trace`, `dataB_trace`, `writeC_trace`),
counted: a word of Protocol A's language by induction (`WriteATrace.counts`), the traces of Protocols B and C as mode
setup and bytes (`setupThenBytes`). -/
theorem countLaws : Obligations.CountLaws := by
  unfold Obligations.CountLaws
  intro n s u t _ hh h hp hok
  refine ⟨fun hu => (writeA_trace hh hu h hp hok).counts, fun b hu => ?_, fun hu => ?_, fun hu => ?_⟩
  · rw [cmdB_trace hh hu h hp hok, cmdBTrace_eq]
    exact ⟨setupThenBytes_dataWrites, setupThenBytes_strobes (by simp) _, setupThenBytes_strobes (by simp) _,
      setupThenBytes_selects (by simp) _, setupThenBytes_selects (by simp) _, setupThenBytes_accesses,
      setupThenBytes_settles⟩
  · rw [dataB_trace hh hu h hp hok, dataBTrace_eq]
    exact ⟨setupThenBytes_dataWrites, setupThenBytes_strobes (by simp) _, setupThenBytes_strobes (by simp) _,
      setupThenBytes_selects (by simp) _, setupThenBytes_selects (by simp) _, setupThenBytes_accesses,
      setupThenBytes_settles⟩
  · rw [writeC_trace hh hu h hp hok, writeCTrace_eq]
    refine ⟨setupThenBytes_dataWrites, setupThenBytes_strobes (by simp) _, setupThenBytes_strobes (by simp) _,
      ?_, setupThenBytes_accesses, setupThenBytes_settles⟩
    rw [setupThenBytes_selects (by simp)]
    exact List.count_singleton_self

end Sys2Proof.Machine

/-! ## Protocol A (41_protocol_a.md) -/

namespace Sys2Proof.Machine

/-! ### Acceptance, and the empty transfer (41_protocol_a.md R103) -/

/-- A length within the bound, where there is one, is accepted (30_encoding.md R66). -/
theorem fitsMaxLen_of_le {P : Params} {n : Nat} (h : ∀ k, P.maxLen = some k → n ≤ k) : fitsMaxLen P n = true := by
  unfold fitsMaxLen
  cases hm : P.maxLen with
  | none => simp
  | some k => simp [h k hm]

/-- `WRITE_A` is accepted in `IDLE` with a buffer within the bound. -/
theorem exec_writeA {s : State} (hp : s.ph = .idle) (hlen : ∀ k, s.params.maxLen = some k → s.buf.length ≤ k) :
    exec .writeA s = .next ((s.clearSequencer (some .writeA)).enter (afterSetup s.buf.length)) :=
  acceptSequence_next.2 ⟨hp, fitsMaxLen_of_le hlen, rfl⟩

/-- Settles O22: with no bytes acceptance goes to `END` with `OK`, and the step after it is the return
(`endReturnsToIdle`). -/
theorem emptyWriteA : Obligations.EmptyWriteA := by
  unfold Obligations.EmptyWriteA
  intro s hp hh hb
  have hu := exec_writeA hp (by simp [hb])
  rw [hb] at hu
  exact ⟨_, _, hu, endReturnsToIdle _ hh rfl, rfl, rfl, rfl, rfl, rfl, rfl⟩

/-! ### The busy controller (41_protocol_a.md R105) -/

/-- Settles O33: the run of busy polls (`steps_poll_busy`) changes the trace and the environment only. -/
theorem busyForeverHangs : Obligations.BusyForeverHangs := by
  unfold Obligations.BusyForeverHangs
  intro n s hh ho hp hbusy
  exact ⟨_, steps_poll_busy hh ho hp hbusy, hp, ho, rfl, rfl, rfl, rfl, rfl⟩

/-! ### The lines of a protocol (10_state.md R28, 41_protocol_a.md R104, 42_protocol_b.md R111) -/

/-- The event is one the command `c` may emit: its control writes are those of a line of its protocol, and only
`WRITE_A` reads `STATUS`. -/
def Event.InProtocol (P : Params) (c : Command) : Event → Prop
  | .wd _ _ | .settle _ => True
  | .rs _ _ => c = .writeA
  | .sc m _ _ => ∃ L ∈ protocolLines c, m = lineMask P L

/-- `t` is a state of a run from `s` that has kept to the lines of the command `c`. -/
structure State.KeepsToLines (s : State) (c : Command) (t : State) : Prop where
  host : t.host = []
  params : t.params = s.params
  command : t.ph ≠ .idle → t.op = some c
  control_bit : ∀ k, (∀ L ∈ protocolLines c, k ≠ s.params.lineBit L) → t.control.bit k = s.control.bit k
  events : ∃ evs, t.trace = s.trace ++ evs ∧ ∀ e ∈ evs, e.InProtocol s.params c

theorem accessEvent_inProtocol {s : State} {c : Command} {r : Row} {i : Instr} (ho : s.op = some c)
    (hr : s.row s.ph = some r) (ha : s.issueAction r.action = .access i) (b : Byte) (o : PortOutcome) :
    (accessEvent i b o).InProtocol s.params c := by
  obtain ⟨hline, hread⟩ := row_lines ho hr
  obtain ⟨v, -, -, rfl, -⟩ | ⟨hact, rfl, -⟩ | ⟨L, x, hact, rfl, -⟩ := accessEffect_of_issue ha
  · trivial
  · have hc : c = .writeA := by_contra fun hc => hread hc hact
    cases o <;> exact hc
  · exact ⟨L, hline L x hact, rfl⟩

/-- The events a step of the engine adds are those of the running command's protocol. -/
theorem engineStep_events_inProtocol {s t : State} {c : Command} (ho : s.op = some c) (h : engineStep s = .next t) :
    ∃ evs, t.trace = s.trace ++ evs ∧ ∀ e ∈ evs, e.InProtocol s.params c := by
  have hsettle (d : Units) : (Event.settle d).InProtocol s.params c := trivial
  obtain ⟨ht, -⟩ | ⟨-, ht, -⟩ | ⟨r, i, o, hr, ha, -, -, ht | ⟨-, ht⟩⟩ := engineStep_events h
  · exact ⟨[], by simpa using ht, by simp⟩
  · exact ⟨_, ht, by simp [hsettle]⟩
  · exact ⟨_, ht, by simp [accessEvent_inProtocol ho hr ha]⟩
  · exact ⟨_, ht, by simp [accessEvent_inProtocol ho hr ha, hsettle]⟩

/-- A step of the engine leaves every bit that is no line of the running command's protocol. -/
theorem engineStep_control_bit_of_protocol {s t : State} {c : Command} {k : Fin 8} (ho : s.op = some c)
    (hk : ∀ L ∈ protocolLines c, k ≠ s.params.lineBit L) (h : engineStep s = .next t) :
    t.control.bit k = s.control.bit k := by
  obtain ht | ⟨r, L, b, hr, hact, ht⟩ := engineStep_control h <;> rw [ht]
  exact PortReg.bit_lineWrite_of_ne _ _ L b (hk L ((row_lines ho hr).1 L b hact))

/-- With no command presented the engine waits in `IDLE`. -/
theorem engineStep_idle {s : State} (hp : s.ph = .idle) : engineStep s = .next s :=
  engineStep_internal (by simp only [State.issue, hp])

theorem State.KeepsToLines.step {s t u : State} {c : Command} (hk : s.KeepsToLines c t) (h : step t = .next u) :
    s.KeepsToLines c u := by
  rw [step_engine hk.host] at h
  by_cases hp : t.ph = .idle
  · rw [engineStep_idle hp] at h
    cases h
    exact hk
  have ho := hk.command hp
  obtain ⟨evs, htr, hevs⟩ := hk.events
  obtain ⟨new, htr', hnew⟩ := engineStep_events_inProtocol ho h
  refine ⟨(engineStep_host h).trans hk.host, (engineStep_params h).trans hk.params,
    fun hu => (engineStep_same_command h hu).2.1.trans ho, fun k hl => ?_,
    evs ++ new, by rw [htr', htr, List.append_assoc], fun e he => ?_⟩
  · exact (engineStep_control_bit_of_protocol ho (hk.params ▸ hl) h).trans (hk.control_bit k hl)
  · exact (List.mem_append.1 he).elim (hevs e) fun he => hk.params ▸ hnew e he

/-- Settles O36: every step of the engine keeps to the lines of the running command (`State.KeepsToLines.step`). -/
theorem eachProtocolKeepsToItsLines : Obligations.EachProtocolKeepsToItsLines := by
  unfold Obligations.EachProtocolKeepsToItsLines
  intro n s t c hh ho _ h
  have hstart : s.KeepsToLines c s := ⟨hh, rfl, fun _ => ho, fun _ _ => rfl, [], by simp, by simp⟩
  have hrun : s.KeepsToLines c t := steps_induction (fun _ _ => State.KeepsToLines.step) hstart h
  obtain ⟨evs, htr, hevs⟩ := hrun.events
  exact ⟨hrun.control_bit, evs, htr, fun hc b o he => hc (hevs _ he), fun m v o he => hevs _ he⟩

/-! ### The port registers along a run (10_state.md R36) -/

/-- `DATA` after an event: a successful data write sets it. -/
def dataAfter (d : PortReg) : Event → PortReg
  | .wd v .ok => PortReg.write v
  | .wd _ (.err _) | .rs _ _ | .sc _ _ _ | .settle _ => d

/-- `CONTROL` after an event: a successful control write sets its masked bits. -/
def controlAfter (c : PortReg) : Event → PortReg
  | .sc m v .ok => c.writeMasked m v
  | .sc _ _ (.err _) | .wd _ _ | .rs _ _ | .settle _ => c

/-- The register effect of an access that succeeds is that of its event. -/
theorem accessEffect_eq_after {s : State} {a : Action} {i : Instr} (ha : s.issueAction a = .access i) (b : Byte) :
    (accessEffect i s).data = dataAfter s.data (accessEvent i b .ok) ∧
      (accessEffect i s).control = controlAfter s.control (accessEvent i b .ok) := by
  obtain ⟨v, -, -, rfl, -⟩ | ⟨-, rfl, -⟩ | ⟨L, x, -, rfl, -⟩ := accessEffect_of_issue ha
  · exact ⟨rfl, rfl⟩
  · exact ⟨rfl, rfl⟩
  · exact ⟨rfl, (PortReg.writeMasked_and _ _ _).symm⟩

/-- While no access of the command has failed, the port registers are those that the events of the trace leave, from
`d` and `c` at its acceptance. -/
def State.PortTraced (d c : PortReg) (t : State) : Prop :=
  t.ph ≠ .idle → (t.ph = .finished → t.result = .ok) →
    t.data = t.trace.foldl dataAfter d ∧ t.control = t.trace.foldl controlAfter c

theorem engineStep_portTraced {d c : PortReg} {s t : State} (hs : s.PortTraced d c) (h : engineStep s = .next t) :
    t.PortTraced d c := by
  obtain ⟨-, rfl⟩ | ⟨-, rfl⟩ | ⟨hp, rfl⟩ | ⟨r, i, hr, ha, ⟨-, rfl⟩ | ⟨k, -, rfl⟩⟩ := engineStep_cases h
  · exact hs
  · exact fun hidle => absurd rfl hidle
  · intro _ _
    obtain ⟨hdata, hcontrol⟩ := hs (by simp [hp]) (by simp [hp])
    obtain ⟨-, hd, hc, -⟩ := settleUnit_keeps s
    rw [hd, hc, hdata, hcontrol]
    obtain htr | ⟨-, -, htr⟩ := settleUnit_trace s <;> simp [htr, dataAfter, controlAfter]
  · intro _ _
    obtain ⟨hidle, -, hfin⟩ := State.row_some_phase hr
    obtain ⟨hdata, hcontrol⟩ := hs hidle fun h => absurd h hfin
    obtain ⟨-, hd, hc, -⟩ := afterAccess_keeps r i s
    obtain ⟨hdE, hcE⟩ := accessEffect_eq_after ha s.answer.status
    rw [hd, hc, hdE, hcE, hdata, hcontrol]
    obtain htr | ⟨-, -, htr⟩ := afterAccess_trace r i s <;> simp [htr, dataAfter, controlAfter]
  · obtain ⟨-, hph, -, -, -, -, hres, -⟩ := failed_keeps i k s
    exact fun _ hok => absurd (hres.symm.trans (hok hph)) (portErrorResult_ne_ok k)

/-- The port registers at the end of an accepted command that ends `OK` are those its trace leaves. -/
theorem port_of_ok {n : Nat} {s t : State} {op : Command} {f : Next} (hh : s.host = [])
    (h : steps n ((s.clearSequencer (some op)).enter f) = some t) (hp : t.ph = .finished) (hok : t.result = .ok) :
    t.data = t.trace.foldl dataAfter s.data ∧ t.control = t.trace.foldl controlAfter s.control := by
  have hstep (u v : State) (hu : u.host = [] ∧ u.PortTraced s.data s.control) (huv : step u = .next v) :
      v.host = [] ∧ v.PortTraced s.data s.control := by
    rw [step_engine hu.1] at huv
    exact ⟨(engineStep_host huv).trans hu.1, engineStep_portTraced hu.2 huv⟩
  have hrun := steps_induction hstep ⟨by simp [hh], fun _ _ => by simp⟩ h
  exact hrun.2 (by simp [hp]) fun _ => hok

/-! ### The end of a `WRITE_A` (41_protocol_a.md R102, R106) -/

/-- A byte placed, polled for and strobed leaves that byte in `DATA`. -/
theorem foldl_dataAfter_polledByte (P : Params) (b : Byte) (xs : List Byte) (last : Byte) (d : PortReg) :
    (polledByte P b xs last).foldl dataAfter d = PortReg.write b := by
  simp [polledByte, List.foldl_map, dataAfter]

/-- A byte placed, polled for and strobed leaves the strobe line at 0 and every other bit as it was. -/
theorem bit_foldl_controlAfter_polledByte (P : Params) (b : Byte) (xs : List Byte) (last : Byte) (c : PortReg)
    (k : Fin 8) :
    ((polledByte P b xs last).foldl controlAfter c).bit k = if k = P.stbBit then some false else c.bit k := by
  have hfold : (polledByte P b xs last).foldl controlAfter c =
      (c.writeMasked (lineMask P .stb) (lineValue P .stb true)).writeMasked (lineMask P .stb)
        (lineValue P .stb false) := by
    simp [polledByte, List.foldl_map, controlAfter, lineValue]
  rw [hfold, PortReg.bit_lineWrite, PortReg.bit_lineWrite]
  split <;> simp_all [Params.lineBit]

/-- The word of no bytes is empty (41_protocol_a.md R103). -/
theorem WriteATrace.eq_nil {P : Params} {tr : List Event} (h : WriteATrace P [] tr) : tr = [] := by
  generalize hbs : [] = bs at h
  cases h with
  | nil => rfl
  | cons => cases hbs

/-- A word of Protocol A's language leaves its last byte in `DATA`. -/
theorem WriteATrace.foldl_dataAfter {P : Params} {bs : List Byte} {tr : List Event} (h : WriteATrace P bs tr)
    (d : PortReg) : tr.foldl dataAfter d = (bs.getLast?.map PortReg.write).getD d := by
  induction h generalizing d with
  | nil => rfl
  | cons b bs xs last rest _ _ _ ih =>
    rw [List.foldl_append, foldl_dataAfter_polledByte, ih, List.getLast?_cons]
    cases bs.getLast? <;> rfl

/-- A word of Protocol A's language with at least one byte leaves the strobe line at 0; every other bit stays. -/
theorem WriteATrace.bit_foldl_controlAfter {P : Params} {bs : List Byte} {tr : List Event} (h : WriteATrace P bs tr)
    (c : PortReg) (k : Fin 8) :
    (tr.foldl controlAfter c).bit k = if k = P.stbBit ∧ bs ≠ [] then some false else c.bit k := by
  induction h generalizing c with
  | nil => simp
  | cons b bs xs last rest _ _ _ ih =>
    rw [List.foldl_append, ih, bit_foldl_controlAfter_polledByte]
    by_cases hk : k = P.stbBit <;> simp [hk]

/-- Settles O44: the trace is a word of the language (`writeA_trace`), and the port registers are those such a trace
leaves (`port_of_ok`). -/
theorem writeAWholeRun : Obligations.WriteAWholeRun := by
  unfold Obligations.WriteAWholeRun
  intro n s u t _ hh hu h hp hok
  have htr := writeA_trace hh hu h hp hok
  obtain ⟨-, -, rfl⟩ := acceptSequence_next.1 hu
  obtain ⟨hdata, hcontrol⟩ := port_of_ok hh h hp hok
  refine ⟨htr, fun hb => ?_, fun b hb => ⟨?_, ?_⟩, fun k hk => ?_⟩
  · rw [hb] at htr
    rw [hdata, hcontrol, htr.eq_nil]
    exact ⟨rfl, rfl⟩
  · rw [hdata, htr.foldl_dataAfter, hb]
    rfl
  · have hne : s.buf ≠ [] := fun hnil => by simp [hnil] at hb
    rw [hcontrol, htr.bit_foldl_controlAfter, if_pos ⟨rfl, hne⟩]
  · rw [hcontrol, htr.bit_foldl_controlAfter, if_neg fun h => hk h.1]

/-! ### The completion of a `WRITE_A` (41_protocol_a.md R101, R105) -/

/-- `t` stands in the same byte of the same `WRITE_A` as `s`, `n` answers and the events `evs` later. -/
structure State.Advances (s : State) (n : Nat) (evs : List Event) (t : State) : Prop where
  host : t.host = []
  op : t.op = some .writeA
  params : t.params = s.params
  buf : t.buf = s.buf
  idx : t.idx = s.idx
  env : t.env = envAfter n s.env
  trace : t.trace = s.trace ++ evs

theorem State.Advances.trans {s t u : State} {m n : Nat} {as bs : List Event} (h : s.Advances m as t)
    (h' : t.Advances n bs u) : s.Advances (m + n) (as ++ bs) u where
  host := h'.host
  op := h'.op
  params := h'.params.trans h.params
  buf := h'.buf.trans h.buf
  idx := h'.idx.trans h.idx
  env := by rw [h'.env, h.env, envAfter_add]
  trace := by rw [h'.trace, h.trace, List.append_assoc]

theorem State.Advances.enter {s t : State} {n : Nat} {evs : List Event} (h : s.Advances n evs t) (p : Phase) :
    s.Advances n evs (t.enter (.phase p)) := { h with }

theorem performed_advances {s : State} (hh : s.host = []) (ho : s.op = some .writeA) (i : Instr) :
    s.Advances 1 [accessEvent i s.answer.status .ok] (performed i s) where
  host := by simp [hh]
  op := by simp [ho]
  params := by simp
  buf := by simp
  idx := by simp
  env := by simp [envAfter]
  trace := by simp

theorem performed_lineWrite_advances {s : State} (hh : s.host = []) (ho : s.op = some .writeA) (L : Line) (b : Bool) :
    s.Advances 1 [.sc (lineMask s.params L) (lineValue s.params L b) .ok] (performed (lineWrite s.params L b) s) := by
  simpa only [lineWrite, accessEvent, lineValue_and_mask] using performed_advances hh ho (lineWrite s.params L b)

/-- A write of Protocol A that succeeds goes on to what its row names: there is no settle wait. -/
theorem step_writeA_write {s : State} {r : Row} {i : Instr} (hh : s.host = []) (ho : s.op = some .writeA)
    (hr : rowWriteA s.ph = some r) (ha : s.issueAction r.action = .access i) (hact : r.action ≠ .readStatus)
    (hok : (nthDraw 0 s.env).outcome = .ok) : step s = .next ((performed i s).enter r.next) := by
  have hrow : s.row s.ph = some r := by simpa only [State.row, ho] using hr
  rw [step_row_ok hh hrow ha hok, afterAccess_unsettled hact (State.settleUnits_eq_zero (.inl ho))]

/-- The placing of a byte of a `WRITE_A`. -/
theorem step_writeA_place {s : State} {b : Byte} (hh : s.host = []) (ho : s.op = some .writeA) (hp : s.ph = .place)
    (hb : s.buf[s.idx]? = some b) (hok : (nthDraw 0 s.env).outcome = .ok) :
    ∃ t, step s = .next t ∧ t.ph = .poll ∧ s.Advances 1 [.wd b .ok] t := by
  have hr : rowWriteA s.ph = some { action := .placeByte, next := .phase .poll } := by rw [hp]; rfl
  have ha : s.issueAction .placeByte = .access (.wd b) := by
    simp only [State.issueAction, State.currentByte, ho, memRead, hb]
  exact ⟨_, step_writeA_write hh ho hr ha (by simp) hok, rfl, (performed_advances hh ho (.wd b)).enter _⟩

/-- The poll of a byte: `c` reads that show busy, and the read that does not. -/
theorem steps_writeA_poll {s : State} {c : Nat} (hh : s.host = []) (ho : s.op = some .writeA) (hp : s.ph = .poll)
    (hok : ∀ j, j < c + 1 → (nthDraw j s.env).outcome = .ok)
    (hbusy : ∀ j, j < c → busy s.params (nthDraw j s.env).status = true)
    (hready : busy s.params (nthDraw c s.env).status = false) :
    ∃ t, steps (c + 1) s = some t ∧ t.ph = .stbHi ∧
      s.Advances (c + 1) ((List.range c).map (fun j => .rs (some (nthDraw j s.env).status) .ok) ++
        [.rs (some (nthDraw c s.env).status) .ok]) t := by
  obtain ⟨u, hu, hup, hadv⟩ : ∃ u, steps c s = some u ∧ u.ph = .poll ∧
      s.Advances c ((List.range c).map fun j => .rs (some (nthDraw j s.env).status) .ok) u :=
    ⟨_, steps_poll_busy hh ho hp fun j hj => ⟨hok j (by omega), hbusy j hj⟩, hp, hh, ho, rfl, rfl, rfl, rfl, rfl⟩
  have hanswer : u.answer = nthDraw c s.env :=
    (congrArg (nthDraw 0) hadv.env).trans (nthDraw_add c 0 s.env).symm
  have hdone : busy u.params (nthDraw c s.env).status = false := by rw [hadv.params, hready]
  have hread := step_poll_ok hadv.host hadv.op hup (by rw [hanswer]; exact hok c (by omega))
  rw [hanswer, hdone] at hread
  refine ⟨_, by rw [steps_add, hu, Option.bind_some, steps_succ_of_step hread, steps], rfl, hadv.trans ?_⟩
  exact ⟨hadv.host, hadv.op, rfl, rfl, rfl, rfl, rfl⟩

/-- The strobe pulse of a byte of a `WRITE_A` (40_port_ops.md R89), and `byte_done` after it. -/
theorem steps_writeA_strobe {s : State} (hh : s.host = []) (ho : s.op = some .writeA) (hp : s.ph = .stbHi)
    (hok : ∀ j, j < 2 → (nthDraw j s.env).outcome = .ok) :
    ∃ t, steps 2 s = some t.byteDone ∧
      s.Advances 2
        [.sc (lineMask s.params .stb) (lineMask s.params .stb) .ok, .sc (lineMask s.params .stb) 0#8 .ok] t := by
  have hhi := step_writeA_write hh ho (r := strobeHiRow) (by rw [hp]; rfl) rfl (by simp [strobeHiRow])
    (hok 0 (by omega))
  have hadv := (performed_lineWrite_advances hh ho .stb Config.stbOn).enter .stbLo
  have hlo := step_writeA_write hadv.host hadv.op (r := strobeLoRow) rfl rfl (by simp [strobeLoRow])
    (by rw [hadv.env]; exact hok 1 (by omega))
  exact ⟨_, (steps_succ_of_step hhi 1).trans (steps_succ_of_step hlo 0),
    hadv.trans (performed_lineWrite_advances hadv.host hadv.op .stb Config.stbOff)⟩

/-- A byte of a `WRITE_A` from its placing to `byte_done`, when its accesses succeed and `c` reads show busy. -/
theorem steps_writeA_byte {s : State} {b : Byte} {c : Nat} (hh : s.host = []) (ho : s.op = some .writeA)
    (hp : s.ph = .place) (hb : s.buf[s.idx]? = some b) (hok : ∀ j, j < c + 4 → (nthDraw j s.env).outcome = .ok)
    (hbusy : ∀ j, j < c → busy s.params (nthDraw (j + 1) s.env).status = true)
    (hready : busy s.params (nthDraw (c + 1) s.env).status = false) :
    ∃ t, steps (c + 4) s = some t.byteDone ∧
      s.Advances (c + 4) (polledByte s.params b ((List.range c).map fun j => (nthDraw (j + 1) s.env).status)
        (nthDraw (c + 1) s.env).status) t := by
  obtain ⟨u, hu, hup, hsu⟩ := step_writeA_place hh ho hp hb (hok 0 (by omega))
  have hdraw (j : Nat) : nthDraw j u.env = nthDraw (j + 1) s.env := by rw [hsu.env]; rfl
  obtain ⟨v, hv, hvp, huv⟩ := steps_writeA_poll (c := c) hsu.host hsu.op hup
    (fun j hj => by rw [hdraw]; exact hok _ (by omega)) (fun j hj => by rw [hdraw, hsu.params]; exact hbusy j hj)
    (by rw [hdraw, hsu.params]; exact hready)
  obtain ⟨t, ht, hvt⟩ := steps_writeA_strobe huv.host huv.op hvp fun j hj => by
    rw [huv.env, ← nthDraw_add, hdraw]
    exact hok _ (by omega)
  refine ⟨t, ?_, ?_⟩
  · rw [steps_succ_of_step hu, steps_add (c + 1) 2, hv, Option.bind_some, ht]
  · have h := hsu.trans (huv.trans hvt)
    rw [show 1 + (c + 1 + 2) = c + 4 by omega, huv.params, hsu.params] at h
    simpa [polledByte, hdraw, Function.comp_def] using h

/-- `byte_done` goes on as a start with the bytes that remain does. -/
theorem State.byteDone_eq_enter (s : State) :
    s.byteDone = ({ s with idx := s.idx + 1 } : State).enter (afterSetup (s.total - (s.idx + 1))) := by
  unfold State.byteDone afterSetup
  by_cases h : s.idx + 1 < s.total
  · rw [if_pos h, if_pos (by omega)]
    rfl
  · rw [if_neg h, if_neg (by omega)]
    rfl

/-- The bytes that remain of a `WRITE_A` are sent in an environment that serves them. -/
theorem steps_writeA_bytes {bs : List Byte} {s : State} {polls : List Nat} (hh : s.host = [])
    (ho : s.op = some .writeA) (hbs : s.buf.drop s.idx = bs) (hlen : polls.length = bs.length)
    (hserves : servesPolls s.params polls s.env) :
    ∃ t, steps (polls.sum + 4 * bs.length) (s.enter (afterSetup bs.length)) = some t ∧ t.ph = .finished ∧
      t.result = .ok ∧ t.env = envAfter (polls.sum + 4 * bs.length) s.env ∧
      t.trace = s.trace ++ servedTrace s.params bs polls s.env := by
  induction bs generalizing s polls with
  | nil =>
    obtain rfl := List.eq_nil_of_length_eq_zero hlen
    exact ⟨s.finish, rfl, rfl, rfl, rfl, by simp [servedTrace]⟩
  | cons b bs ih =>
    obtain ⟨c, cs, rfl⟩ := List.exists_cons_of_length_eq_add_one hlen
    obtain ⟨hok, hbusy, hready, hrest⟩ := hserves
    have hb : s.buf[s.idx]? = some b := by rw [← List.head?_drop, hbs, List.head?_cons]
    have htail : s.buf.drop (s.idx + 1) = bs := by rw [← List.tail_drop, hbs, List.tail_cons]
    obtain ⟨u, hu, hadv⟩ := steps_writeA_byte (s := s.enter (.phase .place)) hh ho rfl hb hok hbusy hready
    have hidx : u.idx = s.idx := hadv.idx
    have hbuf : u.buf = s.buf := hadv.buf
    have hparams : u.params = s.params := hadv.params
    have henv : u.env = envAfter (c + 4) s.env := hadv.env
    have hremain : u.total - (u.idx + 1) = bs.length := by
      rw [State.total, hadv.op, hidx, hbuf, ← htail, List.length_drop]
    obtain ⟨t, ht, htp, htr, hte, htt⟩ := ih (s := { u with idx := u.idx + 1 }) (polls := cs) hadv.host hadv.op
      (by rw [hidx, hbuf]; exact htail) (Nat.succ.inj hlen) (by rw [hparams, henv]; exact hrest)
    have hsum : (c :: cs).sum + 4 * (b :: bs).length = (c + 4) + (cs.sum + 4 * bs.length) := by
      simp only [List.sum_cons, List.length_cons]
      omega
    refine ⟨t, ?_, htp, htr, ?_, ?_⟩
    · rw [hsum, steps_add, show s.enter (afterSetup (b :: bs).length) = s.enter (.phase .place) from rfl, hu,
        Option.bind_some, State.byteDone_eq_enter, hremain, ht]
    · rw [hsum, envAfter_add, ← henv, hte]
    · rw [htt, hadv.trace, hparams, henv, servedTrace, List.append_assoc]
      rfl

/-- A `WRITE_A` accepted in an environment that serves its bytes ends `OK`. -/
theorem writeA_completes {s u : State} {polls : List Nat} (hh : s.host = []) (hu : exec .writeA s = .next u)
    (hlen : polls.length = s.buf.length) (hserves : servesPolls s.params polls s.env) :
    ∃ t, steps (polls.sum + 4 * s.buf.length) u = some t ∧ t.ph = .finished ∧ t.result = .ok ∧
      t.env = envAfter (polls.sum + 4 * s.buf.length) s.env ∧ t.trace = servedTrace s.params s.buf polls s.env := by
  obtain ⟨-, -, rfl⟩ := acceptSequence_next.1 hu
  exact steps_writeA_bytes (s := s.clearSequencer (some .writeA)) hh rfl rfl hlen hserves

/-- Settles O49: by induction on the bytes that remain (`steps_writeA_bytes`), each placed, polled for and strobed
(`steps_writeA_byte`). -/
theorem writeACompletes : Obligations.WriteACompletes := by
  unfold Obligations.WriteACompletes
  intro s u polls hh _ hu hlen hserves
  exact writeA_completes hh hu hlen hserves

/-! ### Every word of the language occurs (41_protocol_a.md R102) -/

/-- An answer that succeeds, with a status byte. -/
def okAnswer (status : Byte) : Draw := { outcome := .ok, status := status, applied := true }

/-- The environment with the answers `ds` lined up (log 2). -/
def linedUp (ds : List Draw) : Env := { queue := ds, always := none, drawn := 0 }

/-- The answers to the accesses of a byte whose status reads show `xs` and then `last`. -/
def byteAnswers (xs : List Byte) (last : Byte) : List Draw :=
  (0#8 :: xs ++ [last, 0#8, 0#8]).map okAnswer

theorem envAfter_linedUp (ds ds' : List Draw) : envAfter ds.length (linedUp (ds ++ ds')) = linedUp ds' := by
  induction ds with
  | nil => rfl
  | cons d ds ih => exact ih

theorem nthDraw_linedUp {ds : List Draw} {j : Nat} {d : Draw} (h : ds[j]? = some d) : nthDraw j (linedUp ds) = d := by
  induction ds generalizing j with
  | nil => simp at h
  | cons x xs ih =>
    cases j with
    | zero => exact Option.some.inj h
    | succ j => exact ih (by simpa using h)

/-- The answers lined up for a byte: they succeed, and those to the status reads show the bytes of the word. -/
theorem nthDraw_byteAnswers (xs : List Byte) (last : Byte) (ds : List Draw) :
    (∀ j, j < xs.length + 4 → (nthDraw j (linedUp (byteAnswers xs last ++ ds))).outcome = .ok) ∧
    (∀ j (hj : j < xs.length), (nthDraw (j + 1) (linedUp (byteAnswers xs last ++ ds))).status = xs[j]) ∧
    (nthDraw (xs.length + 1) (linedUp (byteAnswers xs last ++ ds))).status = last := by
  have hget {j : Nat} {x : Byte} (h : (0#8 :: xs ++ [last, 0#8, 0#8])[j]? = some x) :
      nthDraw j (linedUp (byteAnswers xs last ++ ds)) = okAnswer x := by
    refine nthDraw_linedUp ?_
    have hmap : (byteAnswers xs last)[j]? = some (okAnswer x) := by rw [byteAnswers, List.getElem?_map, h]; rfl
    rw [List.getElem?_append_left (List.getElem?_eq_some_iff.1 hmap).1, hmap]
  refine ⟨fun j hj => ?_, fun j hj => ?_, ?_⟩
  · rw [hget (List.getElem?_eq_getElem (by simp; omega))]
    rfl
  · rw [hget (x := xs[j]) (by simp [List.getElem?_append_left hj])]
    rfl
  · rw [hget (x := last) (by simp)]
    rfl

/-- For every word of the language there are answers that serve its bytes and show it. -/
theorem WriteATrace.exists_answers {P : Params} {bs : List Byte} {tr : List Event} (h : WriteATrace P bs tr) :
    ∃ polls ds, polls.length = bs.length ∧ servesPolls P polls (linedUp ds) ∧
      servedTrace P bs polls (linedUp ds) = tr := by
  induction h with
  | nil => exact ⟨[], [], rfl, trivial, rfl⟩
  | cons b bs xs last rest hbusy hready _ ih =>
    obtain ⟨polls, ds, hlen, hserves, htr⟩ := ih
    obtain ⟨hok, hreads, hlast⟩ := nthDraw_byteAnswers xs last ds
    have hrest : envAfter (xs.length + 4) (linedUp (byteAnswers xs last ++ ds)) = linedUp ds := by
      simpa [byteAnswers] using envAfter_linedUp (byteAnswers xs last) ds
    have hmap : (List.range xs.length).map
        (fun j => (nthDraw (j + 1) (linedUp (byteAnswers xs last ++ ds))).status) = xs :=
      List.ext_getElem (by simp) fun j hj _ => by simpa using hreads j (by simpa using hj)
    refine ⟨xs.length :: polls, byteAnswers xs last ++ ds, by simp [hlen], ⟨hok, fun j hj => ?_, ?_, ?_⟩, ?_⟩
    · rw [hreads j hj]
      exact hbusy _ (List.getElem_mem hj)
    · rw [hlast, hready]
    · rw [hrest]
      exact hserves
    · rw [servedTrace, hmap, hlast, hrest, htr]

/-- Settles O54: the answers that show the word (`WriteATrace.exists_answers`) serve its `WRITE_A`
(`writeA_completes`). -/
theorem everyWriteATraceOccurs : Obligations.EveryWriteATraceOccurs := by
  unfold Obligations.EveryWriteATraceOccurs
  intro s tr hh hp hmax h
  obtain ⟨polls, ds, hlen, hserves, htr⟩ := h.exists_answers
  have hu := exec_writeA (s := { s with env := linedUp ds }) hp hmax
  obtain ⟨t, ht, hfin, hok, -, htrace⟩ := writeA_completes (s := { s with env := linedUp ds }) hh hu hlen hserves
  exact ⟨linedUp ds, _, _, t, hu, ht, hfin, hok, htrace.trans htr⟩

end Sys2Proof.Machine

/-! ## Protocol B (42_protocol_b.md) -/

namespace Sys2Proof.Machine

/-! ### The select lines (42_protocol_b.md R117, 43_protocol_c.md R122) -/

/-- What a step does to `CONTROL` where the port is the engine's: nothing, or the line write of the phase's row. -/
theorem step_control {s t : State} (hport : s.portIsEngines = true) (h : step s = .next t) :
    t.control = s.control ∨ ∃ r L b, s.row s.ph = some r ∧ r.action = .writeLine L b ∧
      t.control = s.control.writeMasked (lineMask s.params L) (lineValue s.params L b) := by
  obtain ⟨-, he⟩ | ⟨rest, -, he⟩ | ⟨rest, -, -, he⟩ | ⟨rest, -, rfl⟩ | ⟨r, rest, i, -, -, hd, he⟩ |
    ⟨r, rest, why, -, -, -, rfl⟩ | ⟨m, rest, -, hm, rfl | ⟨v, -, rfl⟩ | ⟨j, v, rfl, rfl⟩⟩ := step_cases h
  · exact engineStep_control he
  · exact engineStep_control (s := { s with host := rest }) he
  · exact engineStep_control he
  · exact .inl rfl
  · exact .inl ((exec_command_control hd he).trans (s.present_control r rest))
  · exact .inl rfl
  · exact .inl rfl
  · exact .inl rfl
  · simp [State.portIsEngines, hm] at hport

/-- A line that the rows write to one value only keeps that value once it has it. -/
theorem step_keeps_line {s t : State} {L : Line} {b : Bool} (hport : s.portIsEngines = true) (h : step s = .next t)
    (hrow : ∀ r x, s.row s.ph = some r → r.action = .writeLine L x → x = b)
    (hb : s.control.bit (s.params.lineBit L) = some b) : t.control.bit (s.params.lineBit L) = some b := by
  obtain ht | ⟨r, M, x, hr, hact, ht⟩ := step_control hport h <;> rw [ht]
  · exact hb
  by_cases hM : M = L
  · subst hM
    rw [PortReg.bit_lineWrite, if_pos rfl, hrow r x hr hact]
  · rw [PortReg.bit_lineWrite_of_ne _ _ _ _ fun hbit => hM (lineBit_injective _ hbit).symm, hb]

/-- Settles O40: the tables write CS to 0 and AUX to `AUX_ACTIVE` only (`row_writeLine`), and such a line keeps its
value (`step_keeps_line`). -/
theorem selectsStayAsserted : Obligations.SelectsStayAsserted := by
  unfold Obligations.SelectsStayAsserted
  intro s t hport h
  refine ⟨step_keeps_line (L := .cs) hport h fun r x hr hact => ?_,
    step_keeps_line (L := .aux) hport h fun r x hr hact => ?_⟩
  · simpa using row_writeLine hr hact
  · simpa using row_writeLine hr hact

/-! ### The port registers after a command of Protocol B or C (42_protocol_b.md R110, R115 to R117) -/

section
variable (P : Params) (d : Units)

/-- A settle wait touches no port register (40_port_ops.md R86). -/
@[simp] theorem foldl_dataAfter_settled (r : PortReg) : (settled d).foldl dataAfter r = r := by
  unfold settled
  split <;> rfl

@[simp] theorem foldl_controlAfter_settled (r : PortReg) : (settled d).foldl controlAfter r = r := by
  unfold settled
  split <;> rfl

@[simp] theorem foldl_dataAfter_lineThenSettle (L : Line) (b : Bool) (r : PortReg) :
    (lineThenSettle P d L b).foldl dataAfter r = r := by
  simp [lineThenSettle, dataAfter]

@[simp] theorem bit_foldl_controlAfter_lineThenSettle (L : Line) (b : Bool) (r : PortReg) (k : Fin 8) :
    ((lineThenSettle P d L b).foldl controlAfter r).bit k = if k = P.lineBit L then some b else r.bit k := by
  simp [lineThenSettle, controlAfter, PortReg.bit_lineWrite]

/-- The bytes sent leave the last of them in `DATA`. -/
theorem foldl_dataAfter_strobedBytes (bs : List Byte) (r : PortReg) :
    (bs.flatMap (strobedByte P d)).foldl dataAfter r = (bs.getLast?.map PortReg.write).getD r := by
  induction bs generalizing r with
  | nil => rfl
  | cons b bs ih =>
    have hbyte : (strobedByte P d b).foldl dataAfter r = PortReg.write b := by simp [strobedByte, dataAfter]
    rw [List.flatMap_cons, List.foldl_append, hbyte, ih, List.getLast?_cons]
    cases bs.getLast? <;> rfl

/-- The bytes sent leave the strobe line at 0, where there is one, and every other control bit as it was. -/
theorem bit_foldl_controlAfter_strobedBytes (bs : List Byte) (r : PortReg) (k : Fin 8) :
    ((bs.flatMap (strobedByte P d)).foldl controlAfter r).bit k =
      if k = P.stbBit ∧ bs ≠ [] then some false else r.bit k := by
  induction bs generalizing r with
  | nil => simp
  | cons b bs ih =>
    rw [List.flatMap_cons, List.foldl_append, ih]
    by_cases hk : k = P.stbBit <;> simp [strobedByte, controlAfter, Params.lineBit, hk]

end

/-- The three lines of Protocol B have bits of their own (10_state.md R23). -/
theorem protocolB_bits_ne (P : Params) : P.csBit ≠ P.a0Bit ∧ P.csBit ≠ P.stbBit ∧ P.a0Bit ≠ P.stbBit := by
  have h := P.linesDistinct
  simp only [List.nodup_cons, List.mem_cons, not_or] at h
  obtain ⟨⟨hcs, ha0, -⟩, ⟨hca, -⟩, -⟩ := h
  exact ⟨hca, Ne.symm hcs, Ne.symm ha0⟩

/-- A control bit after a trace of Protocol B whose mode setup writes A0 to `a`. -/
theorem bit_foldl_controlAfter_protocolB (P : Params) (d : Units) (a : Bool) (bs : List Byte) (c : PortReg)
    (k : Fin 8) :
    ((setupThenBytes P d [(.cs, false), (.a0, a)] bs).foldl controlAfter c).bit k =
      if k = P.stbBit ∧ bs ≠ [] then some false
      else if k = P.lineBit .a0 then some a else if k = P.lineBit .cs then some false else c.bit k := by
  rw [setupThenBytes, List.foldl_append, bit_foldl_controlAfter_strobedBytes]
  simp

/-- The port registers at the end of a command of Protocol B that ends `OK`, its mode setup writing A0 to `a`. -/
theorem protocolB_port {n : Nat} {s t : State} {op : Command} {d : Units} {a : Bool} {bs : List Byte}
    (hh : s.host = []) (h : steps n ((s.clearSequencer (some op)).enter (.phase .selCs)) = some t)
    (hp : t.ph = .finished) (hok : t.result = .ok)
    (htr : t.trace = setupThenBytes s.params d [(.cs, false), (.a0, a)] bs) :
    t.data = (bs.getLast?.map PortReg.write).getD s.data ∧
    t.control.bit s.params.csBit = some false ∧ t.control.bit s.params.a0Bit = some a ∧
    t.control.bit s.params.stbBit = (if bs = [] then s.control.bit s.params.stbBit else some false) ∧
    ∀ k : Fin 8, k ≠ s.params.csBit → k ≠ s.params.a0Bit → k ≠ s.params.stbBit →
      t.control.bit k = s.control.bit k := by
  obtain ⟨hdata, hcontrol⟩ := port_of_ok hh h hp hok
  obtain ⟨hca, hcs, has⟩ := protocolB_bits_ne s.params
  have hbit (k : Fin 8) := bit_foldl_controlAfter_protocolB s.params d a bs s.control k
  rw [← htr, ← hcontrol] at hbit
  refine ⟨?_, ?_, ?_, ?_, fun k hkc hka hks => ?_⟩
  · rw [hdata, htr, setupThenBytes, List.foldl_append, foldl_dataAfter_strobedBytes]
    simp
  · simp [hbit, Params.lineBit, hca, hcs]
  · simp [hbit, Params.lineBit, has]
  · by_cases hb : bs = [] <;> simp [hbit, Params.lineBit, hb, hcs.symm, has.symm]
  · simp [hbit, Params.lineBit, hkc, hka, hks]

/-- Settles O45: the trace is `cmdB_trace`, the port registers those it leaves (`protocolB_port`). -/
theorem cmdBWholeRun : Obligations.CmdBWholeRun := by
  unfold Obligations.CmdBWholeRun
  intro n s u t b _ hh hu h hp hok
  have htr := cmdB_trace hh hu h hp hok
  obtain ⟨-, rfl⟩ := accept_next.1 hu
  exact ⟨htr, protocolB_port hh h hp hok (htr.trans (cmdBTrace_eq ..))⟩

/-- Settles O46: the trace is `dataB_trace`, the port registers those it leaves (`protocolB_port`). -/
theorem dataBWholeRun : Obligations.DataBWholeRun := by
  unfold Obligations.DataBWholeRun
  intro n s u t _ hh hu h hp hok
  have htr := dataB_trace hh hu h hp hok
  obtain ⟨-, -, rfl⟩ := acceptSequence_next.1 hu
  obtain ⟨hdata, hcs, ha0, hstb, hrest⟩ := protocolB_port hh h hp hok (htr.trans (dataBTrace_eq ..))
  refine ⟨htr, hcs, ha0, fun hb => ?_, fun b hb => ?_, hrest⟩
  · exact ⟨by simpa [hb] using hdata, by rw [hstb, if_pos hb]⟩
  · have hne : s.buf ≠ [] := fun hnil => by simp [hnil] at hb
    exact ⟨by simpa [hb] using hdata, by rw [hstb, if_neg hne]⟩

/-! ### The completion of the commands of Protocols B and C (42_protocol_b.md R109, R114, 43_protocol_c.md R121) -/

/-- The writes that a command of Protocol B or C with `n` bytes has still to make from a phase with the index at `i`:
its mode setup, and three for each byte. -/
def writesFrom (n i : Nat) : Phase → Nat
  | .selCs => 2 + 3 * n
  | .selA0 | .selAux => 1 + 3 * n
  | .place => 3 * (n - i)
  | .stbHi => 3 * (n - i) - 1
  | .stbLo => 3 * (n - i) - 2
  | .idle | .poll | .settle | .finished => 0

/-- The writes the running command has still to make. -/
def State.writesLeft (s : State) : Nat := writesFrom s.total s.idx s.ph

theorem State.writesLeft_byteDone (s : State) : s.byteDone.writesLeft = 3 * (s.total - (s.idx + 1)) := by
  unfold State.byteDone
  split
  · rfl
  · next h => rw [show s.total - (s.idx + 1) = 0 by omega]; rfl

theorem State.writesLeft_enter_afterSetup {s : State} (hi : s.idx = 0) :
    (s.enter (afterSetup s.total)).writesLeft = 3 * s.total := by
  unfold afterSetup
  split
  · rw [State.enter_phase, State.writesLeft, hi]
    rfl
  · next h => rw [show s.total = 0 by omega]; rfl

/-- The sequencer stands before the access of a row, or has ended the command with `OK`. -/
def State.Standing (s : State) : Prop :=
  (s.ph = .finished ∧ s.result = .ok) ∨ ∃ r, s.row s.ph = some r ∧ s.indexFits s.ph = true

/-- `u` is a state after one write of `s` that succeeded, before what follows it is entered: one answer is drawn, and
the command, its inputs and the index are those of `s`. -/
structure State.Wrote (s u : State) : Prop where
  host : u.host = s.host
  op : u.op = s.op
  params : u.params = s.params
  buf : u.buf = s.buf
  cfg : u.cfg = s.cfg
  idx : u.idx = s.idx
  env : u.env = (envNext s.env).2

theorem performed_wrote (i : Instr) (s : State) : s.Wrote (performed i s) :=
  ⟨by simp, by simp, by simp, by simp, by simp, by simp, by simp⟩

/-- A write that succeeds goes on to what its row names after one step and one for each settle unit. -/
theorem steps_write {s : State} {r : Row} {i : Instr} (hh : s.host = []) (hr : s.row s.ph = some r)
    (ha : s.issueAction r.action = .access i) (hact : r.action ≠ .readStatus) (hok : s.answer.outcome = .ok) :
    ∃ u, steps (s.settleUnits.toNat + 1) s = some (u.enter r.next) ∧ s.Wrote u := by
  have hstep := step_row_ok hh hr ha hok
  rw [steps_succ_of_step hstep]
  by_cases hd : s.settleUnits = 0#16
  · rw [afterAccess_unsettled hact hd, hd]
    exact ⟨_, rfl, performed_wrote i s⟩
  · rw [afterAccess_settled hact hd]
    obtain ⟨-, hwait⟩ := settleWaitEnds
      { (performed i s).emit (.settle s.settleUnits) with cnt := s.settleUnits, ret := some r.next, ph := .settle }
      r.next ((performed_host i s).trans hh) rfl hd rfl
    exact ⟨_, hwait, { performed_wrote i s with }⟩

/-- What may follow a write, once entered, is a phase before an access or the end with `OK`. -/
theorem State.standing_enter {s : State} {n : Next} (h : s.retFits n = true) : (s.enter n).Standing := by
  cases n with
  | phase p =>
    simp only [State.retFits, State.phaseFits, Bool.and_eq_true, Option.isSome_iff_exists] at h
    obtain ⟨⟨r, hr⟩, hi⟩ := h
    exact .inr ⟨r, hr, hi⟩
  | finish => exact .inl ⟨rfl, rfl⟩
  | byteDone =>
    rw [State.enter_byteDone, State.byteDone]
    split
    · next hlt =>
      obtain ⟨r, hr⟩ := Option.isSome_iff_exists.1 (State.row_place_isSome (s := s) (by omega))
      exact .inr ⟨r, hr, decide_eq_true hlt⟩
    · exact .inl ⟨rfl, rfl⟩

/-- A write that succeeds is one of those that were left. -/
theorem State.Wrote.writesLeft {s u : State} {r : Row} (hw : s.Wrote u) (hA : s.op ≠ some .writeA)
    (hr : s.row s.ph = some r) (hi : s.indexFits s.ph = true) :
    (u.enter r.next).writesLeft + 1 = s.writesLeft := by
  have htotal : u.total = s.total := State.total_congr hw.op hw.buf
  have hphase (p : Phase) : (u.enter (.phase p)).writesLeft = writesFrom s.total s.idx p := by
    rw [← htotal, ← hw.idx]
    rfl
  have hsetup (h0 : s.idx = 0) : (u.enter (afterSetup s.total)).writesLeft = 3 * s.total := by
    rw [← htotal, State.writesLeft_enter_afterSetup (hw.idx.trans h0)]
  have hdone : u.byteDone.writesLeft = 3 * (s.total - (s.idx + 1)) := by
    rw [State.writesLeft_byteDone, htotal, hw.idx]
  have hleft : s.writesLeft = writesFrom s.total s.idx s.ph := rfl
  obtain ⟨hp, rfl⟩ | ⟨hp, b, rfl, -⟩ | ⟨hp, rfl, -⟩ | ⟨hp, rfl⟩ | ⟨-, ho, -⟩ | ⟨hp, rfl⟩ | ⟨hp, rfl⟩ :=
    State.row_cases hr
  · rw [hleft, hphase, hp, writesFrom, writesFrom]
    omega
  · rw [hp] at hi hleft
    rw [hleft, hsetup (beq_iff_eq.1 hi), writesFrom, Nat.add_comm]
  · rw [hp] at hi hleft
    rw [hleft, hsetup (beq_iff_eq.1 hi), writesFrom, Nat.add_comm]
  · rw [hp] at hi hleft
    have hlt : s.idx < s.total := of_decide_eq_true hi
    rw [hleft, if_neg hA, hphase, writesFrom, writesFrom]
    omega
  · exact absurd ho hA
  · rw [hp] at hi hleft
    have hlt : s.idx < s.total := of_decide_eq_true hi
    rw [hleft, strobeHiRow, hphase, writesFrom, writesFrom]
    omega
  · rw [hp] at hi hleft
    have hlt : s.idx < s.total := of_decide_eq_true hi
    rw [hleft, strobeLoRow, State.enter_byteDone, hdone, writesFrom]
    omega

/-- The row that a command of Protocol B or C stands before issues a write. -/
theorem State.row_write {s : State} {r : Row} (hA : s.op ≠ some .writeA) (hr : s.row s.ph = some r)
    (hi : s.indexFits s.ph = true) : r.action ≠ .readStatus ∧ ∃ i, s.issueAction r.action = .access i := by
  obtain ⟨-, rfl⟩ | ⟨-, b, rfl, -⟩ | ⟨-, rfl, -⟩ | ⟨hp, rfl⟩ | ⟨-, ho, -⟩ | ⟨-, rfl⟩ | ⟨-, rfl⟩ := State.row_cases hr
  · exact ⟨by simp, _, rfl⟩
  · exact ⟨by simp, _, rfl⟩
  · exact ⟨by simp, _, rfl⟩
  · rw [hp] at hi
    have hlt : s.idx < s.total := of_decide_eq_true hi
    obtain ⟨v, hv⟩ : ∃ v, s.currentByte = some v :=
      ⟨_, (State.currentByte_eq hlt).trans (List.getElem?_eq_getElem (by rwa [State.length_bytes]))⟩
    exact ⟨by simp, .wd v, by simp only [State.issueAction, hv]⟩
  · exact absurd ho hA
  · exact ⟨by simp [strobeHiRow], _, rfl⟩
  · exact ⟨by simp [strobeLoRow], _, rfl⟩

/-- A command of Protocol B or C whose accesses succeed makes the writes that are left, each with its settle wait, and
ends `OK`. -/
theorem steps_writesLeft {s : State} (hh : s.host = []) (hA : s.op ≠ some .writeA) (hs : s.Standing)
    (hok : ∀ j, j < s.writesLeft → (nthDraw j s.env).outcome = .ok) :
    ∃ t, steps (s.writesLeft * (s.settleUnits.toNat + 1)) s = some t ∧ t.ph = .finished ∧ t.result = .ok ∧
      t.env = envAfter s.writesLeft s.env := by
  obtain ⟨hp, hres⟩ | ⟨r, hr, hi⟩ := hs
  · have hnone : s.writesLeft = 0 := by rw [State.writesLeft, hp]; rfl
    rw [hnone, Nat.zero_mul]
    exact ⟨s, rfl, hp, hres, rfl⟩
  · obtain ⟨hact, i, ha⟩ := State.row_write hA hr hi
    have hfirst : s.answer.outcome = .ok := hok 0 (by rw [← (performed_wrote i s).writesLeft hA hr hi]; omega)
    obtain ⟨u, hu, hw⟩ := steps_write hh hr ha hact hfirst
    have hleft := hw.writesLeft hA hr hi
    have hret : u.retFits r.next = true :=
      (State.retFits_congr hw.op hw.buf hw.idx hw.params _).trans (State.retFits_of_row hr hi)
    have hunits : (u.enter r.next).settleUnits = s.settleUnits :=
      State.settleUnits_congr ((u.enter_op _).trans hw.op) ((u.enter_cfg _).trans hw.cfg)
    have henv : (u.enter r.next).env = (envNext s.env).2 := (u.enter_env _).trans hw.env
    obtain ⟨t, ht, hfin, hres, hte⟩ := steps_writesLeft (s := u.enter r.next) (by rw [u.enter_host, hw.host, hh])
      (by rwa [u.enter_op, hw.op]) (State.standing_enter hret)
      fun j hj => by rw [henv]; exact hok (j + 1) (by omega)
    refine ⟨t, ?_, hfin, hres, ?_⟩
    · rw [← hleft, Nat.succ_mul, Nat.add_comm, steps_add, hu, Option.bind_some, ← hunits, ht]
    · rw [hte, henv, ← hleft]
      rfl
termination_by s.writesLeft
decreasing_by omega

/-- Settles O48: each command makes the writes left to it (`steps_writesLeft`), counted at its acceptance. -/
theorem protocolsBAndCComplete : Obligations.ProtocolsBAndCComplete := by
  unfold Obligations.ProtocolsBAndCComplete
  intro s u hh _
  refine ⟨fun b hu hok => ?_, fun hu hok => ?_, fun hu hok => ?_⟩
  · obtain ⟨-, rfl⟩ := accept_next.1 hu
    exact steps_writesLeft (s := (s.clearSequencer (some (.cmdB b))).enter (.phase .selCs)) hh (by simp)
      (State.standing_enter rfl) hok
  · obtain ⟨-, -, rfl⟩ := acceptSequence_next.1 hu
    exact steps_writesLeft (s := (s.clearSequencer (some .dataB)).enter (.phase .selCs)) hh (by simp)
      (State.standing_enter rfl) hok
  · obtain ⟨-, -, rfl⟩ := acceptSequence_next.1 hu
    exact steps_writesLeft (s := (s.clearSequencer (some .writeC)).enter (.phase .selAux)) hh (by simp)
      (State.standing_enter rfl) hok

end Sys2Proof.Machine

/-! ## Protocol C (43_protocol_c.md) -/

namespace Sys2Proof.Machine

/-- AUX and the strobe line have bits of their own (10_state.md R23). -/
theorem auxBit_ne_stbBit (P : Params) : P.auxBit ≠ P.stbBit :=
  fun h => absurd (lineBit_injective P (L := .aux) (M := .stb) h) nofun

/-- `DATA` after a trace of Protocol C: the last byte, where there is one. -/
theorem foldl_dataAfter_writeCTrace (P : Params) (d : Units) (bs : List Byte) (r : PortReg) :
    (writeCTrace P d bs).foldl dataAfter r = (bs.getLast?.map PortReg.write).getD r := by
  rw [writeCTrace, List.foldl_append, foldl_dataAfter_lineThenSettle, foldl_dataAfter_strobedBytes]

/-- A control bit after a trace of Protocol C. -/
theorem bit_foldl_controlAfter_writeCTrace (P : Params) (d : Units) (bs : List Byte) (c : PortReg) (k : Fin 8) :
    ((writeCTrace P d bs).foldl controlAfter c).bit k =
      if k = P.stbBit ∧ bs ≠ [] then some false else if k = P.auxBit then some P.auxActive else c.bit k := by
  rw [writeCTrace, List.foldl_append, bit_foldl_controlAfter_strobedBytes, bit_foldl_controlAfter_lineThenSettle]
  rfl

/-- Settles O47: the trace is `writeC_trace`, and the port registers are those such a trace leaves (`port_of_ok`). -/
theorem writeCWholeRun : Obligations.WriteCWholeRun := by
  unfold Obligations.WriteCWholeRun
  intro n s u t _ hh hu h hp hok
  have htr := writeC_trace hh hu h hp hok
  obtain ⟨-, -, rfl⟩ := acceptSequence_next.1 hu
  obtain ⟨hdata, hcontrol⟩ := port_of_ok hh h hp hok
  rw [htr, foldl_dataAfter_writeCTrace] at hdata
  have haux : s.params.auxBit ≠ s.params.stbBit := auxBit_ne_stbBit s.params
  have hbit (k : Fin 8) := bit_foldl_controlAfter_writeCTrace s.params s.cfg.settleUnits s.buf s.control k
  rw [← htr, ← hcontrol] at hbit
  refine ⟨htr, ?_, fun hb => ⟨?_, ?_⟩, fun b hb => ⟨?_, ?_⟩, fun k hka hks => ?_⟩
  · rw [hbit, if_neg fun h => haux h.1, if_pos rfl]
  · rw [hdata, hb]
    rfl
  · rw [hbit, if_neg fun h => h.2 hb, if_neg haux.symm]
  · rw [hdata, hb]
    rfl
  · have hne : s.buf ≠ [] := fun hnil => by simp [hnil] at hb
    rw [hbit, if_pos ⟨rfl, hne⟩]
  · rw [hbit, if_neg fun h => hks h.1, if_neg hka]

end Sys2Proof.Machine

/-! ## Exceptions: precise errors and the strobed bytes (60_exceptions.md R129, R131, R134) -/

namespace Sys2Proof.Machine

/-! ### What the event of a failed access counts for -/

/-- The event of an access records its outcome. -/
theorem accessEvent_outcome {i : Instr} (hi : Instr.isAccess i = true) (b : Byte) (o : PortOutcome) :
    (accessEvent i b o).outcome = o := by
  cases i with
  | wd v | sc m v => rfl
  | rs => cases o <;> rfl
  | settle d | writeA | cmdB b | dataB | writeC => cases hi

@[simp] theorem Event.settle_outcome (d : Units) : (Event.settle d).outcome = .ok := rfl

/-- An event with an error is no successful write. -/
theorem Event.isWrite_of_err {e : Event} {k : PortError} (h : e.outcome = .err k) : e.isWrite = false := by
  cases e <;> simp_all [Event.outcome, Event.isWrite]

/-- An event with an error is no successful line write. -/
theorem Event.isLineWrite_of_err {e : Event} {k : PortError} (h : e.outcome = .err k) (P : Params) (L : Line)
    (b : Bool) : e.isLineWrite P L b = false := by
  rw [Event.isLineWrite, beq_eq_false_iff_ne]
  rintro rfl
  cases h

/-! ### Errors are precise (60_exceptions.md R134) -/

/-- A trace without an error, its writes settled, is precise wherever the sequencer stands. -/
theorem State.precise_of_all_ok {s : State} (hok : ∀ e ∈ s.trace, e.outcome = .ok)
    (hd : s.settleUnits ≠ 0#16 → writesSettled s.settleUnits s.trace = true) : s.Precise where
  earlier_ok e he := hok e (List.mem_of_mem_dropLast he)
  last_error e k he hk := by
    rw [hok e (List.mem_of_getLast? he)] at hk
    cases hk
  writes_settled := hd

theorem State.precise_of_trace_nil {s : State} (h : s.trace = []) : s.Precise :=
  State.precise_of_all_ok (by simp [h]) (by simp [h, writesSettled])

/-- While a command runs no access of it has failed. -/
theorem State.Precise.all_ok {s : State} (hs : s.Precise) (hi : s.ph ≠ .idle) (hf : s.ph ≠ .finished) :
    ∀ e ∈ s.trace, e.outcome = .ok := by
  intro e he
  obtain hnil | ⟨init, last, htr⟩ := s.trace.eq_nil_or_concat
  · simp [hnil] at he
  obtain he | rfl : e ∈ init ∨ e = last := by simpa [htr] using he
  · exact hs.earlier_ok e (by simpa [htr] using he)
  · cases ho : e.outcome with
    | ok => rfl
    | err k =>
      obtain ⟨h | h, -⟩ := hs.last_error e k (by simp [htr]) ho
      · exact absurd h hf
      · exact absurd h hi

/-- A settle unit emits a settle wait at most, which cannot fail. -/
theorem settleUnit_precise {s : State} (hs : s.Precise) (hp : s.ph = .settle) : s.settleUnit.Precise := by
  have hok := hs.all_ok (by simp [hp]) (by simp [hp])
  obtain ⟨-, -, -, hop, -, hcfg, -⟩ := settleUnit_keeps s
  have hu : s.settleUnit.settleUnits = s.settleUnits := State.settleUnits_congr hop hcfg
  obtain htr | ⟨-, -, htr⟩ := settleUnit_trace s
  · exact State.precise_of_all_ok (htr ▸ hok) (by rw [hu, htr]; exact hs.writes_settled)
  · refine State.precise_of_all_ok ?_ fun hd => ?_
    · simpa [htr, or_imp, forall_and] using hok
    · rw [hu] at hd ⊢
      rw [htr]
      exact writesSettled_append (hs.writes_settled hd) rfl

/-- An access that succeeds is followed by its settle wait, where the command has one. -/
theorem afterAccess_precise {s : State} {r : Row} {i : Instr} (hs : s.Precise) (hr : s.row s.ph = some r)
    (ha : s.issueAction r.action = .access i) : (afterAccess r i s).Precise := by
  obtain ⟨hidle, -, hfin⟩ := State.row_some_phase hr
  have hok := hs.all_ok hidle hfin
  have hev := accessEvent_outcome (State.issueAction_isAccess ha) s.answer.status .ok
  obtain ⟨-, -, -, hop, -, hcfg, -⟩ := afterAccess_keeps r i s
  have hu : (afterAccess r i s).settleUnits = s.settleUnits := State.settleUnits_congr hop hcfg
  refine State.precise_of_all_ok ?_ fun hd => ?_
  · obtain htr | ⟨-, -, htr⟩ := afterAccess_trace r i s <;>
      simpa [htr, or_imp, forall_and, hev] using hok
  · rw [hu] at hd ⊢
    obtain ⟨hread, hpoll⟩ := State.row_readStatus hr
    have hact : r.action ≠ .readStatus := fun h =>
      hd (State.settleUnits_eq_zero (.inl (hpoll (hread.1 h)).1))
    rw [afterAccess_settled hact hd]
    simpa using writesSettled_append (b := [accessEvent i s.answer.status .ok, .settle s.settleUnits])
      (hs.writes_settled hd) (by simp [writesSettled, startsWithSettle, Event.isWrite])

/-- A failed access ends the command, and its event is the last. -/
theorem failed_precise {s : State} {r : Row} {i : Instr} (k : PortError) (hs : s.Precise) (hr : s.row s.ph = some r)
    (ha : s.issueAction r.action = .access i) : (failed i k s).Precise := by
  obtain ⟨hidle, -, hfin⟩ := State.row_some_phase hr
  have hev := accessEvent_outcome (State.issueAction_isAccess ha) s.answer.status (.err k)
  obtain ⟨-, hph, hop, -, -, -, hres, htr, -, hcfg, -⟩ := failed_keeps i k s
  have hu : (failed i k s).settleUnits = s.settleUnits := State.settleUnits_congr hop hcfg
  refine ⟨?_, fun e k' he hk' => ⟨.inl hph, ?_⟩, fun hd => ?_⟩
  · rw [htr, List.dropLast_concat]
    exact hs.all_ok hidle hfin
  · obtain rfl : accessEvent i s.answer.status (.err k) = e := by simpa [htr] using he
    obtain rfl : k = k' := by simpa [hev] using hk'
    exact hres
  · rw [hu] at hd ⊢
    rw [htr]
    exact writesSettled_append (hs.writes_settled hd) (by simp [writesSettled, Event.isWrite_of_err hev])

theorem engineStep_precise {s t : State} (hs : s.Precise) (h : engineStep s = .next t) : t.Precise := by
  obtain ⟨-, rfl⟩ | ⟨-, rfl⟩ | ⟨hp, rfl⟩ | ⟨r, i, hr, ha, ⟨-, rfl⟩ | ⟨k, -, rfl⟩⟩ := engineStep_cases h
  · exact hs
  · exact ⟨hs.earlier_ok, fun e k he hk => ⟨.inr rfl, (hs.last_error e k he hk).2⟩, fun hd => absurd rfl hd⟩
  · exact settleUnit_precise hs hp
  · exact afterAccess_precise hs hr ha
  · exact failed_precise k hs hr ha

/-- Nothing outside the engine adds to the trace: a host's move leaves it, or clears it with the command. -/
theorem step_precise {s t : State} (hs : s.Precise) (h : step s = .next t) : t.Precise := by
  obtain ⟨-, he⟩ | ⟨rest, -, he⟩ | ⟨rest, -, -, he⟩ | ⟨rest, -, rfl⟩ | ⟨r, rest, i, -, -, hd, he⟩ |
    ⟨r, rest, why, -, -, -, rfl⟩ | ⟨m, rest, -, -, rfl | ⟨v, -, rfl⟩ | ⟨k, v, -, rfl⟩⟩ := step_cases h
  · exact engineStep_precise hs he
  · have hrest : ({ s with host := rest } : State).Precise := ⟨hs.earlier_ok, hs.last_error, hs.writes_settled⟩
    exact engineStep_precise hrest he
  · exact engineStep_precise hs he
  · exact State.precise_of_trace_nil rfl
  · obtain ⟨-, c, f, rfl, -⟩ := exec_command_cases hd he
    exact State.precise_of_trace_nil (State.enter_trace _ f)
  · exact State.precise_of_trace_nil rfl
  all_goals exact ⟨hs.earlier_ok, hs.last_error, hs.writes_settled⟩

/-- Settles O41: an access is issued while no access of the command has failed (`State.Precise.all_ok`), so a failed one
is the last; its event follows settled writes only, and it ends the command (`failed_precise`). -/
theorem errorsArePrecise : Obligations.ErrorsArePrecise := by
  unfold Obligations.ErrorsArePrecise
  exact ⟨State.precise_of_trace_nil rfl, fun _ _ => step_precise⟩

/-! ### The strobed bytes (60_exceptions.md R131) -/

/-- How many strobe pulses have ended when the sequencer goes on to this: `byte_done` follows the end of one
(40_port_ops.md R91). -/
def Next.pulses : Next → Nat
  | .byteDone => 1
  | .phase _ | .finish => 0

theorem State.bytesDone_of_ne_settle {s : State} (h : s.ph ≠ .settle) : s.bytesDone = s.idx := by
  unfold State.bytesDone
  split <;> simp_all

/-- In a settle wait the pulse it follows is counted with the finished bytes (log 8). -/
theorem State.bytesDone_settle {s : State} (h : s.ph = .settle) :
    s.bytesDone = s.idx + (s.ret.getD (.phase .idle)).pulses := by
  unfold State.bytesDone
  split
  · next hr => rw [hr]; rfl
  · next hn =>
    cases hr : s.ret with
    | none => rfl
    | some n =>
      cases n with
      | byteDone => exact (hn h hr).elim
      | phase p | finish => rfl

/-- Going on to what follows counts the pulse that has ended. -/
theorem State.bytesDone_enter {s : State} {n : Next} (hn : n ≠ .phase .settle ∨ s.ret = some n) :
    (s.enter n).bytesDone = s.idx + n.pulses := by
  cases n with
  | finish => rfl
  | byteDone =>
    have hp : s.byteDone.ph ≠ .settle := by unfold State.byteDone; split <;> simp
    rw [State.enter_byteDone, State.bytesDone_of_ne_settle hp, s.byteDone_spec.1]
    rfl
  | phase p =>
    by_cases hp : p = .settle
    · subst hp
      have hr : s.ret = some (.phase .settle) := hn.resolve_left fun h => h rfl
      rw [State.bytesDone_settle rfl, State.enter_ret, hr]
      rfl
    · exact State.bytesDone_of_ne_settle hp

/-- A settle unit finishes no byte that the wait has not counted. -/
theorem settleUnit_bytesDone {s : State} (hp : s.ph = .settle) : s.settleUnit.bytesDone = s.bytesDone := by
  have hn : s.ret.getD (.phase .idle) ≠ .phase .settle ∨ s.ret = some (s.ret.getD (.phase .idle)) := by
    cases s.ret <;> simp
  rw [State.bytesDone_settle hp]
  obtain ⟨-, -, hu⟩ | ⟨-, -, hu⟩ | ⟨-, hu⟩ | ⟨-, -, hu⟩ := settleUnit_cases s hp <;> rw [hu]
  · exact State.bytesDone_enter hn
  · exact State.bytesDone_settle rfl
  · exact State.bytesDone_enter (s := { s with cnt := 0#16 }) hn
  · exact State.bytesDone_settle hp

/-- A row goes on to a phase of its table, to `byte_done` or to the end, and never into a settle wait. -/
theorem State.row_next_ne_settle {s : State} {p : Phase} {r : Row} (h : s.row p = some r) : r.next ≠ .phase .settle := by
  obtain ⟨-, hn⟩ | ⟨-, -, hn⟩ | ⟨q, hn, hq, -⟩ := State.row_next h <;> rw [hn]
  · simp
  · unfold afterSetup
    split <;> simp
  · obtain ⟨r', hr'⟩ := Option.isSome_iff_exists.1 hq
    simpa using (State.row_some_phase hr').2.1

/-- After an access that succeeds the finished bytes are those before it, and the pulse its row ends. -/
theorem afterAccess_bytesDone {s : State} {r : Row} (hr : s.row s.ph = some r) (i : Instr) :
    (afterAccess r i s).bytesDone = s.idx + r.next.pulses := by
  by_cases hact : r.action = .readStatus
  · obtain ⟨hread, hpoll⟩ := State.row_readStatus hr
    rw [afterAccess_read hr hact, State.bytesDone_enter (.inl (by split <;> simp)), performed_idx,
      (hpoll (hread.1 hact)).2]
    rfl
  by_cases hd : s.settleUnits = 0#16
  · rw [afterAccess_unsettled hact hd, State.bytesDone_enter (.inl (State.row_next_ne_settle hr)), performed_idx]
  · rw [afterAccess_settled hact hd, State.bytesDone_settle rfl]
    exact congrArg (· + r.next.pulses) (performed_idx i s)

/-- The low strobe write is the one access that ends a pulse. -/
theorem accessEvent_strobedBytes {s : State} {p : Phase} {r : Row} {i : Instr} (hr : s.row p = some r)
    (ha : s.issueAction r.action = .access i) (b : Byte) :
    strobedBytes s.params [accessEvent i b .ok] = r.next.pulses := by
  have hline (L : Line) (x : Bool) : strobedBytes s.params [accessEvent (lineWrite s.params L x) b .ok] =
      if L = .stb ∧ x = false then 1 else 0 := by
    simp [strobedBytes, lineWrite, accessEvent, lineValue_and_mask, List.countP_singleton]
  have hsetup : (afterSetup s.total).pulses = 0 := by
    unfold afterSetup
    split <;> rfl
  obtain ⟨-, rfl⟩ | ⟨-, x, rfl, -⟩ | ⟨-, rfl, -⟩ | ⟨-, rfl⟩ | ⟨-, -, rfl⟩ | ⟨-, rfl⟩ | ⟨-, rfl⟩ := State.row_cases hr
  · cases ha
    exact hline .cs false
  · cases ha
    exact (hline .a0 x).trans hsetup.symm
  · cases ha
    exact (hline .aux s.params.auxActive).trans hsetup.symm
  · obtain ⟨-, v, -, rfl⟩ | ⟨h, -⟩ | ⟨L, x, h, -⟩ := State.issueAction_access ha
    · rfl
    · cases h
    · cases h
  · cases ha
    rfl
  · cases ha
    exact hline .stb true
  · cases ha
    exact hline .stb false

theorem strobedBytes_append (P : Params) (a b : List Event) :
    strobedBytes P (a ++ b) = strobedBytes P a + strobedBytes P b := List.countP_append

theorem strobedBytes_settle (P : Params) (d : Units) : strobedBytes P [.settle d] = 0 := rfl

theorem settleUnit_strobedBytes (P : Params) (s : State) :
    strobedBytes P s.settleUnit.trace = strobedBytes P s.trace := by
  obtain htr | ⟨-, -, htr⟩ := settleUnit_trace s
  · rw [htr]
  · rw [htr, strobedBytes_append, strobedBytes_settle, Nat.add_zero]

theorem afterAccess_strobedBytes {s : State} {r : Row} {i : Instr} (hr : s.row s.ph = some r)
    (ha : s.issueAction r.action = .access i) :
    strobedBytes s.params (afterAccess r i s).trace = strobedBytes s.params s.trace + r.next.pulses := by
  have hev := accessEvent_strobedBytes hr ha s.answer.status
  obtain htr | ⟨-, -, htr⟩ := afterAccess_trace r i s
  · rw [htr, strobedBytes_append, hev]
  · rw [htr, List.append_cons, strobedBytes_append, strobedBytes_append, hev, strobedBytes_settle, Nat.add_zero]

theorem failed_strobedBytes {s : State} {a : Action} {i : Instr} (k : PortError) (ha : s.issueAction a = .access i) :
    strobedBytes s.params (failed i k s).trace = strobedBytes s.params s.trace := by
  have hev := accessEvent_outcome (State.issueAction_isAccess ha) s.answer.status (.err k)
  obtain ⟨-, -, -, -, -, -, -, htr, -⟩ := failed_keeps i k s
  rw [htr, strobedBytes_append, strobedBytes, strobedBytes, List.countP_singleton, Event.isLineWrite_of_err hev]
  rfl

theorem State.strobesCounted_of_op_none {s : State} (h : s.op = none) : s.StrobesCounted := fun ho => by simp [h] at ho

theorem engineStep_strobesCounted {s t : State} (hs : s.StrobesCounted) (h : engineStep s = .next t) :
    t.StrobesCounted := by
  obtain ⟨-, rfl⟩ | ⟨-, rfl⟩ | ⟨hp, rfl⟩ | ⟨r, i, hr, ha, hout⟩ := engineStep_cases h
  · exact hs
  · exact State.strobesCounted_of_op_none rfl
  · intro ho
    obtain ⟨hparams, -, -, hop, -⟩ := settleUnit_keeps s
    rw [hparams, settleUnit_strobedBytes, settleUnit_bytesDone hp]
    exact hs (hop ▸ ho)
  · obtain ⟨c, hc⟩ := State.op_of_row hr
    have hcount : strobedBytes s.params s.trace = s.idx :=
      (hs (by simp [hc])).trans (State.bytesDone_of_ne_settle (State.row_some_phase hr).2.1)
    obtain ⟨-, rfl⟩ | ⟨k, -, rfl⟩ := hout <;> intro _
    · rw [(afterAccess_keeps r i s).1, afterAccess_strobedBytes hr ha, afterAccess_bytesDone hr, hcount]
    · obtain ⟨hparams, hph, -, hidx, -⟩ := failed_keeps i k s
      rw [hparams, failed_strobedBytes k ha, hcount, State.bytesDone_of_ne_settle (by simp [hph]), hidx]

/-- An accepted command has strobed nothing. -/
theorem exec_command_strobesCounted {i : Instr} {s t : State} {w : CmdWord} (hd : decodeCommand w = .instr i)
    (h : exec i s = .next t) : t.StrobesCounted := by
  obtain ⟨-, c, f, rfl, hcf⟩ := exec_command_cases hd h
  intro _
  have hf : f ≠ .phase .settle ∧ f.pulses = 0 := by
    obtain ⟨-, rfl⟩ | ⟨-, rfl⟩ | ⟨-, rfl⟩ | ⟨-, rfl⟩ := hcf
    · unfold afterSetup
      split <;> exact ⟨by simp, rfl⟩
    all_goals exact ⟨by simp, rfl⟩
  rw [State.bytesDone_enter (.inl hf.1), hf.2, State.enter_trace]
  rfl

theorem step_strobesCounted {s t : State} (hs : s.StrobesCounted) (h : step s = .next t) : t.StrobesCounted := by
  obtain ⟨-, he⟩ | ⟨rest, -, he⟩ | ⟨rest, -, -, he⟩ | ⟨rest, -, rfl⟩ | ⟨r, rest, i, -, -, hd, he⟩ |
    ⟨r, rest, why, -, -, -, rfl⟩ | ⟨m, rest, -, -, rfl | ⟨v, -, rfl⟩ | ⟨k, v, -, rfl⟩⟩ := step_cases h
  · exact engineStep_strobesCounted hs he
  · exact engineStep_strobesCounted (s := { s with host := rest }) hs he
  · exact engineStep_strobesCounted hs he
  · exact State.strobesCounted_of_op_none rfl
  · exact exec_command_strobesCounted hd he
  · exact State.strobesCounted_of_op_none rfl
  all_goals exact hs

/-- Settles O42: the low strobe write is counted by the trace and by `byte_done`, at once or after its settle wait
(`afterAccess_strobedBytes`, `afterAccess_bytesDone`), and nothing else is counted by either. -/
theorem strobesAreCounted : Obligations.StrobesAreCounted := by
  unfold Obligations.StrobesAreCounted
  exact ⟨State.strobesCounted_of_op_none rfl, fun _ _ => step_strobesCounted⟩

end Sys2Proof.Machine

/-! ## The host command interface (60_exceptions.md R127 to R129, R139 to R142) -/

namespace Sys2Proof.Machine

/-! ### The host's moves (60_exceptions.md R139, R141) -/

/-- A command word that decodes, presented in `IDLE`, is run with its inputs sampled (log 10). -/
theorem step_issue_instr {s : State} {r : Request} {rest : List HostMove} {i : Instr} (hp : s.ph = .idle)
    (hh : s.host = .issue r :: rest) (hd : decodeCommand r.word = .instr i) :
    step s = exec i (s.present r rest) := by
  simp only [step, State.turn, hh, State.issueTurn, if_pos hp, hd]

/-- An illegal command word presented in `IDLE` is answered (log 9). -/
theorem step_issue_rejected {s : State} {r : Request} {rest : List HostMove} {why : Reject} (hp : s.ph = .idle)
    (hh : s.host = .issue r :: rest) (hd : decodeCommand r.word = .rejected why) :
    step s = .next (s.present r rest).acceptIllegal := by
  simp only [step, State.turn, hh, State.issueTurn, if_pos hp, hd]

theorem step_issue_busy {s : State} {r : Request} {rest : List HostMove} (hp : s.ph ≠ .idle)
    (hh : s.host = .issue r :: rest) : step s = .refused .commandWhileBusy := by
  simp only [step, State.turn, hh, State.issueTurn, if_neg hp]

/-- A change from outside happens in `IDLE`, and is refused by its name while a command runs. -/
theorem step_betweenCommands {s t : State} {why : Refusal} (h : s.turn = s.betweenCommands t why) :
    step s = if s.ph = .idle then .next t else .refused why := by
  by_cases hp : s.ph = .idle
  · simp only [step, h, State.betweenCommands, if_pos hp]
  · simp only [step, h, State.betweenCommands, if_neg hp]

/-- Settles O14: the state with the inputs sampled is `State.present` (log 10). -/
theorem presentedCommandRuns : Obligations.PresentedCommandRuns := by
  unfold Obligations.PresentedCommandRuns
  exact fun s r rest i hp hh hd => step_issue_instr hp hh hd

/-- Settles O18: the four changes are legal between commands only (`step_betweenCommands`), and a command in `IDLE`
only. -/
theorem misuseWhileRunningIsRefused : Obligations.MisuseWhileRunningIsRefused := by
  unfold Obligations.MisuseWhileRunningIsRefused
  intro s rest hp
  have hchange {t : State} {why : Refusal} (h : s.turn = s.betweenCommands t why) : step s = .refused why :=
    (step_betweenCommands h).trans (if_neg hp)
  exact ⟨fun r hh => step_issue_busy hp hh, fun b hh => hchange (by rw [State.turn, hh]),
    fun c hh => hchange (by rw [State.turn, hh]), fun v hh => hchange (by rw [State.turn, hh]),
    fun m v hh => hchange (by rw [State.turn, hh])⟩

/-- Settles O17: two steps, the answer (`step_issue_rejected`) and the return from `END` (`endReturnsToIdle`), neither
of which touches the port. -/
theorem illegalWordAnswered : Obligations.IllegalWordAnswered := by
  unfold Obligations.IllegalWordAnswered
  intro s r why hp hh hd
  have hanswer := step_issue_rejected hp hh hd
  have hreturn := endReturnsToIdle (s.present r []).acceptIllegal rfl rfl
  have hone : steps 1 s = some (s.present r []).acceptIllegal := by rw [steps_succ_of_step hanswer, steps]
  have htwo : steps 2 s = some (s.present r []).acceptIllegal.returnToHost := by
    rw [steps_succ_of_step hanswer, steps_succ_of_step hreturn, steps]
    rfl
  refine ⟨2, _, by omega, htwo, rfl, rfl, fun m v hpos hle hv => ?_⟩
  obtain rfl | rfl : m = 1 ∨ m = 2 := by omega
  · obtain rfl := Option.some.inj (hone.symm.trans hv)
    exact ⟨rfl, rfl, rfl, rfl, rfl⟩
  · obtain rfl := Option.some.inj (htwo.symm.trans hv)
    exact ⟨rfl, rfl, rfl, rfl, rfl⟩

/-! ### Acceptance and refusal of a command (30_encoding.md R66, 60_exceptions.md R139, R141) -/

/-- The lengths refused are those beyond the bound, where there is one. -/
theorem fitsMaxLen_eq_false_iff (P : Params) (n : Nat) :
    fitsMaxLen P n = false ↔ ∃ k, P.maxLen = some k ∧ k < n := by
  unfold fitsMaxLen
  cases P.maxLen with
  | none => simp
  | some k => simp; omega

theorem accept_busy {s : State} (hp : s.ph ≠ .idle) (c : Command) (f : Next) :
    accept c f s = .refused .commandWhileBusy := if_neg hp

theorem acceptSequence_busy {s : State} (hp : s.ph ≠ .idle) (c : Command) (f : Next) :
    acceptSequence c f s = .refused .commandWhileBusy := by
  rw [acceptSequence, if_neg fun h => hp h.1, accept_busy hp]

theorem acceptSequence_tooLong {s : State} {k : Nat} (hp : s.ph = .idle) (hm : s.params.maxLen = some k)
    (hk : k < s.buf.length) (c : Command) (f : Next) : acceptSequence c f s = .refused .bufferTooLong :=
  if_pos ⟨hp, (fitsMaxLen_eq_false_iff _ _).2 ⟨k, hm, hk⟩⟩

/-- Settles O20: the state after acceptance is the cleared sequencer in the first phase of the command's table
(`accept_next`, `acceptSequence_next`), which for a `WRITE_A` is named by `afterSetup`. -/
theorem commandsAreAccepted : Obligations.CommandsAreAccepted := by
  unfold Obligations.CommandsAreAccepted
  intro s hp
  refine ⟨fun b => accept_next.2 ⟨hp, rfl⟩, fun hlen => ?_⟩
  have hfits : fitsMaxLen s.params s.buf.length = true := fitsMaxLen_of_le hlen
  refine ⟨acceptSequence_next.2 ⟨hp, hfits, rfl⟩, acceptSequence_next.2 ⟨hp, hfits, rfl⟩, fun hpos => ?_, fun hnil => ?_⟩
  · rw [exec_writeA hp hlen, afterSetup, if_pos hpos]
    rfl
  · rw [exec_writeA hp hlen, afterSetup, hnil]
    rfl

/-- Settles O21: the acceptance of every command asks for `IDLE`, and that of a sequence command for the bound. -/
theorem commandsAreRefused : Obligations.CommandsAreRefused := by
  unfold Obligations.CommandsAreRefused
  exact ⟨fun s hp => ⟨acceptSequence_busy hp _ _, fun b => accept_busy hp _ _, acceptSequence_busy hp _ _,
      acceptSequence_busy hp _ _⟩,
    fun s k hp hm hk => ⟨acceptSequence_tooLong hp hm hk _ _, acceptSequence_tooLong hp hm hk _ _,
      acceptSequence_tooLong hp hm hk _ _⟩⟩

/-! ### No step faults (60_exceptions.md R141, R142, log 12) -/

/-- Only the rows of `PLACE` place a byte. -/
theorem State.row_placeByte {s : State} {p : Phase} {r : Row} (h : s.row p = some r) (ha : r.action = .placeByte) :
    p = .place := by
  obtain ⟨-, rfl⟩ | ⟨-, b, rfl, -⟩ | ⟨-, rfl, -⟩ | ⟨hp, -⟩ | ⟨-, -, rfl⟩ | ⟨-, rfl⟩ | ⟨-, rfl⟩ := State.row_cases h
  · cases ha
  · cases ha
  · cases ha
  · exact hp
  · cases ha
  · cases ha
  · cases ha

/-- A row issues its access wherever the byte index fits: the byte to place is there. -/
theorem State.issueAction_next {s : State} {p : Phase} {r : Row} (hr : s.row p = some r) (hi : s.indexFits p = true) :
    ∃ i, s.issueAction r.action = .access i := by
  cases hact : r.action with
  | readStatus => exact ⟨.rs, rfl⟩
  | writeLine L b => exact ⟨lineWrite s.params L b, rfl⟩
  | placeByte =>
    obtain rfl := State.row_placeByte hr hact
    have hlt : s.idx < s.total := of_decide_eq_true hi
    have hb : s.currentByte = some (s.bytes[s.idx]'(s.length_bytes ▸ hlt)) := by
      rw [State.currentByte_eq hlt, List.getElem?_eq_getElem]
    exact ⟨.wd _, by rw [State.issueAction, hb]⟩

/-- Where the sequencer fits, its phase has a row unless it performs no access. -/
theorem State.row_of_sequencerFits {s : State} (hs : s.sequencerFits = true) (hidle : s.ph ≠ .idle)
    (hset : s.ph ≠ .settle) (hfin : s.ph ≠ .finished) : ∃ r, s.row s.ph = some r := by
  have hfits : s.phaseFits s.ph = true := by
    unfold State.sequencerFits at hs
    split at hs <;> simp_all
  exact Option.isSome_iff_exists.1 (Bool.and_eq_true_iff.1 hfits).1

/-- The engine answers wherever the sequencer fits: neither fault is raised there (log 12). -/
theorem engineStep_next {s : State} (hs : s.sequencerFits = true) : ∃ t, engineStep s = .next t := by
  by_cases hidle : s.ph = .idle
  · exact ⟨s, engineStep_idle hidle⟩
  by_cases hset : s.ph = .settle
  · exact ⟨s.settleUnit, engineStep_internal (by simp only [State.issue, hset])⟩
  by_cases hfin : s.ph = .finished
  · exact ⟨s.returnToHost, engineStep_internal (by simp only [State.issue, hfin])⟩
  obtain ⟨r, hr⟩ := State.row_of_sequencerFits hs hidle hset hfin
  obtain ⟨i, ha⟩ := State.issueAction_next hr ((State.sequencerFits_row hr).symm.trans hs)
  exact ⟨_, engineStep_row hr ha⟩

/-- In `IDLE` a command is accepted, or its buffer is too long. -/
theorem exec_command_idle {i : Instr} {s : State} {w : CmdWord} (hd : decodeCommand w = .instr i) (hp : s.ph = .idle) :
    (∃ t, exec i s = .next t) ∨
      ∃ k, s.params.maxLen = some k ∧ k < s.buf.length ∧ exec i s = .refused .bufferTooLong := by
  have hseq (c : Command) (f : Next) : (∃ t, acceptSequence c f s = .next t) ∨
      ∃ k, s.params.maxLen = some k ∧ k < s.buf.length ∧ acceptSequence c f s = .refused .bufferTooLong := by
    cases hf : fitsMaxLen s.params s.buf.length with
    | true => exact .inl ⟨_, acceptSequence_next.2 ⟨hp, hf, rfl⟩⟩
    | false =>
      obtain ⟨k, hm, hk⟩ := (fitsMaxLen_eq_false_iff _ _).1 hf
      exact .inr ⟨k, hm, hk, acceptSequence_tooLong hp hm hk c f⟩
  obtain rfl | rfl | rfl | rfl := decodeCommand_command hd
  · exact hseq _ _
  · exact .inl ⟨_, accept_next.2 ⟨hp, rfl⟩⟩
  · exact hseq _ _
  · exact hseq _ _

/-- In `IDLE` every step answers but one that presents a command with a buffer too long. -/
theorem step_idle {s : State} (hp : s.ph = .idle) :
    (∃ t, step s = .next t) ∨ ∃ r rest k, s.host = .issue r :: rest ∧ s.params.maxLen = some k ∧ k < r.buf.length ∧
      step s = .refused .bufferTooLong := by
  have hchange {t : State} {why : Refusal} (h : s.turn = s.betweenCommands t why) : ∃ t, step s = .next t :=
    ⟨t, (step_betweenCommands h).trans (if_pos hp)⟩
  cases hh : s.host with
  | nil => exact .inl ⟨s, (step_engine hh).trans (engineStep_idle hp)⟩
  | cons m rest =>
    cases m with
    | issue r =>
      cases hd : decodeCommand r.word with
      | rejected why => exact .inl ⟨_, step_issue_rejected hp hh hd⟩
      | instr i =>
        have hstep := step_issue_instr hp hh hd
        obtain ⟨t, ht⟩ | ⟨k, hm, hk, ht⟩ := exec_command_idle (s := s.present r rest) hd hp
        · exact .inl ⟨t, hstep.trans ht⟩
        · exact .inr ⟨r, rest, k, rfl, hm, hk, hstep.trans ht⟩
    | tick => exact .inl ⟨_, (step_tick hh).trans (engineStep_idle hp)⟩
    | await => exact .inl ⟨{ s with host := rest }, by simp only [step, State.turn, hh, if_pos hp]⟩
    | reset => exact .inl ⟨{ s.hostReset with host := rest }, by simp only [step, State.turn, hh]⟩
    | changeBuffer b | changeConfig c | otherWritesData v | otherWritesControl m v =>
      exact .inl (hchange (by rw [State.turn, hh]))

/-- Settles O13: in `IDLE` by `step_idle`; while a command runs the engine's steps answer (`engineStep_next`) and a
reset does, and every other move of the host is a misuse (`misuseWhileRunningIsRefused`). -/
theorem onlyMisuseIsRefused : Obligations.OnlyMisuseIsRefused := by
  unfold Obligations.OnlyMisuseIsRefused
  intro s hs
  by_cases hp : s.ph = .idle
  · exact (step_idle hp).imp_right fun h => .inr ⟨hp, h⟩
  cases hh : s.host with
  | nil => exact .inl (step_engine hh ▸ engineStep_next hs.sequencer)
  | cons m rest =>
    obtain ⟨hissue, hbuffer, hconfig, hdata, hcontrol⟩ := misuseWhileRunningIsRefused s rest hp
    cases m with
    | tick => exact .inl (step_tick hh ▸ engineStep_next (hs.setHost rest).sequencer)
    | await =>
      have hstep : step s = engineStep s := by simp only [step, State.turn, hh, if_neg hp]
      exact .inl (hstep ▸ engineStep_next hs.sequencer)
    | reset => exact .inl ⟨{ s.hostReset with host := rest }, by simp only [step, State.turn, hh]⟩
    | issue r => exact .inr (.inl ⟨hp, .inl ⟨r, rest, rfl, hissue r hh⟩⟩)
    | changeBuffer b => exact .inr (.inl ⟨hp, .inr (.inl ⟨b, rest, rfl, hbuffer b hh⟩)⟩)
    | changeConfig c => exact .inr (.inl ⟨hp, .inr (.inr (.inl ⟨c, rest, rfl, hconfig c hh⟩))⟩)
    | otherWritesData v => exact .inr (.inl ⟨hp, .inr (.inr (.inr (.inl ⟨v, rest, rfl, hdata v hh⟩)))⟩)
    | otherWritesControl k v => exact .inr (.inl ⟨hp, .inr (.inr (.inr (.inr ⟨k, v, rest, rfl, hcontrol k v hh⟩)))⟩)

/-! ### A failed access (60_exceptions.md R129) -/

/-- Settles O29: the step is the failed access (`step_row_err`), whose whole state is `failed_eq`. -/
theorem failedAccessAborts : Obligations.FailedAccessAborts := by
  unfold Obligations.FailedAccessAborts
  intro s i k hh hi herr
  obtain ⟨r, hr, ha⟩ := State.row_of_issue hi
  refine ⟨failed i k s, step_row_err hh hr ha herr, ?_⟩
  rw [failed_eq]
  refine ⟨rfl, rfl, rfl, rfl, rfl, rfl, rfl, rfl, rfl, rfl, rfl, ?_, ?_, ?_⟩
  · rintro v rfl
    exact ⟨rfl, ite_self _, rfl⟩
  · rintro rfl
    exact ⟨rfl, ite_self _, ite_self _⟩
  · rintro m v rfl
    exact ⟨rfl, ite_self _, rfl⟩

end Sys2Proof.Machine

/-! ## Reset and hazards (70_reset_and_hazards.md) -/

namespace Sys2Proof.Machine

/-! ### Data hold (70_reset_and_hazards.md R151, R152) -/

/-- What comes next lies between the placing of a byte and the end of its strobe pulse. -/
def Next.inStrobe : Next → Bool
  | .phase .poll | .phase .stbHi | .phase .stbLo | .byteDone => true
  | .phase .idle | .phase .selCs | .phase .selA0 | .phase .selAux | .phase .place | .phase .settle
  | .phase .finished | .finish => false

theorem State.strobing_of_ne_settle {s : State} (h : s.ph ≠ .settle) :
    s.strobing = (Next.phase s.ph).inStrobe := by
  unfold State.strobing
  cases hp : s.ph <;> simp_all [Next.inStrobe]

theorem State.strobing_settle {s : State} (h : s.ph = .settle) :
    s.strobing = (s.ret.getD (.phase .idle)).inStrobe := by
  unfold State.strobing
  rw [h]
  cases s.ret with
  | none => rfl
  | some n =>
    cases n with
    | phase p => cases p <;> rfl
    | byteDone | finish => rfl

/-- Going on to what follows strobes a byte only where what follows does, and `byte_done` ends the strobing. -/
theorem State.strobing_enter {s : State} {n : Next} (hn : n ≠ .phase .settle ∨ s.ret = some n)
    (h : (s.enter n).strobing = true) : n.inStrobe = true ∧ (s.enter n).idx = s.idx := by
  cases n with
  | finish => exact absurd h Bool.false_ne_true
  | byteDone =>
    simp only [State.enter_byteDone, State.byteDone] at h
    split at h <;> exact absurd h Bool.false_ne_true
  | phase p =>
    by_cases hp : p = .settle
    · subst hp
      have hr : s.ret = some (.phase .settle) := hn.resolve_left fun h => h rfl
      rw [State.strobing_settle rfl, State.enter_ret, hr] at h
      exact ⟨h, rfl⟩
    · exact ⟨(State.strobing_of_ne_settle (s := s.enter (.phase p)) hp).symm.trans h, rfl⟩

/-- No byte is strobed where no access is left to make. -/
theorem State.holdsByte_of_stopped {s : State} (h : s.ph = .idle ∨ s.ph = .finished) : s.HoldsByte := by
  intro hs
  obtain h | h := h <;>
  · rw [State.strobing_of_ne_settle (by simp [h]), h] at hs
    cases hs

/-- A settle wait counts down and goes on within the strobing it stands in. -/
theorem settleUnit_strobing {s : State} (hp : s.ph = .settle) (h : s.settleUnit.strobing = true) :
    s.strobing = true ∧ s.settleUnit.idx = s.idx := by
  have hn : s.ret.getD (.phase .idle) ≠ .phase .settle ∨ s.ret = some (s.ret.getD (.phase .idle)) := by
    cases s.ret <;> simp
  rw [State.strobing_settle hp]
  obtain ⟨-, -, hu⟩ | ⟨-, -, hu⟩ | ⟨-, hu⟩ | ⟨-, -, hu⟩ := settleUnit_cases s hp <;> rw [hu] at h ⊢
  · exact State.strobing_enter hn h
  · rw [State.strobing_settle rfl] at h
    exact ⟨h, rfl⟩
  · exact State.strobing_enter (s := { s with cnt := 0#16 }) hn h
  · exact ⟨(State.strobing_settle hp).symm.trans h, rfl⟩

theorem settleUnit_holdsByte {s : State} (hs : s.HoldsByte) (hp : s.ph = .settle) : s.settleUnit.HoldsByte := by
  intro hstr b hcur
  obtain ⟨hin, hidx⟩ := settleUnit_strobing hp hstr
  obtain ⟨-, hdata, -, hop, hbuf, -⟩ := settleUnit_keeps s
  rw [State.currentByte_congr hop hbuf hidx] at hcur
  exact hdata.trans (hs hin b hcur)

/-- After an access that succeeds the sequencer strobes a byte only where the row's next does. -/
theorem afterAccess_strobing {s : State} {r : Row} {i : Instr} (hr : s.row s.ph = some r)
    (h : (afterAccess r i s).strobing = true) : r.next.inStrobe = true ∧ (afterAccess r i s).idx = s.idx := by
  by_cases hact : r.action = .readStatus
  · obtain ⟨hread, hpoll⟩ := State.row_readStatus hr
    rw [afterAccess_read hr hact, (hpoll (hread.1 hact)).2]
    exact ⟨rfl, performed_idx i s⟩
  by_cases hd : s.settleUnits = 0#16
  · rw [afterAccess_unsettled hact hd] at h ⊢
    obtain ⟨hn, hidx⟩ := State.strobing_enter (.inl (State.row_next_ne_settle hr)) h
    exact ⟨hn, hidx.trans (performed_idx i s)⟩
  · rw [afterAccess_settled hact hd] at h ⊢
    exact ⟨(State.strobing_settle rfl).symm.trans h, performed_idx i s⟩

/-- A byte's strobing begins with its placing: any other row that goes on within it stands in it. -/
theorem State.row_inStrobe {s : State} {p : Phase} {r : Row} (h : s.row p = some r) (hn : r.next.inStrobe = true) :
    r.action = .placeByte ∨ ((Next.phase p).inStrobe = true ∧ r.action ≠ .placeByte) := by
  have hsetup : (afterSetup s.total).inStrobe = false := by
    unfold afterSetup
    split <;> rfl
  obtain ⟨-, rfl⟩ | ⟨-, b, rfl, -⟩ | ⟨-, rfl, -⟩ | ⟨-, rfl⟩ | ⟨rfl, -, rfl⟩ | ⟨rfl, rfl⟩ | ⟨rfl, rfl⟩ :=
    State.row_cases h
  · cases hn
  · exact absurd hn (by simp [hsetup])
  · exact absurd hn (by simp [hsetup])
  · exact .inl rfl
  · exact .inr ⟨rfl, nofun⟩
  · exact .inr ⟨rfl, nofun⟩
  · exact .inr ⟨rfl, nofun⟩

/-- The placing of a byte puts it in `DATA`, and no other access changes `DATA` (20_memory.md R48, R49). -/
theorem accessEffect_data_of_action {s : State} {a : Action} {i : Instr} (h : s.issueAction a = .access i) :
    (a = .placeByte → ∀ b, s.currentByte = some b → (accessEffect i s).data = PortReg.write b) ∧
      (a ≠ .placeByte → (accessEffect i s).data = s.data) := by
  obtain ⟨v, hv, rfl, -, he⟩ | ⟨rfl, -, he⟩ | ⟨L, x, rfl, -, he⟩ := accessEffect_of_issue h <;> rw [he]
  · refine ⟨fun _ b hb => ?_, fun hne => absurd rfl hne⟩
    rw [← Option.some.inj (hv.symm.trans hb)]
    rfl
  · exact ⟨nofun, fun _ => rfl⟩
  · exact ⟨nofun, fun _ => rfl⟩

/-- An access that succeeds places the byte that is strobed next, or leaves the one that is being strobed. -/
theorem afterAccess_holdsByte {s : State} {r : Row} {i : Instr} (hs : s.HoldsByte) (hr : s.row s.ph = some r)
    (ha : s.issueAction r.action = .access i) : (afterAccess r i s).HoldsByte := by
  intro hstr b hcur
  obtain ⟨hn, hidx⟩ := afterAccess_strobing hr hstr
  obtain ⟨-, hdata, -, hop, hbuf, -⟩ := afterAccess_keeps r i s
  obtain ⟨hplace, hother⟩ := accessEffect_data_of_action ha
  rw [State.currentByte_congr hop hbuf hidx] at hcur
  rw [hdata]
  obtain hact | ⟨hp, hact⟩ := State.row_inStrobe hr hn
  · exact hplace hact b hcur
  · have hsettle : s.ph ≠ .settle := (State.row_some_phase hr).2.1
    rw [hother hact]
    exact hs ((State.strobing_of_ne_settle hsettle).trans hp) b hcur

theorem engineStep_holdsByte {s t : State} (hs : s.HoldsByte) (h : engineStep s = .next t) : t.HoldsByte := by
  obtain ⟨-, rfl⟩ | ⟨-, rfl⟩ | ⟨hp, rfl⟩ | ⟨r, i, hr, ha, ⟨-, rfl⟩ | ⟨k, -, rfl⟩⟩ := engineStep_cases h
  · exact hs
  · exact State.holdsByte_of_stopped (.inl rfl)
  · exact settleUnit_holdsByte hs hp
  · exact afterAccess_holdsByte hs hr ha
  · obtain ⟨-, hph, -⟩ := failed_keeps i k s
    exact State.holdsByte_of_stopped (.inr hph)

/-- An accepted command has placed no byte. -/
theorem exec_command_holdsByte {i : Instr} {s t : State} {w : CmdWord} (hd : decodeCommand w = .instr i)
    (h : exec i s = .next t) : t.HoldsByte := by
  obtain ⟨-, c, f, rfl, hcf⟩ := exec_command_cases hd h
  have hf : f ≠ .phase .settle ∧ f.inStrobe = false := by
    obtain ⟨-, rfl⟩ | ⟨-, rfl⟩ | ⟨-, rfl⟩ | ⟨-, rfl⟩ := hcf
    · unfold afterSetup
      split <;> exact ⟨nofun, rfl⟩
    all_goals exact ⟨nofun, rfl⟩
  exact fun hstr => absurd (State.strobing_enter (.inl hf.1) hstr).1 (by simp [hf.2])

theorem step_holdsByte {s t : State} (hs : s.HoldsByte) (h : step s = .next t) : t.HoldsByte := by
  obtain ⟨-, he⟩ | ⟨rest, -, he⟩ | ⟨rest, -, -, he⟩ | ⟨rest, -, rfl⟩ | ⟨r, rest, i, -, -, hd, he⟩ |
    ⟨r, rest, why, -, -, -, rfl⟩ | ⟨m, rest, hp, -, rfl | ⟨v, -, rfl⟩ | ⟨k, v, -, rfl⟩⟩ := step_cases h
  · exact engineStep_holdsByte hs he
  · exact engineStep_holdsByte (s := { s with host := rest }) hs he
  · exact engineStep_holdsByte hs he
  · exact State.holdsByte_of_stopped (.inl rfl)
  · exact exec_command_holdsByte hd he
  · exact State.holdsByte_of_stopped (.inr rfl)
  all_goals exact State.holdsByte_of_stopped (.inl hp)

/-- Settles O43: a byte's strobing begins with its placing (`State.row_inStrobe`), which puts it in `DATA`; until
`byte_done` no other access changes `DATA`, and no other agent writes the port while a command runs. -/
theorem dataIsHeld : Obligations.DataIsHeld := by
  unfold Obligations.DataIsHeld
  exact ⟨State.holdsByte_of_stopped (.inl rfl), fun _ _ => step_holdsByte⟩

/-! ### Reset (70_reset_and_hazards.md R146) -/

theorem step_reset {s : State} {rest : List HostMove} (h : s.host = .reset :: rest) :
    step s = .next { s.hostReset with host := rest } := by
  simp only [step, State.turn, h]

/-- The engine leaves `IDLE` by the acceptance of a command only (60_exceptions.md R139). -/
theorem step_stays_idle {s t : State} (hp : s.ph = .idle) (hno : ∀ r rest, s.host ≠ .issue r :: rest)
    (h : step s = .next t) : t.ph = .idle := by
  have hengine {u : State} (hu : u.ph = .idle) (he : engineStep u = .next t) : t.ph = .idle := by
    rw [engineStep_idle hu] at he
    exact Host.Outcome.next.inj he ▸ hu
  obtain ⟨-, he⟩ | ⟨rest, -, he⟩ | ⟨rest, -, hne, -⟩ | ⟨rest, -, rfl⟩ | ⟨r, rest, i, -, hh, -⟩ |
    ⟨r, rest, why, -, hh, -⟩ | ⟨m, rest, -, -, rfl | ⟨v, -, rfl⟩ | ⟨k, v, -, rfl⟩⟩ := step_cases h
  · exact hengine hp he
  · exact hengine (u := { s with host := rest }) hp he
  · exact absurd hp hne
  · rfl
  · exact absurd hh (hno r rest)
  · exact absurd hh (hno r rest)
  all_goals exact hp

/-- Settles O10: the reset's step is `step_reset`, and of the other moves only a presented command leaves `IDLE`
(`step_stays_idle`). -/
theorem resetEvent : Obligations.ResetEvent := by
  unfold Obligations.ResetEvent
  refine ⟨fun s rest hh => ⟨_, step_reset hh, ?_⟩, fun s t => step_stays_idle⟩
  exact ⟨rfl, rfl, rfl, rfl, rfl, rfl, rfl, rfl, rfl, rfl, rfl, rfl⟩

/-! ### Repeatability (70_reset_and_hazards.md R159) -/

/-- `s` with other port registers and another `RESULT`: what no step of a command reads (10_state.md R36, R38). -/
def State.withOutputs (s : State) (d c : PortReg) (r : Result) : State :=
  { s with data := d, control := c, result := r }

/-- `t` is `s` but for the port registers and `RESULT`, and has its `RESULT` where no command runs. -/
def State.RepeatedBy (s t : State) : Prop :=
  ∃ d c r, t = s.withOutputs d c r ∧ (s.ph = .finished ∨ s.ph = .idle → r = s.result)

/-- The outputs of a running command are free. -/
theorem State.repeatedBy_running {s : State} (hf : s.ph ≠ .finished) (hi : s.ph ≠ .idle) (d c : PortReg) (r : Result) :
    s.RepeatedBy (s.withOutputs d c r) :=
  ⟨d, c, r, rfl, fun h => (h.elim hf hi).elim⟩

/-- What a command goes on to sets `RESULT` where it ends the command. -/
theorem State.repeatedBy_enter {s : State} {n : Next} (hn : s.retFits n = true) (d c : PortReg) (r : Result) :
    (s.enter n).RepeatedBy ((s.withOutputs d c r).enter n) := by
  cases n with
  | finish => exact ⟨d, c, .ok, rfl, fun _ => rfl⟩
  | phase p =>
    obtain ⟨hsome, -⟩ := Bool.and_eq_true_iff.1 hn
    obtain ⟨row, hrow⟩ := Option.isSome_iff_exists.1 hsome
    obtain ⟨hi, -, hf⟩ := State.row_some_phase hrow
    exact State.repeatedBy_running (s := s.enter (.phase p)) hf hi d c r
  | byteDone =>
    have htotal : (s.withOutputs d c r).total = s.total := rfl
    have hidx : (s.withOutputs d c r).idx = s.idx := rfl
    simp only [State.enter_byteDone, State.byteDone, htotal, hidx]
    split
    · exact State.repeatedBy_running (s := { s with idx := s.idx + 1, ph := .place }) nofun nofun d c r
    · exact ⟨d, c, .ok, rfl, fun _ => rfl⟩

theorem performed_withOutputs (i : Instr) (s : State) (d c : PortReg) (r : Result) :
    performed i (s.withOutputs d c r) =
      (performed i s).withOutputs (performed i (s.withOutputs d c r)).data
        (performed i (s.withOutputs d c r)).control r := by
  cases i <;> rfl

theorem failed_repeatedBy (i : Instr) (k : PortError) (s : State) (d c : PortReg) (r : Result) :
    (failed i k s).RepeatedBy (failed i k (s.withOutputs d c r)) := by
  rw [failed_eq, failed_eq]
  exact ⟨_, _, portErrorResult k, rfl, fun _ => rfl⟩

/-- A settle unit reads no output. -/
theorem settleUnit_repeatedBy {s : State} (hp : s.ph = .settle) (hs : s.sequencerFits = true) (d c : PortReg)
    (r : Result) : s.settleUnit.RepeatedBy (s.withOutputs d c r).settleUnit := by
  obtain ⟨hc, -, n, hr, hn⟩ := (State.sequencerFits_settle hp).1 hs
  have hunit (u : State) (hph : u.ph = .settle) (hcnt : u.cnt ≠ 0#16) (hret : u.ret = some n) : u.settleUnit =
      if u.cnt - 1#16 = 0#16 then { u with cnt := u.cnt - 1#16 }.enter n else { u with cnt := u.cnt - 1#16 } := by
    simp [State.settleUnit, State.following, hph, hcnt, hret]
  have hcnt : (s.withOutputs d c r).cnt = s.cnt := rfl
  rw [hunit s hp hc hr, hunit (s.withOutputs d c r) hp hc hr, hcnt]
  split
  · exact State.repeatedBy_enter (s := { s with cnt := s.cnt - 1#16 }) hn d c r
  · exact State.repeatedBy_running (s := { s with cnt := s.cnt - 1#16 }) (by simp [hp]) (by simp [hp]) d c r

/-- An access that succeeds, and what follows it, read no output. -/
theorem afterAccess_repeatedBy {s : State} {row : Row} {i : Instr} (hr : s.row s.ph = some row)
    (hi : s.indexFits s.ph = true) (d c : PortReg) (r : Result) :
    (afterAccess row i s).RepeatedBy (afterAccess row i (s.withOutputs d c r)) := by
  obtain ⟨hidle, -, hfin⟩ := State.row_some_phase hr
  have hnext : (performed i s).retFits row.next = true :=
    (State.retFits_congr (performed_op i s) (performed_buf i s) (performed_idx i s) (performed_params i s) _).trans
      (State.retFits_of_row hr hi)
  have hparams : (s.withOutputs d c r).params = s.params := rfl
  have hanswer : (s.withOutputs d c r).answer = s.answer := rfl
  have hunits : (s.withOutputs d c r).settleUnits = s.settleUnits := rfl
  simp only [afterAccess, hparams, hanswer, hunits]
  rw [performed_withOutputs]
  split
  · split
    · exact State.repeatedBy_running (by rwa [performed_ph]) (by rwa [performed_ph]) _ _ r
    · exact State.repeatedBy_enter hnext _ _ r
  · split
    · exact State.repeatedBy_enter hnext _ _ r
    · exact ⟨_, _, r, rfl, nofun⟩

/-- A step of the engine reads neither the port registers nor `RESULT` (10_state.md R38). -/
theorem engineStep_repeatedBy {s t s' : State} (hs : s.sequencerFits = true) (hst : s.RepeatedBy t)
    (h : engineStep s = .next s') : ∃ t', engineStep t = .next t' ∧ s'.RepeatedBy t' := by
  obtain ⟨d, c, r, rfl, hres⟩ := hst
  obtain ⟨hp, rfl⟩ | ⟨hp, rfl⟩ | ⟨hp, rfl⟩ | ⟨row, i, hr, ha, hout⟩ := engineStep_cases h
  · exact ⟨_, engineStep_idle hp, d, c, r, rfl, hres⟩
  · have hi : (s.withOutputs d c r).issue = .internal (s.withOutputs d c r).returnToHost := by
      simp only [State.issue, show (s.withOutputs d c r).ph = .finished from hp]
    exact ⟨_, engineStep_internal hi, d, c, r, rfl, fun _ => hres (.inl hp)⟩
  · have hi : (s.withOutputs d c r).issue = .internal (s.withOutputs d c r).settleUnit := by
      simp only [State.issue, show (s.withOutputs d c r).ph = .settle from hp]
    exact ⟨_, engineStep_internal hi, settleUnit_repeatedBy hp hs d c r⟩
  · have hstep := engineStep_row (s := s.withOutputs d c r) hr ha
    rw [show (s.withOutputs d c r).answer = s.answer from rfl] at hstep
    obtain ⟨hok, rfl⟩ | ⟨k, herr, rfl⟩ := hout
    · rw [hok] at hstep
      exact ⟨_, hstep, afterAccess_repeatedBy hr ((State.sequencerFits_row hr).symm.trans hs) d c r⟩
    · rw [herr] at hstep
      exact ⟨_, hstep, failed_repeatedBy i k s d c r⟩

/-- A run of the engine reads neither the port registers nor `RESULT`. -/
theorem steps_repeatedBy {n : Nat} {s t s' : State} (hh : s.host = []) (hs : s.sequencerFits = true)
    (hst : s.RepeatedBy t) (h : steps n s = some s') : ∃ t', steps n t = some t' ∧ s'.RepeatedBy t' := by
  induction n generalizing s t with
  | zero => exact ⟨t, rfl, Option.some.inj h ▸ hst⟩
  | succ n ih =>
    have hth : t.host = [] := by
      obtain ⟨d, c, r, rfl, -⟩ := hst
      exact hh
    obtain ⟨u, hu⟩ := engineStep_next hs
    obtain ⟨v, hv, huv⟩ := engineStep_repeatedBy hs hst hu
    rw [steps_succ_of_step ((step_engine hh).trans hu)] at h
    rw [steps_succ_of_step ((step_engine hth).trans hv)]
    exact ih ((engineStep_host hu).trans hh) (engineStep_sequencerFits hs hu) huv h

/-- Which first phase a command is accepted into depends on the length of the buffer alone. -/
theorem exec_command_first {i : Instr} (hi : i = .writeA ∨ i = .dataB ∨ i = .writeC ∨ ∃ b, i = .cmdB b) :
    ∃ (c : Command) (f : Nat → Next), (∀ s : State, (s.clearSequencer (some c)).retFits (f s.buf.length) = true) ∧
      ∀ s u, exec i s = .next u → s.ph = .idle ∧ u = (s.clearSequencer (some c)).enter (f s.buf.length) := by
  obtain rfl | rfl | rfl | ⟨b, rfl⟩ := hi
  · exact ⟨.writeA, afterSetup, fun s => State.retFits_afterSetup (s := s.clearSequencer (some .writeA)) rfl rfl,
      fun s u h => (acceptSequence_next.1 h).imp_right And.right⟩
  · exact ⟨.dataB, fun _ => .phase .selCs, fun _ => rfl, fun s u h => (acceptSequence_next.1 h).imp_right And.right⟩
  · exact ⟨.writeC, fun _ => .phase .selAux, fun _ => rfl, fun s u h => (acceptSequence_next.1 h).imp_right And.right⟩
  · exact ⟨.cmdB b, fun _ => .phase .selCs, fun _ => rfl, fun s u h => accept_next.1 h⟩

/-- With the same inputs sampled, cleared sequencers differ in their outputs at most (60_exceptions.md R139). -/
theorem State.clearSequencer_eq_withOutputs {s t : State} (hph : t.ph = s.ph) (hh : t.host = s.host)
    (hp : t.params = s.params) (he : t.env = s.env) (hb : t.buf = s.buf) (hc : t.cfg = s.cfg) (op : Option Command) :
    t.clearSequencer op = (s.clearSequencer op).withOutputs t.data t.control t.result := by
  simp only [State.clearSequencer, State.withOutputs, hph, hh, hp, he, hb, hc]

/-- Settles O51: acceptance clears what differs but the outputs (`State.clearSequencer_eq_withOutputs`), and no step of
the run reads those (`steps_repeatedBy`). -/
theorem commandsRepeat : Obligations.CommandsRepeat := by
  unfold Obligations.CommandsRepeat
  intro n i s1 s2 u1 u2 t1 hp1 hp2 hh1 hh2 hparams henv hbuf hcfg hi hu1 hu2 h
  obtain ⟨c, f, hfits, hfirst⟩ := exec_command_first hi
  obtain ⟨-, rfl⟩ := hfirst s1 u1 hu1
  obtain ⟨-, rfl⟩ := hfirst s2 u2 hu2
  have hcleared := State.clearSequencer_eq_withOutputs (hp2.trans hp1.symm) (hh2.trans hh1.symm) hparams.symm
    henv.symm hbuf.symm hcfg.symm (some c)
  have hstart : ((s1.clearSequencer (some c)).enter (f s1.buf.length)).RepeatedBy
      ((s2.clearSequencer (some c)).enter (f s2.buf.length)) := by
    rw [hcleared, ← hbuf]
    exact State.repeatedBy_enter (hfits s1) _ _ _
  obtain ⟨t2, ht2, d, k, r, rfl, hres⟩ :=
    steps_repeatedBy (by simp [hh1]) (State.sequencerFits_enter (hfits s1)) hstart h
  exact ⟨_, ht2, rfl, rfl, rfl, hres⟩

end Sys2Proof.Machine
